-- ==== Sys2Proof/Word.lean ====
section
/-! DEFINITION. The word types of the block: the byte of the frame buffer and the widths of the
fields the format names (`10_state.md` R21, R22, R34 to R36). Lengths, offsets and counts are exact
integers (`00_scope.md` R8) and are `Nat` or `Int`, never words. -/

namespace Sys2Proof

/-- The unit of the frame buffer (`20_memory.md` R60). -/
abbrev Byte := BitVec 8

/-- A 16-bit field: `mac_parm`, `len_sid`, the HCS (`10_state.md` R22). -/
abbrev Word16 := BitVec 16

/-- A 32-bit field: the fragment CRC (`42_checksums.md` R234). -/
abbrev Word32 := BitVec 32

/-- A service identifier of the reassembly store, 14 bits (`00_scope.md` R6 `SID_BITS`). -/
abbrev Sid := BitVec 14

/-- A fragment sequence number, 4 bits (`00_scope.md` R6 `SEQ_BITS`). -/
abbrev Seq4 := BitVec 4

end Sys2Proof
end

