-- ==== Sys2Proof/Config.lean ====
section
/-! DEFINITION. The implementation parameters of `00_scope.md` R6: the two CRC functions the block is
parameterised by (`42_checksums.md` R230), and the frame-control codes. Everything a host can change
at run time is in `State.cfg`, not here. -/

namespace Sys2Proof

/-- The two configuration functions of `42_checksums.md` R230: each gives the value its check field
holds, read big-endian, when it is correct for the covered bytes. The operations take them as an
argument, so that what holds of every choice can be stated of every choice (R237). -/
structure Config.Params where
  crc16Field : List Byte → Word16
  crc32Field : List Byte → Word32

namespace Config

/-! Frame-control codes (`30_encoding.md` R94, R95). `macspc`, `rqst` and `qdr` follow from the
source's two literals `0xC4` and `0xC8`; the others are general knowledge. PRESUMED (log 8), unsafe. -/

/-- `FCTYPE_PACKET`. -/
abbrev fctypePacket : BitVec 2 := 0
/-- `FCTYPE_RESERVED`. -/
abbrev fctypeReserved : BitVec 2 := 1
/-- `FCTYPE_ISOLAT`. -/
abbrev fctypeIsolat : BitVec 2 := 2
/-- `FCTYPE_MACSPC`. -/
abbrev fctypeMacspc : BitVec 2 := 3

/-- `FCPARM_TIMING`. -/
abbrev fcparmTiming : BitVec 5 := 0
/-- `FCPARM_MGMT`. -/
abbrev fcparmMgmt : BitVec 5 := 1
/-- `FCPARM_RQST`. -/
abbrev fcparmRqst : BitVec 5 := 2
/-- `FCPARM_FRAG`. -/
abbrev fcparmFrag : BitVec 5 := 3
/-- `FCPARM_QDR`. -/
abbrev fcparmQdr : BitVec 5 := 4
/-- `FCPARM_CONCAT`. -/
abbrev fcparmConcat : BitVec 5 := 0x1C

/-- The sub-types of the MAC-Specific class that have a class of their own (`30_encoding.md` R95);
every other value is an unknown sub-type (R100). -/
abbrev knownFcparms : List (BitVec 5) :=
  [fcparmTiming, fcparmMgmt, fcparmRqst, fcparmFrag, fcparmQdr, fcparmConcat]

/-- The number of groups of the reassembly store, one for each 14-bit SID (`00_scope.md` R6). -/
abbrev numSids : Nat := 16384

/-- The number of slots of a group, one for each 4-bit sequence number (`00_scope.md` R6). -/
abbrev numSlots : Nat := 16

end Config
end Sys2Proof
end

