-- ==== Sys2Proof/Syntax.lean ====
section
/-! DEFINITION. The instructions: one constructor for each instruction of `spec/opcode_table.json`,
the ten frame classes (opcode: the FC byte, `30_encoding.md` R91, R96) and the sixteen element types
(opcode: the head byte, R102, R103). The 26 rows of `UNKNOWN` are one instruction that differs in its
`fcparm` alone and has one rule, R151 (DESIGN CHOICE, log 6, safe).

An instruction carries the fields of its opcode byte. The bytes after it (MAC-parameter, Length/SID,
values, check fields) are operands in memory, read while the instruction runs, because each read may
fault on its own (`60_exceptions.md` R318) and an element's reads are not bounded by its length
(`41_ehdr_elements.md` R184). DEDUCED (log 5), safe. -/

namespace Sys2Proof

/-- The frame classes and the extended-header elements. `fcparm` and `ehdron` are the bits 5:1 and 0
of the FC byte, `len` the bits 3:0 of the head byte. -/
inductive Instr where
  /-- `PKT`, Packet PDU (`40_frame_classes.md` R141). -/
  | pkt (fcparm : BitVec 5) (ehdron : Bool)
  /-- `RSVD`, Reserved PDU (R143). -/
  | rsvd (fcparm : BitVec 5) (ehdron : Bool)
  /-- `ISO`, Isolation PDU (R142). -/
  | iso (fcparm : BitVec 5) (ehdron : Bool)
  /-- `TIMING`, Timing Header (R144). -/
  | timing (ehdron : Bool)
  /-- `MGMT`, MAC-Management Header (R145). -/
  | mgmt (ehdron : Bool)
  /-- `RQST`, Request Frame (R146). -/
  | rqst (ehdron : Bool)
  /-- `FRAG`, Fragmentation Header (R147, `43_reassembly.md` R262). -/
  | frag (ehdron : Bool)
  /-- `QDR`, Queue-Depth-Request Frame (R148). -/
  | qdr (ehdron : Bool)
  /-- `CONCAT`, Concatenation Header (R150). -/
  | concat (ehdron : Bool)
  /-- `UNKNOWN`, a MAC-Specific sub-type with no class (R151). -/
  | unknown (fcparm : BitVec 5) (ehdron : Bool)
  /-- `EH_NULL`, element type 0 (`41_ehdr_elements.md` R198). -/
  | ehNull (len : BitVec 4)
  /-- `EH_REQUEST`, element type 1 (R188). -/
  | ehRequest (len : BitVec 4)
  /-- `EH_ACK_REQ`, element type 2 (R189). -/
  | ehAckReq (len : BitVec 4)
  /-- `EH_UP_PRIVACY`, element type 3 (R190). -/
  | ehUpPrivacy (len : BitVec 4)
  /-- `EH_DOWN_PRIVACY`, element type 4 (R191). -/
  | ehDownPrivacy (len : BitVec 4)
  /-- `EH_SF_PHS_5`, element type 5 (R192). -/
  | ehSfPhs5 (len : BitVec 4)
  /-- `EH_SF_PHS_6`, element type 6 (R193). -/
  | ehSfPhs6 (len : BitVec 4)
  /-- `EH_UP_PRIVACY2`, element type 7 (R194). -/
  | ehUpPrivacy2 (len : BitVec 4)
  /-- `EH_DOWN_SERVICE`, element type 8 (R195). -/
  | ehDownService (len : BitVec 4)
  /-- `EH_PATH_VERIFY`, element type 9 (R196). -/
  | ehPathVerify (len : BitVec 4)
  /-- `EH_RSVD_10`, element type 10 (R198). -/
  | ehRsvd10 (len : BitVec 4)
  /-- `EH_RSVD_11`, element type 11 (R198). -/
  | ehRsvd11 (len : BitVec 4)
  /-- `EH_RSVD_12`, element type 12 (R198). -/
  | ehRsvd12 (len : BitVec 4)
  /-- `EH_RSVD_13`, element type 13 (R198). -/
  | ehRsvd13 (len : BitVec 4)
  /-- `EH_RSVD_14`, element type 14 (R198). -/
  | ehRsvd14 (len : BitVec 4)
  /-- `EH_EXTENDED`, element type 15 (R197). -/
  | ehExtended (len : BitVec 4)
  deriving DecidableEq, Repr

/-- The two opcode spaces of `30_encoding.md` R90: where a byte stands decides which one reads it. -/
inductive Space where
  | frame
  | element
  deriving DecidableEq, Repr

/-- The opcode space of an instruction. -/
def Instr.space : Instr → Space
  | .pkt _ _ | .rsvd _ _ | .iso _ _ | .timing _ | .mgmt _ | .rqst _ | .frag _ | .qdr _ | .concat _
  | .unknown _ _ => .frame
  | .ehNull _ | .ehRequest _ | .ehAckReq _ | .ehUpPrivacy _ | .ehDownPrivacy _ | .ehSfPhs5 _
  | .ehSfPhs6 _ | .ehUpPrivacy2 _ | .ehDownService _ | .ehPathVerify _ | .ehRsvd10 _ | .ehRsvd11 _
  | .ehRsvd12 _ | .ehRsvd13 _ | .ehRsvd14 _ | .ehExtended _ => .element

end Sys2Proof
end

