-- ==== Sys2Proof/WellFormed.lean ====
section
/-! DEFINITION. Which terms of `Instr` stand for words of the opcode table. Every field is as wide as
its bits, so one check remains: an unknown sub-type is one that no class of `30_encoding.md` R95
takes. -/

namespace Sys2Proof

/-- An `unknown` names a MAC-Specific sub-type with no class of its own (`30_encoding.md` R95,
R100); every other term stands for a word whatever its fields hold. -/
def Instr.wellFormed : Instr → Bool
  | .unknown fcparm _ => !Config.knownFcparms.contains fcparm
  | .pkt _ _ | .rsvd _ _ | .iso _ _ | .timing _ | .mgmt _ | .rqst _ | .frag _ | .qdr _ | .concat _
  | .ehNull _ | .ehRequest _ | .ehAckReq _ | .ehUpPrivacy _ | .ehDownPrivacy _ | .ehSfPhs5 _
  | .ehSfPhs6 _ | .ehUpPrivacy2 _ | .ehDownService _ | .ehPathVerify _ | .ehRsvd10 _ | .ehRsvd11 _
  | .ehRsvd12 _ | .ehRsvd13 _ | .ehRsvd14 _ | .ehExtended _ => true

end Sys2Proof
end

