-- ==== Sys2Proof/Decode.lean ====
section
/-! DEFINITION. The decoders of the two opcode spaces (`30_encoding.md` R96, R103), total on any
bytes, and the encoder written from the same tables. Every byte value decodes in each space (R100,
R114); a decoder rejects the empty byte string alone, by name. -/

namespace Sys2Proof

/-- Why a decoder gives no instruction. -/
inductive DecodeError where
  /-- There is no opcode byte to read. -/
  | noByte
  deriving DecidableEq, Repr

/-! ## The FC byte -/

/-- `fc[7:6]` (`30_encoding.md` R91). -/
def fcType (fc : Byte) : BitVec 2 := fc.extractLsb' 6 2

/-- `fc[5:1]` (R91). -/
def fcParm (fc : Byte) : BitVec 5 := fc.extractLsb' 1 5

/-- `fc[0]` (R91). -/
def fcEhdron (fc : Byte) : Bool := fc.getLsbD 0

/-- The FC byte of the three fields of R91. -/
def fcByte (fctype : BitVec 2) (fcparm : BitVec 5) (ehdron : Bool) : Byte :=
  fctype ++ fcparm ++ BitVec.ofBool ehdron

/-- The sub-dispatch of the MAC-Specific class (R95, R96). -/
def decodeMacspc (fcparm : BitVec 5) (ehdron : Bool) : Instr :=
  if fcparm = Config.fcparmTiming then .timing ehdron
  else if fcparm = Config.fcparmMgmt then .mgmt ehdron
  else if fcparm = Config.fcparmRqst then .rqst ehdron
  else if fcparm = Config.fcparmFrag then .frag ehdron
  else if fcparm = Config.fcparmQdr then .qdr ehdron
  else if fcparm = Config.fcparmConcat then .concat ehdron
  else .unknown fcparm ehdron

/-- The frame decode table (R96) on the fields of the FC byte. -/
def decodeFcFields (fctype : BitVec 2) (fcparm : BitVec 5) (ehdron : Bool) : Instr :=
  if fctype = Config.fctypePacket then .pkt fcparm ehdron
  else if fctype = Config.fctypeIsolat then .iso fcparm ehdron
  else if fctype = Config.fctypeReserved then .rsvd fcparm ehdron
  else decodeMacspc fcparm ehdron

/-- The frame class of an FC byte (R96). -/
def decodeFc (fc : Byte) : Instr :=
  decodeFcFields (fcType fc) (fcParm fc) (fcEhdron fc)

/-! ## The head byte -/

/-- `h[7:4]` (`30_encoding.md` R102). -/
def headType (h : Byte) : BitVec 4 := h.extractLsb' 4 4

/-- `h[3:0]` (R102). -/
def headLen (h : Byte) : BitVec 4 := h.extractLsb' 0 4

/-- The head byte of a type and a length (R102). -/
def headByte (type len : BitVec 4) : Byte := type ++ len

/-- The element decode table (R103) on the fields of the head byte. -/
def decodeHeadFields (type len : BitVec 4) : Instr :=
  match type.toNat with
  | 0 => .ehNull len
  | 1 => .ehRequest len
  | 2 => .ehAckReq len
  | 3 => .ehUpPrivacy len
  | 4 => .ehDownPrivacy len
  | 5 => .ehSfPhs5 len
  | 6 => .ehSfPhs6 len
  | 7 => .ehUpPrivacy2 len
  | 8 => .ehDownService len
  | 9 => .ehPathVerify len
  | 10 => .ehRsvd10 len
  | 11 => .ehRsvd11 len
  | 12 => .ehRsvd12 len
  | 13 => .ehRsvd13 len
  | 14 => .ehRsvd14 len
  | _ => .ehExtended len

/-- The element of a head byte (R103). -/
def decodeHead (h : Byte) : Instr :=
  decodeHeadFields (headType h) (headLen h)

/-! ## The decoder and the encoder -/

/-- Reads one instruction of an opcode space from the bytes at the cursor. It gives the instruction
and the bytes after the opcode byte, where its operands stand. -/
def decode (sp : Space) (bytes : List Byte) : Except DecodeError (Instr × List Byte) :=
  match bytes with
  | [] => .error .noByte
  | op :: rest =>
    match sp with
    | .frame => .ok (decodeFc op, rest)
    | .element => .ok (decodeHead op, rest)

/-- The opcode byte of an instruction: the FC byte by R94 and R95, or the head byte by R103. -/
def opcode : Instr → Byte
  | .pkt fcparm ehdron => fcByte Config.fctypePacket fcparm ehdron
  | .rsvd fcparm ehdron => fcByte Config.fctypeReserved fcparm ehdron
  | .iso fcparm ehdron => fcByte Config.fctypeIsolat fcparm ehdron
  | .timing ehdron => fcByte Config.fctypeMacspc Config.fcparmTiming ehdron
  | .mgmt ehdron => fcByte Config.fctypeMacspc Config.fcparmMgmt ehdron
  | .rqst ehdron => fcByte Config.fctypeMacspc Config.fcparmRqst ehdron
  | .frag ehdron => fcByte Config.fctypeMacspc Config.fcparmFrag ehdron
  | .qdr ehdron => fcByte Config.fctypeMacspc Config.fcparmQdr ehdron
  | .concat ehdron => fcByte Config.fctypeMacspc Config.fcparmConcat ehdron
  | .unknown fcparm ehdron => fcByte Config.fctypeMacspc fcparm ehdron
  | .ehNull len => headByte 0 len
  | .ehRequest len => headByte 1 len
  | .ehAckReq len => headByte 2 len
  | .ehUpPrivacy len => headByte 3 len
  | .ehDownPrivacy len => headByte 4 len
  | .ehSfPhs5 len => headByte 5 len
  | .ehSfPhs6 len => headByte 6 len
  | .ehUpPrivacy2 len => headByte 7 len
  | .ehDownService len => headByte 8 len
  | .ehPathVerify len => headByte 9 len
  | .ehRsvd10 len => headByte 10 len
  | .ehRsvd11 len => headByte 11 len
  | .ehRsvd12 len => headByte 12 len
  | .ehRsvd13 len => headByte 13 len
  | .ehRsvd14 len => headByte 14 len
  | .ehExtended len => headByte 15 len

/-- The words of an instruction: one opcode byte. -/
def encode (i : Instr) : List Byte := [opcode i]

/-! ## A word of the opcode table on its own

A row of the table is one byte, and every byte is an FC byte and a head byte. A word given without a
place needs a rule that picks the space. DESIGN CHOICE (log 4), safe: the machine never uses it, since
`step` knows the space from where it fetches. -/

/-- The bytes `C0` to `FF` that a table word on its own reads as an element: the words of rows 12 to
15 of the element table whose free bits are all 0 or all 1 and which, as FC bytes, belong to
`UNKNOWN`. -/
def tableHeadWords : List Nat := [0xD0, 0xE0, 0xF0, 0xCF, 0xDF, 0xEF, 0xFF]

/-- The opcode space a table word on its own is read in: a byte below `C0` is an FC byte when its six
free bits are all 0 or all 1, a byte from `C0` on when it is none of `tableHeadWords`; else it is a
head byte (DESIGN CHOICE, log 4). -/
def tableSpace (w : Nat) : Space :=
  let v := w % 256
  if v < 0xC0 then
    if v % 64 = 0 ∨ v % 64 = 63 then .frame else .element
  else if tableHeadWords.contains v then .element else .frame

/-- The bytes of a word, `n` of them, first byte in the least significant bits. -/
def wordBytes : Nat → Nat → List Byte
  | 0, _ => []
  | n + 1, w => BitVec.ofNat 8 w :: wordBytes n (w / 256)

/-- The instruction the decoder reads from a table word of `nbits` bits (log 4). -/
def decodeTableWord (nbits w : Nat) : Option Instr :=
  match decode (tableSpace w) (wordBytes (nbits / 8) (w % 2 ^ nbits)) with
  | .ok (i, _) => some i
  | .error _ => none

end Sys2Proof
end

