-- ==== Sys2Proof/Machine/State.lean ====
section
/-! DEFINITION. The state of the block as plain data: everything `10_state.md` names (the two memories,
the configuration, the per-frame working registers, the decoder's registers, flags, scratch registers,
outputs), and two fields of the model's own (`phase`, `pending`). -/

namespace Sys2Proof.Machine

/-! ## Output records (`10_state.md` R40 to R46) -/

/-- The field identifiers of R46. -/
inductive FieldId where
  | fcType | fcParm | fcEhdron | macParm | ehdrLen | len | hcs
  | rqMinislots | rqSid | qdrReqsize | qdrSid | concatCnt | concatLen | fragFcs | encDa | encSa
  | ehType | ehLen | ehRqMinislots | ehSid | ehKeyseq | ehVer | ehBpiEn | ehToggle | ehSid14 | ehSaid
  | ehMinislots | ehFragRsvd | ehFragFirst | ehFragLast | ehFragSeq | ehRsvd8 | ehPhsi | ehQind
  | ehGrants | ehTrafpri | ehDsid | ehSeqchg | ehDspsn | ehPvStartref | ehPvTs | ehVal
  deriving DecidableEq, Repr

/-- The value of a FIELD record: the extracted unsigned integer, or a byte string for `EH_VAL`,
`ENC_DA`, `ENC_SA` (R41). -/
inductive FieldVal where
  | num (v : Nat)
  | bytes (data : List Byte)
  deriving DecidableEq, Repr

/-- The check status of an `HCS` or `FRAG_FCS` field (R41). -/
inductive CheckStatus where
  | good
  | bad
  | unverified
  deriving DecidableEq, Repr

/-- The event codes of `60_exceptions.md` R310. -/
inductive EventCode where
  | lenNegative
  | lenPastEnd
  | badHcs
  | ehPastEnd
  | ehLenMismatch
  | fragTooShort
  | badFragFcs
  | fragNoInfo
  | fragDuplicate
  | faultBounds
  deriving DecidableEq, Repr

/-- The number of an event code (R310). -/
def EventCode.number : EventCode → Nat
  | .lenNegative => 1
  | .lenPastEnd => 2
  | .badHcs => 3
  | .ehPastEnd => 4
  | .ehLenMismatch => 5
  | .fragTooShort => 6
  | .badFragFcs => 7
  | .fragNoInfo => 8
  | .fragDuplicate => 9
  | .faultBounds => 15

/-- The severities of R310. -/
inductive Severity where
  | note
  | warning
  | error
  | fault
  deriving DecidableEq, Repr

/-- The severity of an event code (R310, `90_conflicts.md` C10). -/
def EventCode.severity : EventCode → Severity
  | .lenNegative | .lenPastEnd | .badHcs | .ehPastEnd | .ehLenMismatch | .fragTooShort
  | .badFragFcs => .error
  | .fragNoInfo => .warning
  | .fragDuplicate => .note
  | .faultBounds => .fault

/-- The downstream consumers of a payload slice (R43). -/
inductive Cont where
  | ethNofcs
  | macMgmt
  | rawData
  | encrypted
  deriving DecidableEq, Repr

/-- The buffer a slice is cut from (R43). -/
inductive Src where
  | frame
  | reasm
  deriving DecidableEq, Repr

/-- The two annotation kinds (R44). -/
inductive NoteKind where
  | fragN
  | ehUgsLabel
  deriving DecidableEq, Repr

/-- The five record kinds (R41 to R45). -/
inductive Record where
  | field (id : FieldId) (off n : Nat) (value : FieldVal) (status : Option CheckStatus)
  | event (code : EventCode) (off : Nat)
  | handoff (cont : Cont) (src : Src) (off n : Nat)
  | note (kind : NoteKind) (arg : Nat)
  | reasm (sid : Sid) (nfrags : Nat) (contiguous : Bool) (n : Nat) (data : List Byte)
  deriving DecidableEq, Repr

/-- The result of one `FRAME_IN` (R37). -/
inductive Status where
  | done
  | fault
  deriving DecidableEq, Repr

/-! ## Memory -/

/-- A full slot of the reassembly store: the fragment's bytes and its first flag (`10_state.md` R38). -/
structure Fragment where
  data : List Byte
  first : Bool
  deriving DecidableEq, Repr

/-- The reassembly store as the list of its full slots. A slot's address is `sid * 16 + seq`; an
address that is not listed reads as `empty` (`20_memory.md` R60, `10_state.md` R38). -/
abbrev Store := List (Nat × Fragment)

/-- The two memories of the block (`20_memory.md` R60). The frame buffer is the byte string of one
`FRAME_IN`: offset `o` holds entry `o`, and an offset at or beyond its length does not exist (R68).
DESIGN CHOICE for both layouts (log 28), safe. -/
structure Memory where
  frame : List Byte
  store : Store
  deriving DecidableEq, Repr

/-- The canonical form of the store: addresses strictly rise and lie among the 16384 x 16 slots
(`20_memory.md` R60). No entry stands for an empty slot, since an entry is a full one; so equal
stores are equal lists. -/
abbrev Memory.wf (m : Memory) : Prop :=
  m.store.Pairwise (fun a b => a.1 < b.1) ∧
    ∀ e ∈ m.store, e.1 < Config.numSids * Config.numSlots

/-! ## Configuration and decoder registers -/

/-- The continuation a reassembled buffer is handed to (`10_state.md` R33). -/
inductive ReasmTarget where
  | ethNofcs
  | macMgmt
  | rawData
  deriving DecidableEq, Repr

/-- The configuration registers (`10_state.md` R30 to R33). -/
structure Cfg where
  validateHcs : Bool
  dissectEncrypted : Bool
  abortViewOnElementError : Bool
  reasmTarget : ReasmTarget
  deriving DecidableEq, Repr

/-- The reset values of the configuration registers (`10_state.md` R49). -/
def Cfg.reset : Cfg where
  validateHcs := true
  dissectEncrypted := false
  abortViewOnElementError := true
  reasmTarget := .ethNofcs

/-- The registers of one decoder activation (`10_state.md` R26, R27). `viewEnd` is the spec's `end`. -/
structure View where
  b : Nat
  ehdrlen : Byte
  viewEnd : Nat
  pos : Nat
  h : Byte
  type : BitVec 4
  len : BitVec 4
  deriving DecidableEq, Repr

/-- Named values of the decoder registers while no activation exists. DESIGN CHOICE (log 11), unsafe. -/
def View.dead : View where
  b := 0
  ehdrlen := 0
  viewEnd := 0
  pos := 0
  h := 0
  type := 0
  len := 0

/-! ## Control -/

/-- Which statement of the frame procedure comes next (`40_frame_classes.md` R130). DESIGN CHOICE
(log 1), safe: the spec runs `FRAME_IN` as one operation, the model as a run of steps that begins and
ends in `idle`. -/
inductive Phase where
  /-- No operation is in progress. -/
  | idle
  /-- A frame is loaded; its FC byte comes next (R131). -/
  | fetch
  /-- An extended header is being walked; the loop test of `41_ehdr_elements.md` R181 comes next. -/
  | walk
  /-- The walk is over; the rest of the class, from `HcsCheck` on, comes next (R139). -/
  | tail
  deriving DecidableEq, Repr

/-- The five host operations (`44_host_operations.md` R290). -/
inductive HostOp where
  | reset
  | sessionReset
  | cfgWrite (index value : Nat)
  | cfgRead (index : Nat)
  | frameIn (frame : List Byte)
  deriving DecidableEq, Repr

/-! ## The state -/

/-- The whole state of the block. -/
structure State where
  /-- The frame buffer and the reassembly store (`10_state.md` R25, R38). -/
  mem : Memory
  /-- Configuration registers (R30 to R33). -/
  cfg : Cfg
  /-- `frame[0]` (R21). -/
  fc : Byte
  /-- `fc[7:6]` (R21). -/
  fctype : BitVec 2
  /-- `fc[5:1]` (R21). -/
  fcparm : BitVec 5
  /-- `fc[0]` (R21). -/
  ehdron : Bool
  /-- The MAC-parameter (R22). -/
  macParm : Word16
  /-- The Length/SID field (R22). -/
  lenSid : Word16
  /-- The header length in bytes (R23). -/
  hdrlen : Nat
  /-- Captured bytes after the header (R24). -/
  payloadLength : Nat
  /-- Declared PDU length, signed (R24). -/
  pdulen : Int
  /-- `fragmented` on entry to a Fragmentation-Header frame (R29). -/
  savedFragmented : Bool
  /-- The running decoder activation (R26, R27). -/
  view : View
  /-- The activations that wait for it, innermost first (R26). -/
  callers : List View
  /-- Flag `is_encrypted` (R28). -/
  isEncrypted : Bool
  /-- Flag `fragmented` (R28). -/
  fragmented : Bool
  /-- Flag `proceed` (R28). -/
  proceed : Bool
  /-- Flag `frag_valid` (R28). -/
  fragValid : Bool
  /-- Scratch `frag_flags`: bit 1 first, bit 0 last (R34). -/
  fragFlags : BitVec 2
  /-- Scratch `frag_seq` (R35). -/
  fragSeq : Seq4
  /-- Scratch `frag_sid` (R36). -/
  fragSid : Sid
  /-- The record stream of the frame (R40). -/
  out : List Record
  /-- The result of the frame (R37); `none` where no `FRAME_IN` has begun since reset (R49). -/
  status : Option Status
  /-- What the last `CFG_READ` returned (`44_host_operations.md` R291). DESIGN CHOICE (log 12), safe. -/
  cfgReadValue : Option Nat
  /-- The model's own: what comes next (log 1). -/
  phase : Phase
  /-- The model's own: host operations issued and not yet begun, first first (log 2). -/
  pending : List HostOp
  deriving DecidableEq, Repr

/-- `caplen`, the captured length of the frame (`10_state.md` R25). -/
abbrev State.caplen (s : State) : Nat := s.mem.frame.length

/-- The state after `RESET` (`10_state.md` R49, `70_reset_and_hazards.md` R350). The registers that
R49 calls dead hold the values log 11 names. DESIGN CHOICE, unsafe. -/
def State.reset : State where
  mem := { frame := [], store := [] }
  cfg := Cfg.reset
  fc := 0
  fctype := 0
  fcparm := 0
  ehdron := false
  macParm := 0
  lenSid := 0
  hdrlen := 0
  payloadLength := 0
  pdulen := 0
  savedFragmented := false
  view := View.dead
  callers := []
  isEncrypted := false
  fragmented := false
  proceed := false
  fragValid := false
  fragFlags := 0
  fragSeq := 0
  fragSid := 0
  out := []
  status := none
  cfgReadValue := none
  phase := .idle
  pending := []

/-! ## Reasons to stop -/

/-- The faults that stop the machine: there are none. `FAULT_BOUNDS`, the block's one fault, ends the
frame and leaves the block ready for the next operation (`60_exceptions.md` R318, R352), so it is a
next state (`State.takeFault`). DEDUCED (log 20), safe. -/
inductive Fault where
  deriving DecidableEq, Repr

/-- The refusals of the model. -/
inductive Refusal where
  /-- Raised by an arm of `exec` whose instruction has no meaning yet, by its mnemonic. Safe: the model
  stops where the block goes on. No arm raises it. -/
  | notModelled (mnemonic : String)
  deriving DecidableEq, Repr

end Sys2Proof.Machine
end

