-- ==== Sys2Proof/Machine/Ops.lean ====
section
/-! DEFINITION. The named operations over memory, records and decoder activations, and the one
frame-ending condition, `FAULT_BOUNDS`. An action (`Act`) runs on the state and either goes on or is
cut short by the offset of a `FAULT_BOUNDS`; the state at that point is kept, since nothing is rolled
back (`60_exceptions.md` R318). -/

namespace Sys2Proof.Machine

/-- A piece of the frame procedure: it answers a value and the state, or the offset of the
`FAULT_BOUNDS` that cut it short and the state at that moment. -/
abbrev Act (α : Type) : Type := EStateM Nat State α

/-! ## Records (`10_state.md` R40 to R44) -/

/-- `out` with a record appended (`00_scope.md` R9 `emit`). -/
def State.addRecord (s : State) (r : Record) : State := { s with out := s.out ++ [r] }

/-- `emit R`. -/
def emit (r : Record) : Act Unit := modify (·.addRecord r)

/-- `emit FIELD(id, off, n, value)` for an integer value. -/
def emitField (id : FieldId) (off n v : Nat) : Act Unit :=
  emit (.field id off n (.num v) none)

/-- `emit FIELD(id, off, n, value)` for a byte string, whose length is `n` (`10_state.md` R41). -/
def emitBytes (id : FieldId) (off : Nat) (data : List Byte) : Act Unit :=
  emit (.field id off data.length (.bytes data) none)

/-- `emit FIELD(id, off, n, value, status)` for a check field. -/
def emitCheck (id : FieldId) (off n v : Nat) (status : CheckStatus) : Act Unit :=
  emit (.field id off n (.num v) (some status))

/-- `raise EV_X(off)` for a non-fatal event: the report is appended and execution goes on
(`60_exceptions.md` R311). -/
def raiseEvent (code : EventCode) (off : Nat) : Act Unit :=
  emit (.event code off)

/-! ## Reads of the frame buffer (`20_memory.md` R61, R62) -/

/-- The unsigned integer of a byte string, most significant byte first (R61, R63). -/
def beNat (l : List Byte) : Nat := l.foldl (fun v x => v * 256 + x.toNat) 0

/-- `frame[off .. off + n)` of a byte string. -/
def slice (buf : List Byte) (off n : Nat) : List Byte := (buf.drop off).take n

/-- `MemBytes(o, n)`: the bytes, or `FAULT_BOUNDS(o)` unless all of them are captured (R62). -/
def memBytes (o n : Nat) : Act (List Byte) := do
  let s ← get
  if o + n ≤ s.caplen then pure (slice s.mem.frame o n) else throw o

/-- `MemRead(o, n)`: the big-endian integer of `n` bytes, or `FAULT_BOUNDS(o)` unless all of them are
captured (R61). -/
def memRead (o n : Nat) : Act Nat := do
  let l ← memBytes o n
  pure (beNat l)

/-- One byte of the frame buffer, or none where the offset does not exist (R62, R68). -/
def State.frameByte (s : State) (o : Nat) : Option Byte := s.mem.frame[o]?

/-! ## The reassembly store (`20_memory.md` R66, R67) -/

/-- The address of a slot (R60). -/
def slotAddr (sid : Sid) (seq : Seq4) : Nat := sid.toNat * Config.numSlots + seq.toNat

/-- The fragment at an address, or none where the slot is `empty`. -/
def Store.at (st : Store) (a : Nat) : Option Fragment :=
  (st.find? (fun e => e.1 == a)).map Prod.snd

/-- `store[sid].slot[seq]`: a fragment, or none for `empty` (`10_state.md` R38). -/
def Store.slot (st : Store) (sid : Sid) (seq : Seq4) : Option Fragment :=
  Store.at st (slotAddr sid seq)

/-- The store with the slot at an address full, in canonical form. -/
def Store.insert (st : Store) (a : Nat) (f : Fragment) : Store :=
  match st with
  | [] => [(a, f)]
  | e :: rest =>
    if a < e.1 then (a, f) :: e :: rest
    else if a = e.1 then (a, f) :: rest
    else e :: Store.insert rest a f

/-- `MemWrite(sid, seq, data, first)` (R66). -/
def Store.write (st : Store) (sid : Sid) (seq : Seq4) (data : List Byte) (first : Bool) : Store :=
  Store.insert st (slotAddr sid seq) { data := data, first := first }

/-- `Release(sid)`: every slot of the group becomes `empty` (R67). -/
def Store.release (st : Store) (sid : Sid) : Store :=
  st.filter (fun e => e.1 / Config.numSlots != sid.toNat)

/-- `ClearAll`: every slot of every group becomes `empty` (R67). -/
def Store.clearAll (_ : Store) : Store := []

/-- The state with another reassembly store. -/
def State.setStore (s : State) (st : Store) : State := { s with mem := { s.mem with store := st } }

/-! ## Decoder activations (`10_state.md` R26, R27) -/

/-- The state with other registers of the running activation. -/
def State.setView (s : State) (v : View) : State := { s with view := v }

/-- The registers of an activation that begins on the view with base `b` (`41_ehdr_elements.md` R180):
`ehdrlen` as read, `end` four more, `pos` at `EH_BASE`. The rules give `h`, `type` and `len` no value
before the first head byte is read; here they are 0. DESIGN CHOICE (log 30), unsafe. -/
def View.entered (b : Nat) (ehdrlen : Byte) : View :=
  { View.dead with b := b, ehdrlen := ehdrlen, viewEnd := ehdrlen.toNat + 4, pos := 4 }

/-- The state in which the activation on base `b` begins; `callers` are the activations that wait. -/
def State.startView (s : State) (b : Nat) (ehdrlen : Byte) (callers : List View) : State :=
  { s with view := View.entered b ehdrlen, callers := callers, phase := .walk }

/-- Entry of `EhDecode(b)` (R180): reads the byte count, or `FAULT_BOUNDS(b + 1)`. -/
def enterView (b : Nat) (callers : List View) : Act Unit := do
  let n ← memRead (b + 1) 1
  modify (·.startView b (BitVec.ofNat 8 n) callers)

/-- The absolute offset of the head byte at the cursor, `b + pos` (R184). -/
def View.headOff (v : View) : Nat := v.b + v.pos

/-- `pos <- pos + len + 1` (R183). -/
def View.advanced (v : View) : View := { v with pos := v.pos + v.len.toNat + 1 }

/-- The return of an activation: the caller resumes at its own cursor and steps over its type-15
element (R197, `10_state.md` R27); the top activation's return ends the walk. This is the block's only
return (`60_exceptions.md` R325), and it restores nothing but the caller's own registers. -/
def State.leaveView (s : State) : State :=
  match s.callers with
  | [] => { s with phase := .tail }
  | c :: rest => { s with view := c.advanced, callers := rest }

/-! ## The end of a frame -/

/-- The end of the frame procedure (`40_frame_classes.md` R130): `fragmented <- 0`, and the block is
ready for the next operation. -/
def State.endFrame (s : State) : State := { s with fragmented := false, phase := .idle }

/-- Taking `FAULT_BOUNDS(off)` (`60_exceptions.md` R318): the report is emitted, `status` becomes
FAULT, every active procedure is abandoned, `fragmented` is cleared; all else stands. -/
def State.takeFault (s : State) (off : Nat) : State :=
  { (s.addRecord (.event .faultBounds off)).endFrame with status := some .fault, callers := [] }

/-- The state an action leaves: its own, or the one in which its `FAULT_BOUNDS` is taken. -/
def settle (r : EStateM.Result Nat State Unit) : State :=
  match r with
  | .ok _ s => s
  | .error off s => s.takeFault off

/-- Runs an action as one step of the machine. -/
def runAct (m : Act Unit) (s : State) : Host.Outcome State Fault Refusal :=
  .next (settle (m.run s))

end Sys2Proof.Machine
end

