-- ==== Sys2Proof/Machine/Operands.lean ====
section
/-! DEFINITION. The operand forms: bit fields of a value (`00_scope.md` R7), and the shared groups of
fields the element layouts are made of (`30_encoding.md` R104 to R111). The bit positions inside a
byte or word that several fields share are general knowledge (G3 to G9). PRESUMED (log 9), unsafe. -/

namespace Sys2Proof.Machine

/-- `v[hi:lo]`, the unsigned integer formed by bits `hi` down to `lo` (R7). -/
def bits (v hi lo : Nat) : Nat := v / 2 ^ lo % 2 ^ (hi + 1 - lo)

/-- `v[i]` as a flag. -/
def bitFlag (v i : Nat) : Bool := bits v i i == 1

/-- A flag as the 1-bit integer a FIELD record holds. -/
def flagVal (f : Bool) : Nat := if f then 1 else 0

/-- Reads `n` bytes at `o` and emits the whole value as one field. -/
def readField (id : FieldId) (o n : Nat) : Act Unit := do
  let v ← memRead o n
  emitField id o n v

/-- The key-sequence/version byte at `p + 1` (`30_encoding.md` R106, R107, R109). -/
def keyseqVersion (p : Nat) : Act Unit := do
  let v ← memRead (p + 1) 1
  emitField .ehKeyseq (p + 1) 1 (bits v 7 4)
  emitField .ehVer (p + 1) 1 (bits v 3 0)

/-- The 14-bit identifier of a privacy word, `w[13:0]` (R106, R107, R109). -/
def privacyId (w : Nat) : Nat := bits w 13 0

/-- The enable bit of a privacy word, `w[15]`. -/
def privacyEnable (w : Nat) : Bool := bitFlag w 15

/-- The first byte of a Service-Flow-PHS element and, for `len = 2`, its second (R108). -/
def serviceFlow (p : Nat) (len : BitVec 4) : Act Unit := do
  readField .ehPhsi (p + 1) 1
  if len = 2 then
    let v ← memRead (p + 2) 1
    emitField .ehQind (p + 2) 1 (bits v 7 7)
    emitField .ehGrants (p + 2) 1 (bits v 6 0)
  else pure ()

/-- The 20-bit DSID in the three bytes at `p + 1` (R110). -/
def dsid (p : Nat) : Act Unit := do
  let d ← memRead (p + 1) 3
  emitField .ehDsid (p + 1) 3 (bits d 19 0)

/-- The opaque value of a default element (R113). -/
def opaqueValue (p : Nat) (len : BitVec 4) : Act Unit :=
  if len = 0 then pure ()
  else do
    let data ← memBytes (p + 1) len.toNat
    emitBytes .ehVal (p + 1) data

end Sys2Proof.Machine
end

