-- ==== Sys2Proof/Machine/Flags.lean ====
section
/-! DEFINITION. The four flags and the scratch registers (`10_state.md` R28 to R36): every write of
one of them, each in one place. -/

namespace Sys2Proof.Machine

/-- The flags cleared at the start of every `FRAME_IN` (`40_frame_classes.md` R130, D30). -/
def State.clearFlags (s : State) : State :=
  { s with fragValid := false, isEncrypted := false, fragmented := false }

/-- `is_encrypted <- f`: assigned, not OR-ed (`41_ehdr_elements.md` R190, R191, R194, R200). -/
def State.setEncrypted (s : State) (f : Bool) : State := { s with isEncrypted := f }

/-- `proceed <- f` (`42_checksums.md` R231). -/
def State.setProceed (s : State) (f : Bool) : State := { s with proceed := f }

/-- `saved_fragmented <- fragmented; fragmented <- 1` (`43_reassembly.md` R262). -/
def State.enterFragment (s : State) : State :=
  { s with savedFragmented := s.fragmented, fragmented := true }

/-- `fragmented <- 0` of the COMPLETE transition (`43_reassembly.md` R268). -/
def State.clearFragmented (s : State) : State := { s with fragmented := false }

/-- `fragmented <- saved_fragmented` (`43_reassembly.md` R270). -/
def State.restoreFragmented (s : State) : State := { s with fragmented := s.savedFragmented }

/-- The scratch registers loaded from a privacy word and a fragment byte, and `frag_valid` set
(`41_ehdr_elements.md` R190): `frag_flags <- f[5:4]`, `frag_seq <- f[3:0]`, `frag_sid <- w[13:0]`. -/
def State.loadFragInfo (s : State) (w f : Nat) : State :=
  { s with
    fragFlags := BitVec.ofNat 2 (bits f 5 4)
    fragSeq := BitVec.ofNat 4 (bits f 3 0)
    fragSid := BitVec.ofNat 14 (privacyId w)
    fragValid := true }

/-- The privacy word at `p + 2` of element types 3, 4 and 7: enable bit, toggle bit and a 14-bit
identifier. `is_encrypted` takes the enable bit between the emission of the two flags, as R190, R191 and
R194 order it. It answers the word. -/
def privacyWord (id : FieldId) (p : Nat) : Act Nat := do
  let w ← memRead (p + 2) 2
  emitField .ehBpiEn (p + 2) 2 (bits w 15 15)
  modify (·.setEncrypted (privacyEnable w))
  emitField .ehToggle (p + 2) 2 (bits w 14 14)
  emitField id (p + 2) 2 (privacyId w)
  pure w

/-- The fragment byte at `p + 5` of element type 3, decoded in fragment context only (R190). -/
def fragmentByte (p w : Nat) : Act Unit := do
  let f ← memRead (p + 5) 1
  emitField .ehFragRsvd (p + 5) 1 (bits f 7 6)
  emitField .ehFragFirst (p + 5) 1 (bits f 5 5)
  emitField .ehFragLast (p + 5) 1 (bits f 4 4)
  emitField .ehFragSeq (p + 5) 1 (bits f 3 0)
  modify (·.loadFragInfo w f)

end Sys2Proof.Machine
end

