-- ==== Sys2Proof/Machine/Element.lean ====
section
/-! DEFINITION. The extended-header elements (`spec/41_ehdr_elements.md`): the shared loop body of R181
around an element's own part, and one meaning for each element type. An element runs in the activation
whose registers are `State.view`; its head byte stands at `b + pos`. -/

namespace Sys2Proof.Machine

/-- How an element's own part ends. -/
inductive ArmEnd where
  /-- The walk goes on after the element (R183). -/
  | advance
  /-- The element has a wrong length (R187). -/
  | mismatch
  /-- A nested activation has begun; the walk goes on when it returns (R197). -/
  | nested
  deriving DecidableEq, Repr

/-- The head registers of an element (`10_state.md` R26). -/
def View.setHead (v : View) (type len : BitVec 4) : View :=
  { v with h := headByte type len, type := type, len := len }

/-- `pos <- pos + len + 1` in the running activation (R183). -/
def State.advanceView (s : State) : State := s.setView s.view.advanced

/-- The element overruns its view: `pos + 1 + len > end` (R185). -/
def View.pastEnd (v : View) (len : BitVec 4) : Bool := v.viewEnd < v.pos + 1 + len.toNat

/-- What the loop does after an element's own part (R181, R183, R187): a mismatch is reported and, under
the abort policy, ends the activation; else the element is stepped over. -/
def afterArm (p : Nat) (r : ArmEnd) : Act Unit := do
  let s ← get
  match r with
  | .advance => modify State.advanceView
  | .nested => pure ()
  | .mismatch =>
    raiseEvent .ehLenMismatch p
    if s.cfg.abortViewOnElementError then modify State.leaveView
    else modify State.advanceView

/-- The loop body (R181) around the own part `arm` of an element: past-end check before any field (R185),
head fields (R182), the own part, and what follows it. -/
def element (type len : BitVec 4) (arm : Nat → Act ArmEnd) : Act Unit := do
  modify (fun s => s.setView (s.view.setHead type len))
  let s ← get
  let p := s.view.headOff
  if s.view.pastEnd len then
    raiseEvent .ehPastEnd p
    modify State.leaveView
  else do
    emitField .ehType p 1 type.toNat
    emitField .ehLen p 1 len.toNat
    let r ← arm p
    afterArm p r

/-! ## The own parts, for the head byte at `p` -/

/-- Type 1, Request (R188). -/
def armRequest (len : BitVec 4) (p : Nat) : Act ArmEnd :=
  if len = 3 then do
    readField .ehRqMinislots (p + 1) 1
    readField .ehSid (p + 2) 2
    pure .advance
  else pure .mismatch

/-- Type 2, Ack-Requested (R189). -/
def armAckReq (len : BitVec 4) (p : Nat) : Act ArmEnd :=
  if len = 2 then do
    readField .ehSid (p + 1) 2
    pure .advance
  else pure .mismatch

/-- Type 3, Upstream-Privacy (R190): in fragment context also the fragment byte and the scratch
registers. Its length is not checked (R184). -/
def armUpPrivacy (p : Nat) : Act ArmEnd := do
  keyseqVersion p
  let w ← privacyWord .ehSid14 p
  readField .ehMinislots (p + 4) 1
  let s ← get
  if s.fragmented then fragmentByte p w else pure ()
  pure .advance

/-- Type 4, Downstream-Privacy (R191). -/
def armDownPrivacy (p : Nat) : Act ArmEnd := do
  keyseqVersion p
  let _ ← privacyWord .ehSaid p
  readField .ehRsvd8 (p + 4) 1
  pure .advance

/-- Type 5, Service-Flow-PHS (R192). -/
def armSfPhs5 (len : BitVec 4) (p : Nat) : Act ArmEnd := do
  serviceFlow p len
  pure .advance

/-- Type 6, Service-Flow-PHS (R193), with the relabel note of `len = 2` before its fields (R186). -/
def armSfPhs6 (len : BitVec 4) (p : Nat) : Act ArmEnd := do
  if len = 2 then emit (.note .ehUgsLabel p) else pure ()
  serviceFlow p len
  pure .advance

/-- Type 7, Upstream-Privacy-v2 (R194): no scratch register even in fragment context. -/
def armUpPrivacy2 (p : Nat) : Act ArmEnd := do
  keyseqVersion p
  let _ ← privacyWord .ehSid14 p
  pure .advance

/-- Type 8, Downstream-Service (R195, D16). -/
def armDownService (len : BitVec 4) (p : Nat) : Act ArmEnd := do
  let v ← memRead (p + 1) 1
  emitField .ehTrafpri (p + 1) 1 (bits v 7 5)
  if len = 3 then dsid p
  else if len = 5 then
    emitField .ehSeqchg (p + 1) 1 (bits v 4 4)
    dsid p
    readField .ehDspsn (p + 4) 2
  else pure ()
  pure .advance

/-- Type 9, Path-Verify (R196): nothing of its own unless `len = 5`. -/
def armPathVerify (len : BitVec 4) (p : Nat) : Act ArmEnd := do
  if len = 5 then
    readField .ehPvStartref (p + 1) 1
    readField .ehPvTs (p + 2) 4
  else pure ()
  pure .advance

/-- Types 0 and 10 to 14 (R198). -/
def armDefault (len : BitVec 4) (p : Nat) : Act ArmEnd := do
  opaqueValue p len
  pure .advance

/-- Type 15, Extended (R197): `EhDecode(p)`. The caller's registers wait, its own cursor unchanged. -/
def armExtended (p : Nat) : Act ArmEnd := do
  let s ← get
  enterView p (s.view :: s.callers)
  pure .nested

/-! ## The meanings -/

/-- `EH_NULL` (R198). -/
def execEhNull (len : BitVec 4) (s : State) : Host.Outcome State Fault Refusal :=
  runAct (element 0 len (armDefault len)) s

/-- `EH_REQUEST` (R188). -/
def execEhRequest (len : BitVec 4) (s : State) : Host.Outcome State Fault Refusal :=
  runAct (element 1 len (armRequest len)) s

/-- `EH_ACK_REQ` (R189). -/
def execEhAckReq (len : BitVec 4) (s : State) : Host.Outcome State Fault Refusal :=
  runAct (element 2 len (armAckReq len)) s

/-- `EH_UP_PRIVACY` (R190). -/
def execEhUpPrivacy (len : BitVec 4) (s : State) : Host.Outcome State Fault Refusal :=
  runAct (element 3 len armUpPrivacy) s

/-- `EH_DOWN_PRIVACY` (R191). -/
def execEhDownPrivacy (len : BitVec 4) (s : State) : Host.Outcome State Fault Refusal :=
  runAct (element 4 len armDownPrivacy) s

/-- `EH_SF_PHS_5` (R192). -/
def execEhSfPhs5 (len : BitVec 4) (s : State) : Host.Outcome State Fault Refusal :=
  runAct (element 5 len (armSfPhs5 len)) s

/-- `EH_SF_PHS_6` (R193, R186). -/
def execEhSfPhs6 (len : BitVec 4) (s : State) : Host.Outcome State Fault Refusal :=
  runAct (element 6 len (armSfPhs6 len)) s

/-- `EH_UP_PRIVACY2` (R194). -/
def execEhUpPrivacy2 (len : BitVec 4) (s : State) : Host.Outcome State Fault Refusal :=
  runAct (element 7 len armUpPrivacy2) s

/-- `EH_DOWN_SERVICE` (R195). -/
def execEhDownService (len : BitVec 4) (s : State) : Host.Outcome State Fault Refusal :=
  runAct (element 8 len (armDownService len)) s

/-- `EH_PATH_VERIFY` (R196). -/
def execEhPathVerify (len : BitVec 4) (s : State) : Host.Outcome State Fault Refusal :=
  runAct (element 9 len (armPathVerify len)) s

/-- `EH_RSVD_10` (R198). -/
def execEhRsvd10 (len : BitVec 4) (s : State) : Host.Outcome State Fault Refusal :=
  runAct (element 10 len (armDefault len)) s

/-- `EH_RSVD_11` (R198). -/
def execEhRsvd11 (len : BitVec 4) (s : State) : Host.Outcome State Fault Refusal :=
  runAct (element 11 len (armDefault len)) s

/-- `EH_RSVD_12` (R198). -/
def execEhRsvd12 (len : BitVec 4) (s : State) : Host.Outcome State Fault Refusal :=
  runAct (element 12 len (armDefault len)) s

/-- `EH_RSVD_13` (R198). -/
def execEhRsvd13 (len : BitVec 4) (s : State) : Host.Outcome State Fault Refusal :=
  runAct (element 13 len (armDefault len)) s

/-- `EH_RSVD_14` (R198). -/
def execEhRsvd14 (len : BitVec 4) (s : State) : Host.Outcome State Fault Refusal :=
  runAct (element 14 len (armDefault len)) s

/-- `EH_EXTENDED` (R197). -/
def execEhExtended (len : BitVec 4) (s : State) : Host.Outcome State Fault Refusal :=
  runAct (element 15 len armExtended) s

end Sys2Proof.Machine
end

