-- ==== Sys2Proof/Machine/Checksum.lean ====
section
/-! DEFINITION. The checksum validator (`spec/42_checksums.md`): the default CRC functions (R233,
R236), the header check (R231) and the comparison of the fragment check (R234). The checks take the
CRC functions as an argument (R230); `defaultParams` are the spec's defaults. -/

namespace Sys2Proof.Machine

/-! ## The default functions

General knowledge but for the polynomials (G11, G12). PRESUMED (log 7), unsafe. -/

/-- `f` applied `n` times. -/
def iterate {α : Type} (f : α → α) : Nat → α → α
  | 0, a => a
  | n + 1, a => iterate f n (f a)

/-- One bit of a reflected CRC (R233, R236). -/
def crcBit {w : Nat} (poly c : BitVec w) : BitVec w :=
  if c.getLsbD 0 then (c >>> 1) ^^^ poly else c >>> 1

/-- One byte of a reflected CRC. -/
def crcByte {w : Nat} (poly c : BitVec w) (x : Byte) : BitVec w :=
  iterate (crcBit poly) 8 (c ^^^ x.setWidth w)

/-- A reflected CRC with all-ones initial value and all-ones final XOR. -/
def crcReflected {w : Nat} (poly : BitVec w) (s : List Byte) : BitVec w :=
  s.foldl (crcByte poly) (BitVec.allOnes w) ^^^ BitVec.allOnes w

/-- `X25` (R233). -/
def x25 (s : List Byte) : Word16 := crcReflected 0x8408 s

/-- `CRC32` (R236). -/
def crc32 (s : List Byte) : Word32 := crcReflected 0xEDB88320 s

/-- `swap16` (`00_scope.md` R9). -/
def swap16 (v : Word16) : Word16 := v.extractLsb' 0 8 ++ v.extractLsb' 8 8

/-- `swap32` (R9). -/
def swap32 (v : Word32) : Word32 :=
  v.extractLsb' 0 8 ++ v.extractLsb' 8 8 ++ v.extractLsb' 16 8 ++ v.extractLsb' 24 8

/-- The default `crc16_field` (R233). -/
def crc16Field (s : List Byte) : Word16 := swap16 (x25 s)

/-- The default `crc32_field` (R236). -/
def crc32Field (s : List Byte) : Word32 := swap32 (crc32 s)

/-- The parameters `exec` runs with: the spec's defaults (R230, D26). -/
def defaultParams : Config.Params where
  crc16Field := crc16Field
  crc32Field := crc32Field

/-! ## The checks -/

/-- The verdict of the header check on a value read (R231): unverified where validation is off, else
good or bad by the comparison. -/
def hcsStatus (P : Config.Params) (validate : Bool) (covered : List Byte) (val : Nat) : CheckStatus :=
  if validate then
    if (P.crc16Field covered).toNat = val then .good else .bad
  else .unverified

/-- `HcsCheck()` (R231): emits the HCS in every case; a bad one raises `EV_BAD_HCS` and clears
`proceed`. -/
def hcsCheck (P : Config.Params) : Act Unit := do
  let s ← get
  let off := s.hdrlen - 2
  let val ← memRead off 2
  let covered ← memBytes 0 off
  let status := hcsStatus P s.cfg.validateHcs covered val
  emitCheck .hcs off 2 val status
  if status = .bad then
    raiseEvent .badHcs off
    modify (·.setProceed false)
  else
    modify (·.setProceed true)

/-- `FragFcs(fcs_off)` (R234): the value of the trailing check field and whether it is the CRC-32 of
`[0, caplen - 4)`. No toggle affects it. -/
def fragFcs (P : Config.Params) (fcsOff : Nat) : Act (Nat × Bool) := do
  let val ← memRead fcsOff 4
  let s ← get
  let covered ← memBytes 0 (s.caplen - 4)
  pure (val, (P.crc32Field covered).toNat == val)

end Sys2Proof.Machine
end

