-- ==== Sys2Proof/Machine/Reassembly.lean ====
section
/-! DEFINITION. The fragment reassembly engine (`spec/43_reassembly.md` R250 to R261): the store's state
machine as a function on the store. -/

namespace Sys2Proof.Machine

/-- The result of `add_fragment` (R254). -/
inductive AddResult where
  | buffered
  | duplicate
  | complete (buf : List Byte) (n : Nat) (contiguous : Bool)
  deriving DecidableEq, Repr

/-- `FRAG_LAST`, first bit 0 and last bit 1: an equality test, so `0b11` is not LAST (R253, D19). -/
def isLast (flags : BitVec 2) : Bool := flags == 0b01

/-- The cyclic order of the sixteen sequence numbers that ends with `seq` (R256). -/
def cyclicOrder (seq : Seq4) : List Seq4 :=
  (List.range Config.numSlots).map (fun k => seq + 1 + BitVec.ofNat 4 k)

/-- The full slots of a group in cyclic order, with their sequence numbers (R256 `present`). -/
def presentSlots (st : Store) (sid : Sid) (seq : Seq4) : List (Seq4 × Fragment) :=
  (cyclicOrder seq).filterMap (fun q => (Store.slot st sid q).map (fun f => (q, f)))

/-- The last `n` entries of the cyclic order (R258 `run`). -/
def runOf (seq : Seq4) (n : Nat) : List Seq4 := (cyclicOrder seq).drop (Config.numSlots - n)

/-- The first flags a contiguous message carries: set on its first fragment and on no other (R258). -/
def firstFlagsOk (present : List (Seq4 × Fragment)) : Bool :=
  match present with
  | [] => false
  | e :: rest => e.2.first && rest.all (fun x => !x.2.first)

/-- The `contiguous` bit (R258). -/
def contiguousBit (present : List (Seq4 × Fragment)) (seq : Seq4) : Bool :=
  present.map Prod.fst == runOf seq present.length && firstFlagsOk present

/-- The concatenation of the fragments' bytes in cyclic order (R258 `buf`). -/
def concatData (present : List (Seq4 × Fragment)) : List Byte := present.flatMap (·.2.data)

/-- `CompleteStep` (R256, R258): concatenate, grade, release. -/
def completeStep (st : Store) (sid : Sid) (seq : Seq4) : AddResult × Store :=
  let present := presentSlots st sid seq
  (.complete (concatData present) present.length (contiguousBit present seq), Store.release st sid)

/-- `StoreStep` (R255): the stored first flag is bit 1 of `flags`. -/
def storeStep (st : Store) (sid : Sid) (seq : Seq4) (flags : BitVec 2) (data : List Byte) : Store :=
  Store.write st sid seq data (flags.getLsbD 1)

/-- `add_fragment(sid, seq, flags, data)` (R254): the first copy of a fragment wins; a LAST one
completes the group. -/
def addFragment (st : Store) (sid : Sid) (seq : Seq4) (flags : BitVec 2) (data : List Byte) :
    AddResult × Store :=
  if (Store.slot st sid seq).isSome then (.duplicate, st)
  else
    let st' := storeStep st sid seq flags data
    if isLast flags then completeStep st' sid seq else (.buffered, st')

end Sys2Proof.Machine
end

