-- ==== Sys2Proof/Machine/Frame.lean ====
section
/-! DEFINITION. The frame classifier and dispatcher (`spec/40_frame_classes.md`) and the
Fragmentation-Header frame (`spec/43_reassembly.md` R262 to R271): the prologue every frame runs, the
shared header handling, the payload hand-off, and one meaning for each frame class.

A class whose frame has an extended header begins the walk and stops there; its part from `HcsCheck`
on (`tail…`) runs when the walk is over (`Machine/Fetch.lean`, log 1). With no extended header the
whole class runs at once. -/

namespace Sys2Proof.Machine

/-! ## The prologue (R131 to R137) -/

/-- The FC registers of a frame (R131, `10_state.md` R21). -/
def State.setFc (s : State) (fctype : BitVec 2) (fcparm : BitVec 5) (ehdron : Bool) : State :=
  { s with fc := fcByte fctype fcparm ehdron, fctype := fctype, fcparm := fcparm, ehdron := ehdron }

/-- FC split (R131): the three FC fields, before any other byte is read. The byte itself was read by the
fetch (`fetchFrame`). -/
def splitFc (fctype : BitVec 2) (fcparm : BitVec 5) (ehdron : Bool) : Act Unit := do
  modify (·.setFc fctype fcparm ehdron)
  emitField .fcType 0 1 fctype.toNat
  emitField .fcParm 0 1 fcparm.toNat
  emitField .fcEhdron 0 1 (flagVal ehdron)

/-- 1 for header format B, else 0: the test is on `fcparm` alone (`20_memory.md` R68 `q`, R132, D4). -/
def formatB (fcparm : BitVec 5) : Nat := if fcparm = Config.fcparmQdr then 1 else 0

/-- `hdrlen` (R132, R133, R153): the fixed part and, with the ext bit, the MAC-parameter. -/
def headerLength (fcparm : BitVec 5) (ehdron : Bool) (macParm : Word16) : Nat :=
  6 + formatB fcparm + (if ehdron then macParm.toNat else 0)

/-- `pdulen` before validation (R135): 0 where `fcparm` is Request or Queue-Depth-Request, whatever
`fctype` is; else the exact signed difference. -/
def declaredLength (fcparm : BitVec 5) (macParm lenSid : Word16) : Int :=
  if fcparm = Config.fcparmRqst ∨ fcparm = Config.fcparmQdr then 0
  else (lenSid.toNat : Int) - ((macParm.toNat : Int) + 2)

/-- `mac_parm <- v` (R132). -/
def State.setMacParm (s : State) (v : Word16) : State := { s with macParm := v }

/-- The header registers after `mac_parm` (R132 to R135): `len_sid` as read, and the three lengths. -/
def State.setLengths (s : State) (lenSid : Word16) : State :=
  { s with
    lenSid := lenSid
    hdrlen := headerLength s.fcparm s.ehdron s.macParm
    payloadLength := s.caplen - headerLength s.fcparm s.ehdron s.macParm
    pdulen := declaredLength s.fcparm s.macParm lenSid }

/-- All header registers (R132 to R135), from the two header fields as read. -/
def State.setHeader (s : State) (macParm lenSid : Word16) : State :=
  (s.setMacParm macParm).setLengths lenSid

/-- Fixed header, header length, captured and declared length (R132 to R135), in R132's order:
`mac_parm` is written before the Length/SID is read, and stands where that read faults
(`60_exceptions.md` R318). -/
def readHeader : Act Unit := do
  let s ← get
  let q := formatB s.fcparm
  let macParm ← memRead 1 (1 + q)
  modify (·.setMacParm (BitVec.ofNat 16 macParm))
  let lenSid ← memRead (2 + q) 2
  modify (·.setLengths (BitVec.ofNat 16 lenSid))

/-- `pdulen <- v`. -/
def State.setPdulen (s : State) (v : Int) : State := { s with pdulen := v }

/-- Validation of the declared length (R136, R137): a negative one is reported and clamped to 0, one
that exceeds what was captured is reported and kept. -/
def checkLength : Act Unit := do
  let s ← get
  if s.pdulen < 0 then
    raiseEvent .lenNegative 2
    modify (·.setPdulen 0)
  else if (s.payloadLength : Int) < s.pdulen then
    raiseEvent .lenPastEnd 2
  else pure ()

/-- The prologue of `ParseFrame` (R131 to R137), which every frame class runs. -/
def prologue (fctype : BitVec 2) (fcparm : BitVec 5) (ehdron : Bool) : Act Unit := do
  splitFc fctype fcparm ehdron
  readHeader
  checkLength

/-! ## Shared procedures (R139, R140) -/

/-- The header fields of `HdrCommon` (R139). -/
def headerFields : Act Unit := do
  let s ← get
  let q := formatB s.fcparm
  emitField (if s.ehdron then .ehdrLen else .macParm) 1 (1 + q) s.macParm.toNat
  emitField .len (2 + q) 2 s.lenSid.toNat

/-- The end of the frame procedure as an action (R130). -/
def endFrame : Act Unit := modify State.endFrame

/-- A class that begins with `HdrCommon` (R139): the header fields; with the ext bit the walk of the top
view begins (`EhDecode(0)`, `41_ehdr_elements.md` R180) and `tail` comes when it is over; without it
`tail` runs at once and the frame ends. -/
def withHeader (tail : Act Unit) : Act Unit := do
  headerFields
  let s ← get
  if s.ehdron then enterView 0 []
  else do
    tail
    endFrame

/-- A class with two fields of its own and the HCS (R146, R148, R150): no walk even with the ext bit
(R149). -/
def fixedHeader (P : Config.Params) (id1 id2 : FieldId) : Act Unit := do
  let s ← get
  let q := formatB s.fcparm
  emitField id1 1 (1 + q) s.macParm.toNat
  emitField id2 (2 + q) 2 s.lenSid.toNat
  hcsCheck P
  endFrame

/-- `Payload(cont, src, off, n, buf)` (R140): the hand-off with the encrypted check. The address
fields stand in the first twelve bytes (G13). PRESUMED (log 10), unsafe. -/
def payload (cont : Cont) (src : Src) (off n : Nat) (buf : List Byte) : Act Unit := do
  let s ← get
  if s.isEncrypted ∧ ¬ s.cfg.dissectEncrypted then
    emit (.handoff .encrypted src off n)
    if 12 ≤ n then
      emitBytes .encDa off (slice buf off 6)
      emitBytes .encSa (off + 6) (slice buf (off + 6) 6)
    else pure ()
  else emit (.handoff cont src off n)

/-- The hand-off of the captured bytes after the header (R141, R144). -/
def framePayload (cont : Cont) : Act Unit := do
  let s ← get
  payload cont .frame s.hdrlen s.payloadLength s.mem.frame

/-! ## The classes from `HcsCheck` on -/

/-- The header check, then the Ethernet hand-off where `pdulen > 0` (R141, R142). -/
def ethernetTail (P : Config.Params) : Act Unit := do
  hcsCheck P
  let s ← get
  if s.proceed ∧ 0 < s.pdulen then framePayload .ethNofcs else pure ()

/-- The header check, then the management hand-off, with no gate on `pdulen` (R144, R145). -/
def managementTail (P : Config.Params) : Act Unit := do
  hcsCheck P
  let s ← get
  if s.proceed then framePayload .macMgmt else pure ()

/-- Packet PDU after the walk (R141). -/
def tailPkt (P : Config.Params) : Act Unit := ethernetTail P

/-- Isolation PDU after the walk (R142). -/
def tailIso (P : Config.Params) : Act Unit := ethernetTail P

/-- Reserved PDU after the walk: opaque payload, no encrypted check (R143). -/
def tailRsvd (P : Config.Params) : Act Unit := do
  hcsCheck P
  let s ← get
  if s.proceed ∧ 0 < s.pdulen then emit (.handoff .rawData .frame s.hdrlen s.payloadLength)
  else pure ()

/-- Timing Header after the walk (R144). -/
def tailTiming (P : Config.Params) : Act Unit := managementTail P

/-- MAC-Management Header after the walk (R145). -/
def tailMgmt (P : Config.Params) : Act Unit := managementTail P

/-! ## The Fragmentation-Header frame (`43_reassembly.md`) -/

/-- The continuation `CFG.reasm_target` names (`10_state.md` R33). -/
def targetCont : ReasmTarget → Cont
  | .ethNofcs => .ethNofcs
  | .macMgmt => .macMgmt
  | .rawData => .rawData

/-- What follows `add_fragment` (`43_reassembly.md` R268, R269, R271). -/
def afterAdd (r : AddResult) : Act Unit := do
  let s ← get
  match r with
  | .complete buf n contiguous =>
    modify State.clearFragmented
    emit (.reasm s.fragSid n contiguous buf.length buf)
    payload (targetCont s.cfg.reasmTarget) .reasm 0 buf.length buf
  | .duplicate =>
    raiseEvent .fragDuplicate s.hdrlen
    emit (.note .fragN s.fragSeq.toNat)
  | .buffered => emit (.note .fragN s.fragSeq.toNat)

/-- Submission of the fragment (R266, R267): refused without fragment information, else
`add_fragment` with the captured payload less its last four bytes. -/
def submitFragment : Act Unit := do
  let s ← get
  if s.fragValid then
    let data ← memBytes s.hdrlen (s.payloadLength - 4)
    let res := addFragment s.mem.store s.fragSid s.fragSeq s.fragFlags data
    modify (·.setStore res.2)
    afterAdd res.1
  else raiseEvent .fragNoInfo s.hdrlen

/-- The offset of the fragment CRC, `hdrlen + pdulen - 4` (R265, `90_conflicts.md` C1). -/
def fcsOffset (hdrlen : Nat) (pdulen : Int) : Nat := hdrlen + pdulen.toNat - 4

/-- `FragBody()` (R264 to R271). -/
def fragBody (P : Config.Params) : Act Unit := do
  let s ← get
  if s.pdulen < 4 ∨ s.payloadLength < 4 then raiseEvent .fragTooShort s.hdrlen
  else do
    let off := fcsOffset s.hdrlen s.pdulen
    let check ← fragFcs P off
    if check.2 then
      emitCheck .fragFcs off 4 check.1 .good
      submitFragment
    else
      emitCheck .fragFcs off 4 check.1 .bad
      raiseEvent .badFragFcs off

/-- Fragmentation Header after the walk (R262, R263, R270). -/
def tailFrag (P : Config.Params) : Act Unit := do
  hcsCheck P
  let s ← get
  if s.proceed then fragBody P else pure ()
  modify State.restoreFragmented

/-! ## The frame classes, for any CRC functions (R230) -/

/-- `PKT` (R141). -/
def classPkt (P : Config.Params) (fcparm : BitVec 5) (ehdron : Bool) : Act Unit := do
  prologue Config.fctypePacket fcparm ehdron
  withHeader (tailPkt P)

/-- `RSVD` (R143). -/
def classRsvd (P : Config.Params) (fcparm : BitVec 5) (ehdron : Bool) : Act Unit := do
  prologue Config.fctypeReserved fcparm ehdron
  withHeader (tailRsvd P)

/-- `ISO` (R142). -/
def classIso (P : Config.Params) (fcparm : BitVec 5) (ehdron : Bool) : Act Unit := do
  prologue Config.fctypeIsolat fcparm ehdron
  withHeader (tailIso P)

/-- `TIMING` (R144). -/
def classTiming (P : Config.Params) (ehdron : Bool) : Act Unit := do
  prologue Config.fctypeMacspc Config.fcparmTiming ehdron
  withHeader (tailTiming P)

/-- `MGMT` (R145). -/
def classMgmt (P : Config.Params) (ehdron : Bool) : Act Unit := do
  prologue Config.fctypeMacspc Config.fcparmMgmt ehdron
  withHeader (tailMgmt P)

/-- `RQST` (R146, R149). -/
def classRqst (P : Config.Params) (ehdron : Bool) : Act Unit := do
  prologue Config.fctypeMacspc Config.fcparmRqst ehdron
  fixedHeader P .rqMinislots .rqSid

/-- `FRAG` (R147, `43_reassembly.md` R262): in fragment context from here to the end of the frame. -/
def classFrag (P : Config.Params) (ehdron : Bool) : Act Unit := do
  prologue Config.fctypeMacspc Config.fcparmFrag ehdron
  modify State.enterFragment
  withHeader (tailFrag P)

/-- `QDR` (R148, R149). -/
def classQdr (P : Config.Params) (ehdron : Bool) : Act Unit := do
  prologue Config.fctypeMacspc Config.fcparmQdr ehdron
  fixedHeader P .qdrReqsize .qdrSid

/-- `CONCAT` (R150, R149). -/
def classConcat (P : Config.Params) (ehdron : Bool) : Act Unit := do
  prologue Config.fctypeMacspc Config.fcparmConcat ehdron
  fixedHeader P .concatCnt .concatLen

/-- `UNKNOWN` (R151): nothing after the prologue; not an error. -/
def classUnknown (fcparm : BitVec 5) (ehdron : Bool) : Act Unit := do
  prologue Config.fctypeMacspc fcparm ehdron
  endFrame

/-! ## The meanings, with the default CRC functions -/

/-- `PKT` (R141). -/
def execPkt (fcparm : BitVec 5) (ehdron : Bool) (s : State) : Host.Outcome State Fault Refusal :=
  runAct (classPkt defaultParams fcparm ehdron) s

/-- `RSVD` (R143). -/
def execRsvd (fcparm : BitVec 5) (ehdron : Bool) (s : State) : Host.Outcome State Fault Refusal :=
  runAct (classRsvd defaultParams fcparm ehdron) s

/-- `ISO` (R142). -/
def execIso (fcparm : BitVec 5) (ehdron : Bool) (s : State) : Host.Outcome State Fault Refusal :=
  runAct (classIso defaultParams fcparm ehdron) s

/-- `TIMING` (R144). -/
def execTiming (ehdron : Bool) (s : State) : Host.Outcome State Fault Refusal :=
  runAct (classTiming defaultParams ehdron) s

/-- `MGMT` (R145). -/
def execMgmt (ehdron : Bool) (s : State) : Host.Outcome State Fault Refusal :=
  runAct (classMgmt defaultParams ehdron) s

/-- `RQST` (R146, R149). -/
def execRqst (ehdron : Bool) (s : State) : Host.Outcome State Fault Refusal :=
  runAct (classRqst defaultParams ehdron) s

/-- `FRAG` (R147, `43_reassembly.md` R262). -/
def execFrag (ehdron : Bool) (s : State) : Host.Outcome State Fault Refusal :=
  runAct (classFrag defaultParams ehdron) s

/-- `QDR` (R148, R149). -/
def execQdr (ehdron : Bool) (s : State) : Host.Outcome State Fault Refusal :=
  runAct (classQdr defaultParams ehdron) s

/-- `CONCAT` (R150, R149). -/
def execConcat (ehdron : Bool) (s : State) : Host.Outcome State Fault Refusal :=
  runAct (classConcat defaultParams ehdron) s

/-- `UNKNOWN` (R151). -/
def execUnknown (fcparm : BitVec 5) (ehdron : Bool) (s : State) : Host.Outcome State Fault Refusal :=
  runAct (classUnknown fcparm ehdron) s

end Sys2Proof.Machine
end

