-- ==== Sys2Proof/Machine/Dispatch.lean ====
section
/-! DEFINITION. One arm for each instruction, each one direct call of its meaning. -/

namespace Sys2Proof.Machine

def exec (i : Instr) (s : State) : Host.Outcome State Fault Refusal :=
  match i with
  | .pkt fcparm ehdron => Sys2Proof.Machine.execPkt fcparm ehdron s
  | .rsvd fcparm ehdron => Sys2Proof.Machine.execRsvd fcparm ehdron s
  | .iso fcparm ehdron => Sys2Proof.Machine.execIso fcparm ehdron s
  | .timing ehdron => Sys2Proof.Machine.execTiming ehdron s
  | .mgmt ehdron => Sys2Proof.Machine.execMgmt ehdron s
  | .rqst ehdron => Sys2Proof.Machine.execRqst ehdron s
  | .frag ehdron => Sys2Proof.Machine.execFrag ehdron s
  | .qdr ehdron => Sys2Proof.Machine.execQdr ehdron s
  | .concat ehdron => Sys2Proof.Machine.execConcat ehdron s
  | .unknown fcparm ehdron => Sys2Proof.Machine.execUnknown fcparm ehdron s
  | .ehNull len => Sys2Proof.Machine.execEhNull len s
  | .ehRequest len => Sys2Proof.Machine.execEhRequest len s
  | .ehAckReq len => Sys2Proof.Machine.execEhAckReq len s
  | .ehUpPrivacy len => Sys2Proof.Machine.execEhUpPrivacy len s
  | .ehDownPrivacy len => Sys2Proof.Machine.execEhDownPrivacy len s
  | .ehSfPhs5 len => Sys2Proof.Machine.execEhSfPhs5 len s
  | .ehSfPhs6 len => Sys2Proof.Machine.execEhSfPhs6 len s
  | .ehUpPrivacy2 len => Sys2Proof.Machine.execEhUpPrivacy2 len s
  | .ehDownService len => Sys2Proof.Machine.execEhDownService len s
  | .ehPathVerify len => Sys2Proof.Machine.execEhPathVerify len s
  | .ehRsvd10 len => Sys2Proof.Machine.execEhRsvd10 len s
  | .ehRsvd11 len => Sys2Proof.Machine.execEhRsvd11 len s
  | .ehRsvd12 len => Sys2Proof.Machine.execEhRsvd12 len s
  | .ehRsvd13 len => Sys2Proof.Machine.execEhRsvd13 len s
  | .ehRsvd14 len => Sys2Proof.Machine.execEhRsvd14 len s
  | .ehExtended len => Sys2Proof.Machine.execEhExtended len s

end Sys2Proof.Machine
end

