-- ==== Sys2Proof/Machine/HostOps.lean ====
section
/-! DEFINITION. The host operations (`spec/44_host_operations.md`): each runs to completion in one step,
but for `FRAME_IN`, whose first step loads the frame and clears the flags of R130. -/

namespace Sys2Proof.Machine

/-- A configuration bit that accepts the values 0 and 1 only (`10_state.md` R50). -/
def writeBit (old : Bool) (value : Nat) : Bool :=
  if value = 0 then false else if value = 1 then true else old

/-- `CFG.reasm_target`, which accepts 0, 1 and 2 only (R50). -/
def writeTarget (old : ReasmTarget) (value : Nat) : ReasmTarget :=
  if value = 0 then .ethNofcs else if value = 1 then .macMgmt else if value = 2 then .rawData else old

/-- The encoding of `CFG.reasm_target` (R50). -/
def targetCode : ReasmTarget → Nat
  | .ethNofcs => 0
  | .macMgmt => 1
  | .rawData => 2

/-- `CFG_WRITE(index, value)` on the registers: an index above 3 or an illegal value is ignored
(`44_host_operations.md` R291). -/
def Cfg.write (c : Cfg) (index value : Nat) : Cfg :=
  match index with
  | 0 => { c with validateHcs := writeBit c.validateHcs value }
  | 1 => { c with dissectEncrypted := writeBit c.dissectEncrypted value }
  | 2 => { c with abortViewOnElementError := writeBit c.abortViewOnElementError value }
  | 3 => { c with reasmTarget := writeTarget c.reasmTarget value }
  | _ => c

/-- `CFG_READ(index)`: the field, or 0 for an index above 3 (R291). -/
def Cfg.read (c : Cfg) (index : Nat) : Nat :=
  match index with
  | 0 => flagVal c.validateHcs
  | 1 => flagVal c.dissectEncrypted
  | 2 => flagVal c.abortViewOnElementError
  | 3 => targetCode c.reasmTarget
  | _ => 0

/-- `RESET` (R292, `70_reset_and_hazards.md` R350): the state after reset; the host's own queue stands.
The dead registers take their named values. DESIGN CHOICE (log 14), safe. -/
def State.hostReset (s : State) : State := { State.reset with pending := s.pending }

/-- `SESSION_RESET` (R293, R351): as `RESET`, the configuration kept. -/
def State.sessionReset (s : State) : State := { State.reset with cfg := s.cfg, pending := s.pending }

/-- `CFG_WRITE` (R291). -/
def State.cfgWrite (s : State) (index value : Nat) : State :=
  { s with cfg := s.cfg.write index value }

/-- `CFG_READ` (R291). -/
def State.cfgRead (s : State) (index : Nat) : State :=
  { s with cfgReadValue := some (s.cfg.read index) }

/-- The first statements of `FRAME_IN(frame)` (`40_frame_classes.md` R130): the frame is the buffer,
`out` is empty, `status` is DONE, the three flags are 0, and no activation exists. -/
def State.beginFrame (s : State) (frame : List Byte) : State :=
  { s.clearFlags with
    mem := { s.mem with frame := frame }
    out := []
    status := some .done
    callers := []
    phase := .fetch }

/-- One host operation, begun (R290). -/
def State.hostOp (s : State) (op : HostOp) : State :=
  match op with
  | .reset => s.hostReset
  | .sessionReset => s.sessionReset
  | .cfgWrite index value => s.cfgWrite index value
  | .cfgRead index => s.cfgRead index
  | .frameIn frame => s.beginFrame frame

/-- A step of the idle block: the next operation of the host is begun; with none issued the block holds
its state (`60_exceptions.md` R335). -/
def State.hostStep (s : State) : State :=
  match s.pending with
  | [] => s
  | op :: rest => ({ s with pending := rest } : State).hostOp op

end Sys2Proof.Machine
end

