-- ==== Sys2Proof/Machine/Fetch.lean ====
section
/-! DEFINITION. Fetching: the FC byte at offset 0 of the frame, and the head byte at the cursor of the
walk; and the end of a frame whose header was walked. -/

namespace Sys2Proof.Machine

/-- Reads the opcode byte at an offset of the frame buffer in an opcode space, or gives the offset of the
`FAULT_BOUNDS` where the byte is not captured (`20_memory.md` R62). -/
def fetchAt (sp : Space) (s : State) (o : Nat) : Except Nat Instr :=
  match decode sp (s.mem.frame.drop o) with
  | .ok (i, _) => .ok i
  | .error .noByte => .error o

/-- The fetch of the FC byte (`40_frame_classes.md` R131): `FAULT_BOUNDS(0)` on the empty frame. -/
def fetchFrame (s : State) : Except Nat Instr := fetchAt .frame s 0

/-- The fetch of the head byte at the cursor (`41_ehdr_elements.md` R181). -/
def fetchElement (s : State) : Except Nat Instr := fetchAt .element s s.view.headOff

/-- The loop test of a walk: `pos < end` (R181). -/
def State.walking (s : State) : Bool := s.view.pos < s.view.viewEnd

/-- The class from `HcsCheck` on, by the dispatch of `40_frame_classes.md` R138. Only the classes that
walk an extended header have one (R149, R151). -/
def classTail (P : Config.Params) (fctype : BitVec 2) (fcparm : BitVec 5) : Act Unit :=
  match decodeFcFields fctype fcparm true with
  | .pkt _ _ => tailPkt P
  | .iso _ _ => tailIso P
  | .rsvd _ _ => tailRsvd P
  | .timing _ => tailTiming P
  | .mgmt _ => tailMgmt P
  | .frag _ => tailFrag P
  | _ => pure ()

/-- The end of a frame whose header was walked (R130, R138, R139). -/
def frameTail (P : Config.Params) : Act Unit := do
  let s ← get
  classTail P s.fctype s.fcparm
  endFrame

/-- The step of phase `tail`, with the default CRC functions. -/
def State.finishFrame (s : State) : State := settle ((frameTail defaultParams).run s)

end Sys2Proof.Machine
end

