-- ==== Sys2Proof/Machine/Step.lean ====
section
/-! DEFINITION. One step of the machine, and where the host's probe places an instruction. -/

namespace Sys2Proof.Machine

/-- One step (log 1). Idle, the block begins the host's next operation. In `fetch` it reads the FC byte
and runs the frame class; in `walk` it reads the head byte at the cursor and runs the element, or, the
walk of the view over, leaves the activation; in `tail` it ends the frame. An opcode byte that is not
captured is a `FAULT_BOUNDS` (`60_exceptions.md` R318). -/
def step (s : State) : Host.Outcome State Fault Refusal :=
  match s.phase with
  | .idle => .next s.hostStep
  | .fetch =>
    match fetchFrame s with
    | .ok i => exec i s
    | .error off => .next (s.takeFault off)
  | .walk =>
    if s.walking then
      match fetchElement s with
      | .ok i => exec i s
      | .error off => .next (s.takeFault off)
    else .next s.leaveView
  | .tail => .next s.finishFrame

/-- The bytes of a table word as `step` meets them: the word's own bits, and zeros up to the longest
element, 16 bytes. -/
def probeBytes (nbits w : Nat) : List Byte := wordBytes (max 16 (nbits / 8)) (w % 2 ^ nbits)

/-- The state in which a frame has just been submitted (R130): its FC byte is fetched next. -/
def State.atFrame (s : State) (frame : List Byte) : State := s.beginFrame frame

/-- The state in the middle of a Packet PDU whose extended header is `bytes`, the cursor at its first
byte: FC `01`, MAC-parameter the number of bytes, Length two more, HCS `0000`. -/
def State.atElement (s : State) (bytes : List Byte) : State :=
  let n := bytes.length
  let frame : List Byte := [0x01, BitVec.ofNat 8 n, 0x00, BitVec.ofNat 8 (n + 2)] ++ bytes ++ [0x00, 0x00]
  ((((s.beginFrame frame).setFc Config.fctypePacket 0 true).setHeader (BitVec.ofNat 16 n)
    (BitVec.ofNat 16 (n + 2))).startView 0 (BitVec.ofNat 8 n) [])

/-- `s` with a table word stored where `step` fetches next, in the opcode space `tableSpace` reads it in
(DESIGN CHOICE, log 4): as the frame just submitted, or as the element at the cursor of a walk. It
stands for the host's `FRAME_IN` (log 3). -/
def State.withFetchWord (s : State) (nbits w : Nat) : State :=
  match tableSpace w with
  | .frame => s.atFrame (probeBytes nbits w)
  | .element => s.atElement (probeBytes nbits w)

end Sys2Proof.Machine
end

