-- ==== Sys2Proof/Safety.lean ====
section
/-! DEFINITION. The terms claims about the machine are stated in: the values a frame holds, the records
and states the rules give in closed form (no action, no cursor), the bounds a run stays within, and the
part of a state a later output can depend on. -/

namespace Sys2Proof.Machine

/-! ## Values and records in closed form -/

/-- The big-endian value of `n` bytes of the frame at `o` (`20_memory.md` R61). -/
def State.valueAt (s : State) (o n : Nat) : Nat := beNat (slice s.mem.frame o n)

/-- A FIELD record with an integer value. -/
def numField (id : FieldId) (off n v : Nat) : Record := .field id off n (.num v) none

/-- The FIELD record of the whole `n`-byte value at `o`. -/
def State.wholeField (s : State) (id : FieldId) (o n : Nat) : Record :=
  numField id o n (s.valueAt o n)

/-- The three FC fields (`40_frame_classes.md` R131). -/
def fcRecords (fctype : BitVec 2) (fcparm : BitVec 5) (ehdron : Bool) : List Record :=
  [numField .fcType 0 1 fctype.toNat, numField .fcParm 0 1 fcparm.toNat,
    numField .fcEhdron 0 1 (if ehdron then 1 else 0)]

/-- The length event of the prologue (R136, R137). -/
def lengthRecords (declared : Int) (captured : Nat) : List Record :=
  if declared < 0 then [.event .lenNegative 2]
  else if (captured : Int) < declared then [.event .lenPastEnd 2]
  else []

/-- The state after the prologue (R131 to R137) of a frame whose header fields are captured. `q` is 1 for
header format B. -/
def State.prologueDone (s : State) (fctype : BitVec 2) (fcparm : BitVec 5) (ehdron : Bool) : State :=
  let q := if fcparm = 4 then 1 else 0
  let mac := s.valueAt 1 (1 + q)
  let len := s.valueAt (2 + q) 2
  let hdr := 6 + q + (if ehdron then mac else 0)
  let declared : Int := if fcparm = 2 ∨ fcparm = 4 then 0 else (len : Int) - (mac + 2)
  { s with
    fc := fctype ++ fcparm ++ BitVec.ofBool ehdron
    fctype := fctype
    fcparm := fcparm
    ehdron := ehdron
    macParm := BitVec.ofNat 16 mac
    lenSid := BitVec.ofNat 16 len
    hdrlen := hdr
    payloadLength := s.caplen - hdr
    pdulen := max declared 0
    out := s.out ++ fcRecords fctype fcparm ehdron ++ lengthRecords declared (s.caplen - hdr) }

/-- The header fields are captured: bytes 0 to 3, or 0 to 4 in format B (`40_frame_classes.md` R154). -/
def State.fieldsCaptured (s : State) (fcparm : BitVec 5) : Prop :=
  (if fcparm = 4 then 5 else 4) ≤ s.caplen

/-- The header fields of `HdrCommon` emitted (R139). -/
def State.headerShown (s : State) : State :=
  let q := if s.fcparm = 4 then 1 else 0
  { s with out := s.out ++
      [numField (if s.ehdron then .ehdrLen else .macParm) 1 (1 + q) s.macParm.toNat,
        numField .len (2 + q) 2 s.lenSid.toNat] }

/-- The verdict of the header check (`42_checksums.md` R231). -/
def State.hcsVerdict (s : State) (P : Config.Params) : CheckStatus :=
  if s.cfg.validateHcs = false then .unverified
  else if (P.crc16Field (slice s.mem.frame 0 (s.hdrlen - 2))).toNat = s.valueAt (s.hdrlen - 2) 2 then .good
  else .bad

/-- The state after `HcsCheck` (R231) of a frame whose header is captured. -/
def State.hcsDone (s : State) (P : Config.Params) : State :=
  { s with
    proceed := s.hcsVerdict P != .bad
    out := s.out ++
      [.field .hcs (s.hdrlen - 2) 2 (.num (s.valueAt (s.hdrlen - 2) 2)) (some (s.hcsVerdict P))] ++
      (if s.hcsVerdict P = .bad then [.event .badHcs (s.hdrlen - 2)] else []) }

/-- The records of a payload hand-off (`40_frame_classes.md` R140). -/
def State.payloadRecords (s : State) (cont : Cont) (src : Src) (off n : Nat) (buf : List Byte) : List Record :=
  if s.isEncrypted = true ∧ s.cfg.dissectEncrypted = false then
    .handoff .encrypted src off n ::
      (if 12 ≤ n then
        [.field .encDa off (slice buf off 6).length (.bytes (slice buf off 6)) none,
          .field .encSa (off + 6) (slice buf (off + 6) 6).length (.bytes (slice buf (off + 6) 6)) none]
      else [])
  else [.handoff cont src off n]

/-- The state with records appended. -/
def State.withRecords (s : State) (rs : List Record) : State := { s with out := s.out ++ rs }

/-- The end of `FRAME_IN` (R130). -/
def State.frameOver (s : State) : State := { s with fragmented := false, phase := .idle }

/-- The state in which `FAULT_BOUNDS(off)` has been taken (`60_exceptions.md` R318). -/
def State.faulted (s : State) (off : Nat) : State :=
  { s with out := s.out ++ [.event .faultBounds off], status := some .fault, callers := [],
           fragmented := false, phase := .idle }

/-- From the header check on, the classes with an Ethernet continuation (R141, R142). -/
def State.ethernetDone (s : State) (P : Config.Params) : State :=
  let t := s.hcsDone P
  (t.withRecords (if t.proceed = true ∧ 0 < t.pdulen then
    t.payloadRecords .ethNofcs .frame t.hdrlen t.payloadLength t.mem.frame else [])).frameOver

/-- From the header check on, the Reserved PDU (R143). -/
def State.rawDone (s : State) (P : Config.Params) : State :=
  let t := s.hcsDone P
  (t.withRecords (if t.proceed = true ∧ 0 < t.pdulen then
    [.handoff .rawData .frame t.hdrlen t.payloadLength] else [])).frameOver

/-- From the header check on, the classes with the management continuation (R144, R145). -/
def State.managementDone (s : State) (P : Config.Params) : State :=
  let t := s.hcsDone P
  (t.withRecords (if t.proceed = true then
    t.payloadRecords .macMgmt .frame t.hdrlen t.payloadLength t.mem.frame else [])).frameOver

/-- The walk of the top view begun (`41_ehdr_elements.md` R180): its byte count is `frame[1]`. Its head
registers are 0 until the first head byte is read (log 30). -/
def State.walkBegun (s : State) : State :=
  { s with
    view := { b := 0, ehdrlen := BitVec.ofNat 8 (s.valueAt 1 1), viewEnd := s.valueAt 1 1 + 4, pos := 4,
              h := 0, type := 0, len := 0 }
    callers := []
    phase := .walk }

/-! ## Elements in closed form -/

/-- The absolute offset of the head byte at the cursor (R184). -/
def State.headAt (s : State) : Nat := s.view.b + s.view.pos

/-- An element of length `len` at the cursor ends within its view (R185). -/
def State.fits (s : State) (len : BitVec 4) : Prop := s.view.pos + 1 + len.toNat ≤ s.view.viewEnd

/-- The head registers and head fields of an element (R181, R182), and its own records. -/
def State.elementShown (s : State) (type len : BitVec 4) (rs : List Record) : State :=
  { s with
    view := { s.view with h := type ++ len, type := type, len := len }
    out := s.out ++ [numField .ehType s.headAt 1 type.toNat, numField .ehLen s.headAt 1 len.toNat] ++ rs }

/-- `pos <- pos + len + 1` (R183). -/
def State.steppedOver (s : State) : State :=
  { s with view := { s.view with pos := s.view.pos + s.view.len.toNat + 1 } }

/-- The key-sequence, version and privacy-word fields of types 3, 4 and 7 (`30_encoding.md` R106, R107,
R109). -/
def State.privacyRecords (s : State) (id : FieldId) (p : Nat) : List Record :=
  let v := s.valueAt (p + 1) 1
  let w := s.valueAt (p + 2) 2
  [numField .ehKeyseq (p + 1) 1 (v / 16), numField .ehVer (p + 1) 1 (v % 16),
    numField .ehBpiEn (p + 2) 2 (w / 32768), numField .ehToggle (p + 2) 2 (w / 16384 % 2),
    numField id (p + 2) 2 (w % 16384)]

/-- The enable bit of the privacy word at `p + 2`, `w[15]`. -/
def State.enableAt (s : State) (p : Nat) : Bool := 32768 ≤ s.valueAt (p + 2) 2

/-- The fields of the fragment byte at `p + 5` (R106). -/
def State.fragmentRecords (s : State) (p : Nat) : List Record :=
  let f := s.valueAt (p + 5) 1
  [numField .ehFragRsvd (p + 5) 1 (f / 64), numField .ehFragFirst (p + 5) 1 (f / 32 % 2),
    numField .ehFragLast (p + 5) 1 (f / 16 % 2), numField .ehFragSeq (p + 5) 1 (f % 16)]

/-- The Service-Flow-PHS fields (R108). -/
def State.serviceRecords (s : State) (p : Nat) (len : BitVec 4) : List Record :=
  s.wholeField .ehPhsi (p + 1) 1 ::
    (if len = 2 then
      [numField .ehQind (p + 2) 1 (s.valueAt (p + 2) 1 / 128),
        numField .ehGrants (p + 2) 1 (s.valueAt (p + 2) 1 % 128)]
    else [])

/-- The Downstream-Service fields (R110, `41_ehdr_elements.md` R195). -/
def State.downServiceRecords (s : State) (p : Nat) (len : BitVec 4) : List Record :=
  let v := s.valueAt (p + 1) 1
  let d := numField .ehDsid (p + 1) 3 (s.valueAt (p + 1) 3 % 1048576)
  numField .ehTrafpri (p + 1) 1 (v / 32) ::
    (if len = 3 then [d]
    else if len = 5 then
      [numField .ehSeqchg (p + 1) 1 (v / 16 % 2), d, s.wholeField .ehDspsn (p + 4) 2]
    else [])

/-! ## The Fragmentation-Header frame in closed form -/

/-- The offset of the fragment CRC, `hdrlen + pdulen - 4` (`43_reassembly.md` R265). -/
def State.fcsAt (s : State) : Nat := s.hdrlen + s.pdulen.toNat - 4

/-- The bytes `[0, caplen - 4)` have the fragment CRC the frame holds (`42_checksums.md` R234). -/
def State.fcsGood (s : State) (P : Config.Params) : Prop :=
  (P.crc32Field (slice s.mem.frame 0 (s.caplen - 4))).toNat = s.valueAt s.fcsAt 4

/-- The field of the fragment CRC (R265). -/
def State.fcsRecord (s : State) (status : CheckStatus) : Record :=
  .field .fragFcs s.fcsAt 4 (.num (s.valueAt s.fcsAt 4)) (some status)

/-- The header walk of a Fragmentation-Header frame is over, the header is captured and its check does
not fail, so that `FragBody` runs (`43_reassembly.md` R262, R263). -/
def State.fragReady (s : State) (P : Config.Params) : Prop :=
  s.phase = .tail ∧ s.fctype = 3 ∧ s.fcparm = 3 ∧ 6 ≤ s.hdrlen ∧ s.hdrlen ≤ s.caplen ∧
    s.payloadLength = s.caplen - s.hdrlen ∧ s.hcsVerdict P ≠ .bad

/-- The fragment is long enough and its CRC is captured (R264, R265). -/
def State.fcsCaptured (s : State) : Prop :=
  4 ≤ s.pdulen ∧ 4 ≤ s.payloadLength ∧ s.hdrlen + s.pdulen.toNat ≤ s.caplen

/-- The bytes a fragment frame submits, `frame[hdrlen .. caplen - 4)` (R267). -/
def State.fragmentData (s : State) : List Byte := slice s.mem.frame s.hdrlen (s.payloadLength - 4)

/-! ## Reassembly -/

/-- A fragment as submitted: sequence number, flags, data (`43_reassembly.md` R267). -/
structure Submission where
  seq : Seq4
  flags : BitVec 2
  data : List Byte
  deriving DecidableEq, Repr

/-- Fragments of one SID submitted one after another: the store left, and the results in order. -/
def submitAll (sid : Sid) : Store → List Submission → List AddResult × Store
  | st, [] => ([], st)
  | st, f :: rest =>
    let r := addFragment st sid f.seq f.flags f.data
    let more := submitAll sid r.2 rest
    (r.1 :: more.1, more.2)

/-- The fragments after the first of a message: consecutive numbers from `q`, the last one flagged
`FRAG_LAST` (`0b01`), the others neither first nor last. -/
def laterFragments (q : Seq4) : List (List Byte) → List Submission
  | [] => []
  | [d] => [{ seq := q, flags := 0b01, data := d }]
  | d :: d' :: ds => { seq := q, flags := 0b00, data := d } :: laterFragments (q + 1) (d' :: ds)

/-- Every slot of a group is `empty` (`10_state.md` R39). -/
def Store.groupEmpty (st : Store) (sid : Sid) : Prop := ∀ q : Seq4, Store.slot st sid q = none

/-- What a reassembled buffer is made of (`43_reassembly.md` R256, R258): the bytes of the full slots of a
group, from the number after `seq` round to `seq`. -/
def Store.gathered (st : Store) (sid : Sid) (seq : Seq4) : List (Seq4 × Fragment) :=
  (List.range 16).filterMap (fun k =>
    (Store.slot st sid (seq + 1 + BitVec.ofNat 4 k)).map (fun f => (seq + 1 + BitVec.ofNat 4 k, f)))

/-- The `contiguous` bit said of the fragments gathered (R258): their numbers are consecutive and end at
`seq`, the earliest carries the first flag and no other does. -/
def contiguousRun (present : List (Seq4 × Fragment)) (seq : Seq4) : Prop :=
  ∀ i (h : i < present.length),
    present[i].1 = seq - BitVec.ofNat 4 (present.length - 1 - i) ∧ present[i].2.first = decide (i = 0)

/-! ## Runs -/

/-- `n` steps. -/
def run : Nat → State → Host.Outcome State Fault Refusal
  | 0, s => .next s
  | n + 1, s =>
    match step s with
    | .next t => run n t
    | .fault f => .fault f
    | .refused r => .refused r

/-! ## The bounds a run stays within (`70_reset_and_hazards.md` R366) -/

/-- The registers of an activation stay within R366. -/
def View.inBounds (v : View) (caplen : Nat) : Prop :=
  v.viewEnd = v.ehdrlen.toNat + 4 ∧ 4 ≤ v.pos ∧ v.pos ≤ v.viewEnd ∧ v.b + 2 ≤ caplen

/-- The nested views of a walk, innermost first: each begins at its caller's type-15 element, which fits
in its view, and the last one is the top view. -/
def viewChain (caplen : Nat) : View → List View → Prop
  | v, [] => v.inBounds caplen ∧ v.b = 0
  | v, c :: rest =>
    v.inBounds caplen ∧ v.b = c.b + c.pos ∧ c.type = 15 ∧ c.pos + 1 + c.len.toNat ≤ c.viewEnd ∧
      viewChain caplen c rest

/-- The decoder's registers are in order: in a walk the activations form a chain within bounds, outside
one no activation waits. -/
def State.walkOk (s : State) : Prop :=
  (s.phase = .walk → viewChain s.caplen s.view s.callers) ∧ (s.phase ≠ .walk → s.callers = [])

/-- A frame is in progress and its header registers are loaded. -/
def State.inFrame (s : State) : Prop := s.phase = .walk ∨ s.phase = .tail

/-- The header registers are what R21 to R24, R153 and R366 say of a frame with an extended header. -/
def State.headerOk (s : State) : Prop :=
  s.inFrame →
    s.ehdron = true ∧ s.fc = s.fctype ++ s.fcparm ++ BitVec.ofBool true ∧
    s.hdrlen = (if s.fcparm = 4 then 7 else 6) + s.macParm.toNat ∧
    s.payloadLength = s.caplen - s.hdrlen ∧
    (s.fcparm ≠ 4 → s.macParm.toNat ≤ 255) ∧
    0 ≤ s.pdulen ∧ s.pdulen ≤ 65533 ∧ (s.fcparm = 2 ∨ s.fcparm = 4 → s.pdulen = 0)

/-- The frame in progress is a Fragmentation-Header frame (`30_encoding.md` R96). -/
def State.isFrag (s : State) : Prop := s.fctype = 3 ∧ s.fcparm = 3

/-- `fragmented` is 1 exactly while a Fragmentation-Header frame is in progress, and the value it gets
back is 0 (`10_state.md` R29, `70_reset_and_hazards.md` R358). -/
def State.fragContextOk (s : State) : Prop :=
  (s.fragmented = true → s.inFrame ∧ s.isFrag) ∧
  (s.inFrame → s.isFrag → s.fragmented = true ∧ s.savedFragmented = false)

/-- What `10_state.md` R41, R43 and R45 say of one record of a frame with `caplen` captured bytes. The
two address fields of an encrypted hand-off may stand in a reassembled buffer: `addressesOk` says where
they lie. -/
def recordOk (caplen : Nat) : Record → Prop
  | .field id off n value status =>
    (id ≠ .encDa → id ≠ .encSa → off + n ≤ caplen) ∧
    (match value with
      | .num v => v < 256 ^ n ∧ id ≠ .ehVal ∧ id ≠ .encDa ∧ id ≠ .encSa
      | .bytes data => data.length = n ∧ (id = .ehVal ∨ id = .encDa ∨ id = .encSa)) ∧
    (status.isSome ↔ id = .hcs ∨ id = .fragFcs)
  | .handoff _ .frame off n => off + n = caplen
  | .reasm _ nfrags _ n data => 1 ≤ nfrags ∧ nfrags ≤ 16 ∧ n = data.length
  | .handoff _ .reasm off _ => off = 0
  | .event _ _ | .note _ _ => True

/-- A slice handed off, as its HANDOFF record names it (`10_state.md` R43). -/
structure Handed where
  cont : Cont
  src : Src
  off : Nat
  n : Nat
  deriving DecidableEq, Repr

/-- An address field of `n` bytes at `off`, `k` bytes into the slice handed off last
(`40_frame_classes.md` R140): that slice is an encrypted one of at least twelve bytes, the field is six
bytes long and lies within the slice, and within the captured bytes where the slice is of the frame. -/
def addressOk (caplen : Nat) (last : Option Handed) (k off n : Nat) : Prop :=
  ∃ h, last = some h ∧ h.cont = .encrypted ∧ 12 ≤ h.n ∧ off = h.off + k ∧ n = 6 ∧
    off + n ≤ h.off + h.n ∧ (h.src = .frame → off + n ≤ caplen)

/-- Every ENC_DA and ENC_SA of a record stream stands where R140 puts it: at the beginning of the slice
handed off last, and six bytes into it. `last` is the slice handed off before the stream. -/
def addressesOk (caplen : Nat) : Option Handed → List Record → Prop
  | _, [] => True
  | _, .handoff cont src off n :: rs => addressesOk caplen (some ⟨cont, src, off, n⟩) rs
  | last, .field id off n _ _ :: rs =>
    (id = .encDa → addressOk caplen last 0 off n) ∧ (id = .encSa → addressOk caplen last 6 off n) ∧
      addressesOk caplen last rs
  | last, .event _ _ :: rs | last, .note _ _ :: rs | last, .reasm _ _ _ _ _ :: rs =>
    addressesOk caplen last rs

/-- Every record of the frame is in order, and so are the header registers the next ones are made of. -/
def State.recordsOk (s : State) : Prop :=
  s.headerOk ∧ (∀ r ∈ s.out, recordOk s.caplen r) ∧ addressesOk s.caplen none s.out

/-- `status` and the fault report agree (`10_state.md` R37, `60_exceptions.md` R318): while a frame is in
progress nothing has faulted, and where `status` is FAULT the report is the last record and the only one
of its kind. -/
def State.statusOk (s : State) : Prop :=
  (s.phase ≠ .idle → s.status = some .done) ∧
  (∀ off, .event .faultBounds off ∈ s.out → s.status = some .fault) ∧
  (s.status = some .fault →
    ∃ rs off, s.out = rs ++ [.event .faultBounds off] ∧ ∀ o, .event .faultBounds o ∉ rs)

/-! ## What a later output can depend on (`10_state.md` R47, R49) -/

/-- The scratch registers erased. -/
def State.eraseScratch (s : State) : State := { s with fragFlags := 0, fragSeq := 0, fragSid := 0 }

/-- The registers of the decoder erased. -/
def State.eraseViews (s : State) : State := { s with view := View.dead, callers := [] }

/-- The header registers, `proceed` and `saved_fragmented` erased. -/
def State.eraseHeader (s : State) : State :=
  { s with fc := 0, fctype := 0, fcparm := 0, ehdron := false, macParm := 0, lenSid := 0, hdrlen := 0,
           payloadLength := 0, pdulen := 0, savedFragmented := false, proceed := false }

/-- `s` with every register erased that no later step reads before it is written again. Between frames
what is left is the store, the configuration, the outputs and the host's queue; inside a frame the
scratch registers count only under `frag_valid`, `saved_fragmented` only in a fragment frame, and
`proceed` not before the header check. -/
def State.live (s : State) : State :=
  match s.phase with
  | .idle =>
    { s.eraseScratch.eraseViews.eraseHeader with
      mem := { s.mem with frame := [] }, isEncrypted := false, fragmented := false, fragValid := false }
  | .fetch =>
    if s.fragValid then s.eraseViews.eraseHeader else s.eraseScratch.eraseViews.eraseHeader
  | .walk | .tail =>
    let t := if s.fragValid then s else s.eraseScratch
    let t := if s.phase = .tail then t.eraseViews else t
    { t with proceed := false,
             savedFragmented := if s.fctype = 3 ∧ s.fcparm = 3 then s.savedFragmented else false }

end Sys2Proof.Machine
end

