-- ==== Sys2Proof/Certificates/Slice0/Obligations.lean ====
section
/-! DEFINITION. The statements for the provers, each from numbered rules of `spec/`. The closed forms they
are stated in stand in `Safety.lean`. A statement that gives a whole next state also says that a register
the spec calls dead keeps its value until it is written, which is the model's (log 29). -/

open Sys2Proof Sys2Proof.Machine

/-! ## Encoding (`30_encoding.md`) -/

/-- Decoding the bytes of any well-formed instruction gives it back, with the bytes after it untouched
(R91, R96, R102, R103). -/
def Obligations.DecodeEncodeAgree : Prop :=
  ∀ (i : Instr) (rest : List Byte), i.wellFormed = true →
    decode i.space (encode i ++ rest) = .ok (i, rest)

/-- In each opcode space every byte value is the opcode of exactly one well-formed instruction (R100,
R114: no encoding is illegal). -/
def Obligations.EveryByteIsOneInstruction : Prop :=
  ∀ (sp : Space) (op : Byte) (rest : List Byte),
    ∃ i, decode sp (op :: rest) = .ok (i, rest) ∧ i.space = sp ∧ i.wellFormed = true ∧ encode i = [op] ∧
      ∀ j : Instr, j.space = sp → j.wellFormed = true → encode j = [op] → j = i

/-- The decode tables by mask and match (R96, R103), the free bits going to the operands. The sub-type
and class codes are the spec's defaults (log 8). -/
def Obligations.DecodeTables : Prop :=
  (∀ (b : Byte) (rest : List Byte),
    let p : BitVec 5 := BitVec.ofNat 5 (b.toNat / 2)
    let e : Bool := decide (b.toNat % 2 = 1)
    (b &&& 0xC0 = 0x00 → decode .frame (b :: rest) = .ok (.pkt p e, rest)) ∧
    (b &&& 0xC0 = 0x40 → decode .frame (b :: rest) = .ok (.rsvd p e, rest)) ∧
    (b &&& 0xC0 = 0x80 → decode .frame (b :: rest) = .ok (.iso p e, rest)) ∧
    (b &&& 0xFE = 0xC0 → decode .frame (b :: rest) = .ok (.timing e, rest)) ∧
    (b &&& 0xFE = 0xC2 → decode .frame (b :: rest) = .ok (.mgmt e, rest)) ∧
    (b &&& 0xFE = 0xC4 → decode .frame (b :: rest) = .ok (.rqst e, rest)) ∧
    (b &&& 0xFE = 0xC6 → decode .frame (b :: rest) = .ok (.frag e, rest)) ∧
    (b &&& 0xFE = 0xC8 → decode .frame (b :: rest) = .ok (.qdr e, rest)) ∧
    (b &&& 0xFE = 0xF8 → decode .frame (b :: rest) = .ok (.concat e, rest)) ∧
    (b &&& 0xC0 = 0xC0 → p ∉ [0, 1, 2, 3, 4, 0x1C] → decode .frame (b :: rest) = .ok (.unknown p e, rest))) ∧
  (∀ (b : Byte) (rest : List Byte),
    let n : BitVec 4 := BitVec.ofNat 4 b.toNat
    (b &&& 0xF0 = 0x00 → decode .element (b :: rest) = .ok (.ehNull n, rest)) ∧
    (b &&& 0xF0 = 0x10 → decode .element (b :: rest) = .ok (.ehRequest n, rest)) ∧
    (b &&& 0xF0 = 0x20 → decode .element (b :: rest) = .ok (.ehAckReq n, rest)) ∧
    (b &&& 0xF0 = 0x30 → decode .element (b :: rest) = .ok (.ehUpPrivacy n, rest)) ∧
    (b &&& 0xF0 = 0x40 → decode .element (b :: rest) = .ok (.ehDownPrivacy n, rest)) ∧
    (b &&& 0xF0 = 0x50 → decode .element (b :: rest) = .ok (.ehSfPhs5 n, rest)) ∧
    (b &&& 0xF0 = 0x60 → decode .element (b :: rest) = .ok (.ehSfPhs6 n, rest)) ∧
    (b &&& 0xF0 = 0x70 → decode .element (b :: rest) = .ok (.ehUpPrivacy2 n, rest)) ∧
    (b &&& 0xF0 = 0x80 → decode .element (b :: rest) = .ok (.ehDownService n, rest)) ∧
    (b &&& 0xF0 = 0x90 → decode .element (b :: rest) = .ok (.ehPathVerify n, rest)) ∧
    (b &&& 0xF0 = 0xA0 → decode .element (b :: rest) = .ok (.ehRsvd10 n, rest)) ∧
    (b &&& 0xF0 = 0xB0 → decode .element (b :: rest) = .ok (.ehRsvd11 n, rest)) ∧
    (b &&& 0xF0 = 0xC0 → decode .element (b :: rest) = .ok (.ehRsvd12 n, rest)) ∧
    (b &&& 0xF0 = 0xD0 → decode .element (b :: rest) = .ok (.ehRsvd13 n, rest)) ∧
    (b &&& 0xF0 = 0xE0 → decode .element (b :: rest) = .ok (.ehRsvd14 n, rest)) ∧
    (b &&& 0xF0 = 0xF0 → decode .element (b :: rest) = .ok (.ehExtended n, rest)))

/-- A few words of the spec's examples (R96, R103, `40_frame_classes.md` R146, R148, R150, R151,
`41_ehdr_elements.md` R190, R195). The codes are the spec's defaults (log 8). -/
def Obligations.SampleWords : Prop :=
  decode .frame [0xC4, 0x05] = .ok (.rqst false, [0x05]) ∧
  decode .frame [0xC8] = .ok (.qdr false, []) ∧ decode .frame [0xF9] = .ok (.concat true, []) ∧
  decode .frame [0xC7] = .ok (.frag true, []) ∧ decode .frame [0x08] = .ok (.pkt 4 false, []) ∧
  decode .frame [0xCA] = .ok (.unknown 5 false, []) ∧
  decode .element [0x35, 0x01] = .ok (.ehUpPrivacy 5, [0x01]) ∧
  decode .element [0x85] = .ok (.ehDownService 5, []) ∧ decode .element [0xF7] = .ok (.ehExtended 7, [])

/-! ## The step -/

/-- A step runs the instruction the bytes at the cursor decode to: as a frame class at offset 0 of a
frame just submitted, as an element at `b + pos` of a walk whose loop test holds (`40_frame_classes.md`
R131, R138, `41_ehdr_elements.md` R181). `exec` does all else: nothing is added around it. The phases are
the model's (log 1). -/
def Obligations.StepRunsInstruction : Prop :=
  ∀ (s : State) (i : Instr) (rest : List Byte),
    (s.phase = .fetch → decode .frame s.mem.frame = .ok (i, rest) → step s = exec i s) ∧
    (s.phase = .walk → s.view.pos < s.view.viewEnd →
      decode .element (s.mem.frame.drop s.headAt) = .ok (i, rest) → step s = exec i s)

/-- Where the opcode byte is not captured, the step takes `FAULT_BOUNDS` at its offset
(`40_frame_classes.md` R131, `41_ehdr_elements.md` R181). The phases are the model's (log 1). -/
def Obligations.MissingOpcodeFaults : Prop :=
  ∀ s : State,
    (s.phase = .fetch → s.mem.frame = [] → step s = .next (s.faulted 0)) ∧
    (s.phase = .walk → s.view.pos < s.view.viewEnd → s.caplen ≤ s.headAt →
      step s = .next (s.faulted s.headAt))

/-- When the walk of a view is over its activation returns: the top one to the rest of the class, a
nested one to its caller, which steps over its type-15 element with its own cursor and length
(`41_ehdr_elements.md` R181, R183, R197). Nothing else changes. The phases are the model's (log 1). -/
def Obligations.ActivationReturns : Prop :=
  ∀ s : State, s.phase = .walk → s.view.viewEnd ≤ s.view.pos →
    (s.callers = [] → step s = .next { s with phase := .tail }) ∧
    (∀ c cs, s.callers = c :: cs →
      step s = .next { s with view := { c with pos := c.pos + c.len.toNat + 1 }, callers := cs })

/-- No state and no instruction stops the machine (`60_exceptions.md` R311, R318, R322). -/
def Obligations.NothingStops : Prop :=
  (∀ s : State, ∃ t, step s = .next t) ∧ ∀ (i : Instr) (s : State), ∃ t, exec i s = .next t

/-! ## Host operations (`44_host_operations.md`) -/

/-- `FRAME_IN` begins: the frame is the buffer, the record stream is empty, `status` is DONE, the three
flags are 0 (`40_frame_classes.md` R130); with no operation issued the block holds its state
(`60_exceptions.md` R335). The queue and the phases are the model's (logs 1, 2). -/
def Obligations.HostFrameIn : Prop :=
  (∀ (s : State) (f : List Byte) (ops : List HostOp), s.phase = .idle → s.pending = .frameIn f :: ops →
    step s = .next { s with
      mem := { s.mem with frame := f }, out := [], status := some .done, fragValid := false,
      isEncrypted := false, fragmented := false, callers := [], phase := .fetch, pending := ops }) ∧
  ∀ s : State, s.phase = .idle → s.pending = [] → step s = .next s

/-- `RESET` gives every element the value R49 and R350 state, `SESSION_RESET` does the same and keeps the
configuration (R292, R293). The dead registers are not spoken of. The queue is the model's (log 2). -/
def Obligations.HostResets : Prop :=
  ∀ (s : State) (ops : List HostOp), s.phase = .idle →
    (s.pending = .reset :: ops → ∃ t, step s = .next t ∧ t.pending = ops ∧ t.phase = .idle ∧
      t.cfg = ⟨true, false, true, .ethNofcs⟩ ∧ (∀ sid seq, Store.slot t.mem.store sid seq = none) ∧
      t.fragFlags = 0 ∧ t.fragSeq = 0 ∧ t.fragSid = 0 ∧ t.fragValid = false ∧ t.isEncrypted = false ∧
      t.fragmented = false ∧ t.out = [] ∧ t.status = none) ∧
    (s.pending = .sessionReset :: ops → ∃ t, step s = .next t ∧ t.pending = ops ∧ t.phase = .idle ∧
      t.cfg = s.cfg ∧ (∀ sid seq, Store.slot t.mem.store sid seq = none) ∧
      t.fragFlags = 0 ∧ t.fragSeq = 0 ∧ t.fragSid = 0 ∧ t.fragValid = false ∧ t.isEncrypted = false ∧
      t.fragmented = false ∧ t.out = [] ∧ t.status = none)

/-- The state after reset has the values R49 states; the dead registers are not spoken of. -/
def Obligations.ResetState : Prop :=
  State.reset.cfg = ⟨true, false, true, .ethNofcs⟩ ∧
  (∀ sid seq, Store.slot State.reset.mem.store sid seq = none) ∧
  State.reset.fragFlags = 0 ∧ State.reset.fragSeq = 0 ∧ State.reset.fragSid = 0 ∧
  State.reset.fragValid = false ∧ State.reset.isEncrypted = false ∧ State.reset.fragmented = false ∧
  State.reset.out = [] ∧ State.reset.status = none ∧ State.reset.phase = .idle

/-- `CFG_WRITE` and `CFG_READ` (R291, `10_state.md` R50): the index map, the legal values, and nothing
else changed. What a read returns is held in `cfgReadValue` (log 12). -/
def Obligations.HostConfigAccess : Prop :=
  ∀ (s : State) (i v : Nat) (ops : List HostOp), s.phase = .idle →
    (s.pending = .cfgWrite i v :: ops → step s = .next { s with
      pending := ops
      cfg :=
        { validateHcs := if i = 0 ∧ v ≤ 1 then decide (v = 1) else s.cfg.validateHcs
          dissectEncrypted := if i = 1 ∧ v ≤ 1 then decide (v = 1) else s.cfg.dissectEncrypted
          abortViewOnElementError :=
            if i = 2 ∧ v ≤ 1 then decide (v = 1) else s.cfg.abortViewOnElementError
          reasmTarget :=
            if i = 3 ∧ v = 0 then .ethNofcs else if i = 3 ∧ v = 1 then .macMgmt
            else if i = 3 ∧ v = 2 then .rawData else s.cfg.reasmTarget } }) ∧
    (s.pending = .cfgRead i :: ops → step s = .next { s with
      pending := ops
      cfgReadValue := some (match i with
        | 0 => if s.cfg.validateHcs then 1 else 0
        | 1 => if s.cfg.dissectEncrypted then 1 else 0
        | 2 => if s.cfg.abortViewOnElementError then 1 else 0
        | 3 => match s.cfg.reasmTarget with
          | .ethNofcs => 0
          | .macMgmt => 1
          | .rawData => 2
        | _ => 0) })

/-! ## Memory (`20_memory.md`) -/

/-- `MemRead(o, n)` is the sum of `frame[o + i] * 256 ^ (n - 1 - i)`, `MemBytes(o, n)` the bytes in order,
where all `n` bytes are captured; else each is `FAULT_BOUNDS(o)`. Neither changes the state (R61, R62). -/
def Obligations.FrameReads : Prop :=
  ∀ (s : State) (o n : Nat),
    (o + n ≤ s.caplen →
      (memRead o n).run s =
        .ok (∑ i ∈ Finset.range n, ((s.frameByte (o + i)).getD 0).toNat * 256 ^ (n - 1 - i)) s ∧
      ∃ l, (memBytes o n).run s = .ok l s ∧ l.length = n ∧ ∀ k, k < n → l[k]? = s.frameByte (o + k)) ∧
    (s.caplen < o + n → (memRead o n).run s = .error o s ∧ (memBytes o n).run s = .error o s)

/-- The store after `MemWrite`, `Release` and `ClearAll`, slot by slot (R66, R67). The slots are a decision
of the spec's own (R66, D23). -/
def Obligations.StoreOperations : Prop :=
  ∀ (st : Store) (sid sid' : Sid) (seq seq' : Seq4) (data : List Byte) (first : Bool),
    (Store.slot (Store.write st sid seq data first) sid seq = some ⟨data, first⟩) ∧
    (sid' ≠ sid ∨ seq' ≠ seq →
      Store.slot (Store.write st sid seq data first) sid' seq' = Store.slot st sid' seq') ∧
    (Store.slot (Store.release st sid) sid seq = none) ∧
    (sid' ≠ sid → Store.slot (Store.release st sid) sid' seq' = Store.slot st sid' seq') ∧
    Store.slot (Store.clearAll st) sid seq = none

/-! ## Frame classes (`40_frame_classes.md`) -/

/-- A frame too short for its header fields: the three FC fields stand and the class faults at the offset
of the first field that is not captured whole (R131, R132, R154), for every class. Where that is the
Length/SID, `mac_parm` has been written and stands (`60_exceptions.md` R318). That a register the frame
had not written yet keeps the value of an earlier frame is the model's (log 29). -/
def Obligations.HeaderFieldsMissing : Prop :=
  ∀ (i : Instr) (s : State), i.space = .frame → ¬ s.fieldsCaptured (fcParm (opcode i)) →
    let q := if fcParm (opcode i) = 4 then 1 else 0
    let t : State := { s with
      fc := opcode i, fctype := fcType (opcode i), fcparm := fcParm (opcode i),
      ehdron := fcEhdron (opcode i),
      out := s.out ++ fcRecords (fcType (opcode i)) (fcParm (opcode i)) (fcEhdron (opcode i)) }
    (s.caplen < 2 + q → exec i s = .next (t.faulted 1)) ∧
    (2 + q ≤ s.caplen → exec i s =
      .next (State.faulted { t with macParm := BitVec.ofNat 16 (s.valueAt 1 (1 + q)) } (2 + q)))

/-- `PKT`, `ISO`, `RSVD`, `TIMING`, `MGMT` without an extended header, the fixed header captured: the
prologue, the two header fields, the header check, and the class's hand-off (R131 to R145). The address
fields of an encrypted hand-off stand as log 10 says. -/
def Obligations.PlainPayloadClasses : Prop :=
  ∀ s : State,
    (∀ p : BitVec 5, (if p = 4 then 7 else 6) ≤ s.caplen →
      exec (.pkt p false) s = .next ((s.prologueDone 0 p false).headerShown.ethernetDone defaultParams) ∧
      exec (.iso p false) s = .next ((s.prologueDone 2 p false).headerShown.ethernetDone defaultParams) ∧
      exec (.rsvd p false) s = .next ((s.prologueDone 1 p false).headerShown.rawDone defaultParams)) ∧
    (6 ≤ s.caplen →
      exec (.timing false) s =
        .next ((s.prologueDone 3 0 false).headerShown.managementDone defaultParams) ∧
      exec (.mgmt false) s =
        .next ((s.prologueDone 3 1 false).headerShown.managementDone defaultParams))

/-- `RQST`, `QDR`, `CONCAT`, with the ext bit or not: two fields and the header check at the grown header
length; no walk, no hand-off (R146, R148, R149, R150). -/
def Obligations.FixedHeaderClasses : Prop :=
  ∀ (s : State) (e : Bool),
    (s.fieldsCaptured 2 → (s.prologueDone 3 2 e).hdrlen ≤ s.caplen → exec (.rqst e) s =
      .next (State.frameOver (State.hcsDone (State.withRecords (s.prologueDone 3 2 e)
        [numField .rqMinislots 1 1 (s.valueAt 1 1), numField .rqSid 2 2 (s.valueAt 2 2)])
        defaultParams))) ∧
    (s.fieldsCaptured 4 → (s.prologueDone 3 4 e).hdrlen ≤ s.caplen → exec (.qdr e) s =
      .next (State.frameOver (State.hcsDone (State.withRecords (s.prologueDone 3 4 e)
        [numField .qdrReqsize 1 2 (s.valueAt 1 2), numField .qdrSid 3 2 (s.valueAt 3 2)])
        defaultParams))) ∧
    (s.fieldsCaptured 0x1C → (s.prologueDone 3 0x1C e).hdrlen ≤ s.caplen → exec (.concat e) s =
      .next (State.frameOver (State.hcsDone (State.withRecords (s.prologueDone 3 0x1C e)
        [numField .concatCnt 1 1 (s.valueAt 1 1), numField .concatLen 2 2 (s.valueAt 2 2)])
        defaultParams)))

/-- `UNKNOWN`: the prologue and nothing else (R151). The sub-type codes are the spec's defaults (log 8).
-/
def Obligations.UnknownSubtype : Prop :=
  ∀ (s : State) (p : BitVec 5) (e : Bool), (Instr.unknown p e).wellFormed = true → s.fieldsCaptured p →
    exec (.unknown p e) s = .next (s.prologueDone 3 p e).frameOver

/-- The six classes with an extended header: the prologue, the two header fields, and the walk of the top
view begins at offset 4 with the byte count `frame[1]` (R139, `41_ehdr_elements.md` R180); a
Fragmentation-Header frame is then in fragment context (`43_reassembly.md` R262). That the walk is steps
of its own is the model's (log 1), and so is that the activation's `h`, `type` and `len` are 0 before its
first head byte (log 30). -/
def Obligations.WalkBegins : Prop :=
  ∀ s : State,
    (∀ p : BitVec 5, s.fieldsCaptured p →
      exec (.pkt p true) s = .next (s.prologueDone 0 p true).headerShown.walkBegun ∧
      exec (.iso p true) s = .next (s.prologueDone 2 p true).headerShown.walkBegun ∧
      exec (.rsvd p true) s = .next (s.prologueDone 1 p true).headerShown.walkBegun) ∧
    (4 ≤ s.caplen →
      exec (.timing true) s = .next (s.prologueDone 3 0 true).headerShown.walkBegun ∧
      exec (.mgmt true) s = .next (s.prologueDone 3 1 true).headerShown.walkBegun ∧
      exec (.frag true) s = .next { (s.prologueDone 3 3 true).headerShown.walkBegun with
        savedFragmented := s.fragmented, fragmented := true })

/-- The end of a frame whose header was walked, for the classes other than `FRAG`: the header check and
the class's hand-off (R139 to R145). The phases are the model's (log 1), the address fields stand as log
10 says. -/
def Obligations.TailPayloadClasses : Prop :=
  ∀ s : State, s.phase = .tail → 6 ≤ s.hdrlen → s.hdrlen ≤ s.caplen →
    (s.fctype = 0 ∨ s.fctype = 2 → step s = .next (s.ethernetDone defaultParams)) ∧
    (s.fctype = 1 → step s = .next (s.rawDone defaultParams)) ∧
    (s.fctype = 3 → s.fcparm = 0 ∨ s.fcparm = 1 → step s = .next (s.managementDone defaultParams))

/-- A header whose check sequence is not captured: the frame faults at `hdrlen - 2` (`42_checksums.md`
R231, `40_frame_classes.md` R134), after a walk and without one, in every class but `UNKNOWN`, which has
no header check (R151, `42_checksums.md` R232) and whose end `UnknownSubtype` states. The phases are the
model's (log 1). -/
def Obligations.TruncatedHeaderFaults : Prop :=
  (∀ s : State, s.phase = .tail → 6 ≤ s.hdrlen → s.caplen < s.hdrlen →
    s.fctype ≠ 3 ∨ s.fcparm = 0 ∨ s.fcparm = 1 ∨ s.fcparm = 3 →
      step s = .next (s.faulted (s.hdrlen - 2))) ∧
  (∀ (s : State) (p : BitVec 5), s.fieldsCaptured p → s.caplen < (if p = 4 then 7 else 6) →
    exec (.pkt p false) s =
      .next ((s.prologueDone 0 p false).headerShown.faulted (if p = 4 then 5 else 4)) ∧
    exec (.iso p false) s =
      .next ((s.prologueDone 2 p false).headerShown.faulted (if p = 4 then 5 else 4)) ∧
    exec (.rsvd p false) s =
      .next ((s.prologueDone 1 p false).headerShown.faulted (if p = 4 then 5 else 4))) ∧
  (∀ s : State, 4 ≤ s.caplen → s.caplen < 6 →
    exec (.timing false) s = .next ((s.prologueDone 3 0 false).headerShown.faulted 4) ∧
    exec (.mgmt false) s = .next ((s.prologueDone 3 1 false).headerShown.faulted 4) ∧
    exec (.frag false) s = .next (State.faulted { (s.prologueDone 3 3 false).headerShown with
      savedFragmented := s.fragmented, fragmented := true } 4)) ∧
  (∀ (s : State) (e : Bool) (p : BitVec 5) (id1 id2 : FieldId) (i : Instr),
    (p, id1, id2, i) ∈ [((2 : BitVec 5), FieldId.rqMinislots, FieldId.rqSid, Instr.rqst e),
      (4, .qdrReqsize, .qdrSid, .qdr e), (0x1C, .concatCnt, .concatLen, .concat e)] →
    s.fieldsCaptured p → s.caplen < (s.prologueDone 3 p e).hdrlen →
    let q := if p = 4 then 1 else 0
    exec i s = .next (State.faulted ((s.prologueDone 3 p e).withRecords
      [numField id1 1 (1 + q) (s.valueAt 1 (1 + q)), numField id2 (2 + q) 2 (s.valueAt (2 + q) 2)])
      ((s.prologueDone 3 p e).hdrlen - 2)))

/-- The header check for any CRC function (`42_checksums.md` R231, R237): the value read at `hdrlen - 2` is
emitted as unverified, good or bad, `proceed` follows, and a header that is not captured faults. -/
def Obligations.HeaderCheck : Prop :=
  ∀ (P : Config.Params) (s : State), 2 ≤ s.hdrlen →
    let val := s.valueAt (s.hdrlen - 2) 2
    let comp := (P.crc16Field (slice s.mem.frame 0 (s.hdrlen - 2))).toNat
    let shown (c : CheckStatus) : Record := .field .hcs (s.hdrlen - 2) 2 (.num val) (some c)
    (s.hdrlen ≤ s.caplen →
      (s.cfg.validateHcs = false → (hcsCheck P).run s =
        .ok () { s with proceed := true, out := s.out ++ [shown .unverified] }) ∧
      (s.cfg.validateHcs = true → comp = val → (hcsCheck P).run s =
        .ok () { s with proceed := true, out := s.out ++ [shown .good] }) ∧
      (s.cfg.validateHcs = true → comp ≠ val → (hcsCheck P).run s =
        .ok () { s with proceed := false,
                        out := s.out ++ [shown .bad, .event .badHcs (s.hdrlen - 2)] })) ∧
    (s.caplen < s.hdrlen → (hcsCheck P).run s = .error (s.hdrlen - 2) s)

/-- A bad header check ends every class that walks a header: the field, the event, no hand-off, no store
access (`42_checksums.md` R232, `43_reassembly.md` R263). The phases are the model's (log 1). -/
def Obligations.BadHcsEndsFrame : Prop :=
  ∀ s : State, s.phase = .tail → 6 ≤ s.hdrlen → s.hdrlen ≤ s.caplen →
    s.fctype ≠ 3 ∨ s.fcparm = 0 ∨ s.fcparm = 1 ∨ s.fcparm = 3 →
    s.hcsVerdict defaultParams = .bad →
      step s = .next (State.frameOver { s with
        proceed := false
        out := s.out ++ [.field .hcs (s.hdrlen - 2) 2 (.num (s.valueAt (s.hdrlen - 2) 2)) (some .bad),
          .event .badHcs (s.hdrlen - 2)] })

/-- What a class leaves alone, whatever way it ends: the configuration, the queue, the frame buffer, the
scratch registers, `frag_valid` and `is_encrypted`; its records are appended; the FC registers hold its
opcode byte; no class but `FRAG` changes the store, and `FRAG` no group but that of `frag_sid`
(`10_state.md` R28, R47, `60_exceptions.md` R330). -/
def Obligations.ClassFrame : Prop :=
  ∀ (i : Instr) (s t : State), i.space = .frame → exec i s = .next t →
    t.cfg = s.cfg ∧ t.pending = s.pending ∧ t.cfgReadValue = s.cfgReadValue ∧
    t.mem.frame = s.mem.frame ∧ t.fragFlags = s.fragFlags ∧ t.fragSeq = s.fragSeq ∧
    t.fragSid = s.fragSid ∧ t.fragValid = s.fragValid ∧ t.isEncrypted = s.isEncrypted ∧
    t.fc = opcode i ∧ (∃ rs, t.out = s.out ++ rs) ∧
    ((∀ e, i ≠ .frag e) → t.mem.store = s.mem.store ∧ t.savedFragmented = s.savedFragmented) ∧
    (∀ sid seq, sid ≠ s.fragSid → Store.slot t.mem.store sid seq = Store.slot s.mem.store sid seq)

/-! ## Extended-header elements (`41_ehdr_elements.md`) -/

/-- Types 1 and 2 (R188, R189). With the required length their fields, read one after another, each fault
leaving what came before it; with any other length the mismatch policy of R187: the event and no field
of their own, then under the abort policy the activation returns, and without it the element is stepped
over. -/
def Obligations.ElementRequestAck : Prop :=
  ∀ s : State,
    (s.fits 3 → s.headAt + 4 ≤ s.caplen → exec (.ehRequest 3) s =
      .next (s.elementShown 1 3 [s.wholeField .ehRqMinislots (s.headAt + 1) 1,
        s.wholeField .ehSid (s.headAt + 2) 2]).steppedOver) ∧
    (s.fits 2 → s.headAt + 3 ≤ s.caplen → exec (.ehAckReq 2) s =
      .next (s.elementShown 2 2 [s.wholeField .ehSid (s.headAt + 1) 2]).steppedOver) ∧
    (s.fits 3 → s.caplen < s.headAt + 2 → exec (.ehRequest 3) s =
      .next ((s.elementShown 1 3 []).faulted (s.headAt + 1))) ∧
    (s.fits 3 → s.headAt + 2 ≤ s.caplen → s.caplen < s.headAt + 4 → exec (.ehRequest 3) s =
      .next ((s.elementShown 1 3 [s.wholeField .ehRqMinislots (s.headAt + 1) 1]).faulted (s.headAt + 2))) ∧
    (s.fits 2 → s.caplen < s.headAt + 3 → exec (.ehAckReq 2) s =
      .next ((s.elementShown 2 2 []).faulted (s.headAt + 1))) ∧
    ∀ (type len : BitVec 4) (i : Instr),
      (type = 1 ∧ len ≠ 3 ∧ i = .ehRequest len) ∨ (type = 2 ∧ len ≠ 2 ∧ i = .ehAckReq len) →
      s.fits len →
      (s.cfg.abortViewOnElementError = false → exec i s =
        .next (s.elementShown type len [.event .ehLenMismatch s.headAt]).steppedOver) ∧
      (s.cfg.abortViewOnElementError = true → s.callers = [] → exec i s =
        .next { s.elementShown type len [.event .ehLenMismatch s.headAt] with phase := .tail }) ∧
      (∀ c cs, s.cfg.abortViewOnElementError = true → s.callers = c :: cs → exec i s =
        .next { s.elementShown type len [.event .ehLenMismatch s.headAt] with
          view := { c with pos := c.pos + c.len.toNat + 1 }, callers := cs })

/-- Type 3 (R190), whatever its length: outside fragment context the privacy fields and `is_encrypted`;
in it also the fragment byte, which loads the scratch registers and sets `frag_valid`. The places of the
bits are the spec's defaults (log 9). -/
def Obligations.ElementUpPrivacy : Prop :=
  ∀ (s : State) (len : BitVec 4), s.fits len →
    (s.fragmented = false → s.headAt + 5 ≤ s.caplen → exec (.ehUpPrivacy len) s =
      .next { (s.elementShown 3 len (s.privacyRecords .ehSid14 s.headAt ++
          [s.wholeField .ehMinislots (s.headAt + 4) 1])).steppedOver with
        isEncrypted := s.enableAt s.headAt }) ∧
    (s.fragmented = true → s.headAt + 6 ≤ s.caplen → exec (.ehUpPrivacy len) s =
      .next { (s.elementShown 3 len (s.privacyRecords .ehSid14 s.headAt ++
          [s.wholeField .ehMinislots (s.headAt + 4) 1] ++ s.fragmentRecords s.headAt)).steppedOver with
        isEncrypted := s.enableAt s.headAt
        fragFlags := BitVec.ofNat 2 (s.valueAt (s.headAt + 5) 1 / 16)
        fragSeq := BitVec.ofNat 4 (s.valueAt (s.headAt + 5) 1)
        fragSid := BitVec.ofNat 14 (s.valueAt (s.headAt + 2) 2)
        fragValid := true })

/-- Types 4 and 7 (R191, R194), whatever their length: the privacy fields and `is_encrypted`; no scratch
register even in fragment context. The places of the bits are the spec's defaults (log 9). -/
def Obligations.ElementOtherPrivacy : Prop :=
  ∀ (s : State) (len : BitVec 4), s.fits len →
    (s.headAt + 5 ≤ s.caplen → exec (.ehDownPrivacy len) s =
      .next { (s.elementShown 4 len (s.privacyRecords .ehSaid s.headAt ++
          [s.wholeField .ehRsvd8 (s.headAt + 4) 1])).steppedOver with
        isEncrypted := s.enableAt s.headAt }) ∧
    (s.headAt + 4 ≤ s.caplen → exec (.ehUpPrivacy2 len) s =
      .next { (s.elementShown 7 len (s.privacyRecords .ehSid14 s.headAt)).steppedOver with
        isEncrypted := s.enableAt s.headAt })

/-- Types 5 and 6 (R192, R193): the first byte is read even with length 0, the second with length 2 only;
type 6 with length 2 is relabelled before its fields (R186). The places of the bits are the spec's
defaults (log 9). -/
def Obligations.ElementServiceFlow : Prop :=
  ∀ (s : State) (len : BitVec 4), s.fits len → s.headAt + (if len = 2 then 3 else 2) ≤ s.caplen →
    exec (.ehSfPhs5 len) s =
      .next (s.elementShown 5 len (s.serviceRecords s.headAt len)).steppedOver ∧
    exec (.ehSfPhs6 len) s =
      .next (s.elementShown 6 len ((if len = 2 then [.note .ehUgsLabel s.headAt] else []) ++
        s.serviceRecords s.headAt len)).steppedOver

/-- Types 8 and 9 (R195, R196) at every length. The places of the bits are the spec's defaults (log 9).
-/
def Obligations.ElementServicePath : Prop :=
  ∀ (s : State) (len : BitVec 4), s.fits len →
    (s.headAt + (if len = 3 then 4 else if len = 5 then 6 else 2) ≤ s.caplen →
      exec (.ehDownService len) s =
        .next (s.elementShown 8 len (s.downServiceRecords s.headAt len)).steppedOver) ∧
    (len ≠ 5 → exec (.ehPathVerify len) s = .next (s.elementShown 9 len []).steppedOver) ∧
    (len = 5 → s.headAt + 6 ≤ s.caplen → exec (.ehPathVerify len) s =
      .next (s.elementShown 9 len [s.wholeField .ehPvStartref (s.headAt + 1) 1,
        s.wholeField .ehPvTs (s.headAt + 2) 4]).steppedOver)

/-- Types 0 and 10 to 14 (R198): the value as opaque bytes where there is one; a value that is not
captured faults. -/
def Obligations.ElementDefault : Prop :=
  ∀ (s : State) (len : BitVec 4), s.fits len →
    ∀ type i, (type, i) ∈ [((0 : BitVec 4), Instr.ehNull len), (10, .ehRsvd10 len), (11, .ehRsvd11 len),
        (12, .ehRsvd12 len), (13, .ehRsvd13 len), (14, .ehRsvd14 len)] →
      (len = 0 → exec i s = .next (s.elementShown type len []).steppedOver) ∧
      (len ≠ 0 → s.headAt + 1 + len.toNat ≤ s.caplen → exec i s =
        .next (s.elementShown type len [.field .ehVal (s.headAt + 1) len.toNat
          (.bytes (slice s.mem.frame (s.headAt + 1) len.toNat)) none]).steppedOver) ∧
      (len ≠ 0 → s.caplen < s.headAt + 1 + len.toNat → exec i s =
        .next ((s.elementShown type len []).faulted (s.headAt + 1)))

/-- Type 15 (R197, R180): a new activation on the view that begins at the head byte, its byte count the
byte after it; the caller waits, its own cursor unchanged. That the new activation's `h`, `type` and `len`
are 0 before its first head byte is the model's (log 30). -/
def Obligations.ElementExtended : Prop :=
  ∀ (s : State) (len : BitVec 4), s.fits len → s.headAt + 2 ≤ s.caplen →
    exec (.ehExtended len) s = .next { s.elementShown 15 len [] with
      view := { b := s.headAt, ehdrlen := BitVec.ofNat 8 (s.valueAt (s.headAt + 1) 1),
                viewEnd := s.valueAt (s.headAt + 1) 1 + 4, pos := 4, h := 0, type := 0, len := 0 }
      callers := { s.view with h := (15 : BitVec 4) ++ len, type := 15, len := len } :: s.callers
      phase := .walk }

/-- The past-end check (R185), for every element: one event, no field of the element, and the activation
returns. -/
def Obligations.PastEndLeavesView : Prop :=
  ∀ (s : State) (type len : BitVec 4) (i : Instr), i.space = .element → opcode i = type ++ len →
    ¬ s.fits len →
    (s.callers = [] → exec i s = .next { s with
      view := { s.view with h := type ++ len, type := type, len := len }
      out := s.out ++ [.event .ehPastEnd s.headAt]
      phase := .tail }) ∧
    (∀ c cs, s.callers = c :: cs → exec i s = .next { s with
      view := { c with pos := c.pos + c.len.toNat + 1 }
      callers := cs
      out := s.out ++ [.event .ehPastEnd s.headAt] })

/-- Reads are guarded by the captured length alone (R184): an element whose bytes run out faults at the
offset of the read that does not fit, and what came before it stands (`60_exceptions.md` R318). Every
read of types 3 to 9 and 15, whatever the length where it does not choose the reads, in fragment context
and outside it (R190 to R197); types 0 to 2 and 10 to 14 are in `ElementRequestAck` and `ElementDefault`.
The places of the bits are the spec's defaults (log 9). -/
def Obligations.ElementReadFaults : Prop :=
  ∀ (s : State) (len : BitVec 4), s.fits len →
    let p := s.headAt
    let trafpri := numField .ehTrafpri (p + 1) 1 (s.valueAt (p + 1) 1 / 32)
    let seqchg := numField .ehSeqchg (p + 1) 1 (s.valueAt (p + 1) 1 / 16 % 2)
    let dsid := numField .ehDsid (p + 1) 3 (s.valueAt (p + 1) 3 % 1048576)
    (∀ type id i, (type, id, i) ∈ [((3 : BitVec 4), FieldId.ehSid14, Instr.ehUpPrivacy len),
        (4, .ehSaid, .ehDownPrivacy len), (7, .ehSid14, .ehUpPrivacy2 len)] →
      (s.caplen < p + 2 → exec i s = .next ((s.elementShown type len []).faulted (p + 1))) ∧
      (p + 2 ≤ s.caplen → s.caplen < p + 4 → exec i s = .next ((s.elementShown type len
        [numField .ehKeyseq (p + 1) 1 (s.valueAt (p + 1) 1 / 16),
          numField .ehVer (p + 1) 1 (s.valueAt (p + 1) 1 % 16)]).faulted (p + 2))) ∧
      (type ≠ 7 → p + 4 ≤ s.caplen → s.caplen < p + 5 → exec i s =
        .next (State.faulted { s.elementShown type len (s.privacyRecords id p) with
          isEncrypted := s.enableAt p } (p + 4)))) ∧
    (s.fragmented = true → p + 5 ≤ s.caplen → s.caplen < p + 6 → exec (.ehUpPrivacy len) s =
      .next (State.faulted { s.elementShown 3 len (s.privacyRecords .ehSid14 p ++
        [s.wholeField .ehMinislots (p + 4) 1]) with isEncrypted := s.enableAt p } (p + 5))) ∧
    (∀ type i note, (type, i, note) ∈ [((5 : BitVec 4), Instr.ehSfPhs5 len, ([] : List Record)),
        (6, .ehSfPhs6 len, if len = 2 then [.note .ehUgsLabel p] else [])] →
      (s.caplen < p + 2 → exec i s = .next ((s.elementShown type len note).faulted (p + 1))) ∧
      (len = 2 → p + 2 ≤ s.caplen → s.caplen < p + 3 → exec i s =
        .next ((s.elementShown type len (note ++ [s.wholeField .ehPhsi (p + 1) 1])).faulted (p + 2)))) ∧
    (s.caplen < p + 2 → exec (.ehDownService len) s =
      .next ((s.elementShown 8 len []).faulted (p + 1))) ∧
    (len = 3 → p + 2 ≤ s.caplen → s.caplen < p + 4 → exec (.ehDownService len) s =
      .next ((s.elementShown 8 len [trafpri]).faulted (p + 1))) ∧
    (len = 5 → p + 2 ≤ s.caplen → s.caplen < p + 4 → exec (.ehDownService len) s =
      .next ((s.elementShown 8 len [trafpri, seqchg]).faulted (p + 1))) ∧
    (len = 5 → p + 4 ≤ s.caplen → s.caplen < p + 6 → exec (.ehDownService len) s =
      .next ((s.elementShown 8 len [trafpri, seqchg, dsid]).faulted (p + 4))) ∧
    (len = 5 → s.caplen < p + 2 → exec (.ehPathVerify len) s =
      .next ((s.elementShown 9 len []).faulted (p + 1))) ∧
    (len = 5 → p + 2 ≤ s.caplen → s.caplen < p + 6 → exec (.ehPathVerify len) s =
      .next ((s.elementShown 9 len [s.wholeField .ehPvStartref (p + 1) 1]).faulted (p + 2))) ∧
    (s.caplen < p + 2 → exec (.ehExtended len) s =
      .next ((s.elementShown 15 len []).faulted (p + 1)))

/-- What an element leaves alone, whatever way it ends: both memories, the configuration, the header
registers, `proceed`, the queue; `is_encrypted` but for types 3, 4 and 7; the scratch registers and
`frag_valid` but for type 3 in fragment context; `fragmented` and `status` unless it faults
(`10_state.md` R28, R34 to R36, `41_ehdr_elements.md` R201). -/
def Obligations.ElementFrame : Prop :=
  ∀ (i : Instr) (s t : State), i.space = .element → exec i s = .next t →
    t.mem = s.mem ∧ t.cfg = s.cfg ∧ t.fc = s.fc ∧ t.fctype = s.fctype ∧ t.fcparm = s.fcparm ∧
    t.ehdron = s.ehdron ∧ t.macParm = s.macParm ∧ t.lenSid = s.lenSid ∧ t.hdrlen = s.hdrlen ∧
    t.payloadLength = s.payloadLength ∧ t.pdulen = s.pdulen ∧ t.savedFragmented = s.savedFragmented ∧
    t.proceed = s.proceed ∧ t.cfgReadValue = s.cfgReadValue ∧ t.pending = s.pending ∧
    (∃ rs, t.out = s.out ++ rs) ∧
    ((∀ n, i ≠ .ehUpPrivacy n ∧ i ≠ .ehDownPrivacy n ∧ i ≠ .ehUpPrivacy2 n) →
      t.isEncrypted = s.isEncrypted) ∧
    (s.fragmented = false ∨ (∀ n, i ≠ .ehUpPrivacy n) →
      t.fragFlags = s.fragFlags ∧ t.fragSeq = s.fragSeq ∧ t.fragSid = s.fragSid ∧
      t.fragValid = s.fragValid) ∧
    ((t.status = s.status ∧ t.fragmented = s.fragmented) ∨
      ∃ u off, t = State.faulted u off ∧ off < s.headAt + 6)

/-! ## The Fragmentation-Header frame (`43_reassembly.md`) -/

/-- `FRAG` without an extended header has no fragment information: after the header check it ends at the
first gate that is shut (R262 to R266). The check functions are the spec's defaults (log 7). -/
def Obligations.FragWithoutWalk : Prop :=
  ∀ s : State, 6 ≤ s.caplen → s.fragValid = false →
    let t : State := { (s.prologueDone 3 3 false).headerShown with
      savedFragmented := s.fragmented, fragmented := true }
    (t.hcsVerdict defaultParams = .bad → exec (.frag false) s = .next (t.hcsDone defaultParams).frameOver) ∧
    (t.hcsVerdict defaultParams ≠ .bad → t.pdulen < 4 ∨ t.payloadLength < 4 → exec (.frag false) s =
      .next ((t.hcsDone defaultParams).withRecords [.event .fragTooShort t.hdrlen]).frameOver) ∧
    (t.hcsVerdict defaultParams ≠ .bad → 4 ≤ t.pdulen → 4 ≤ t.payloadLength →
      t.caplen < t.hdrlen + t.pdulen.toNat →
      exec (.frag false) s = .next ((t.hcsDone defaultParams).faulted t.fcsAt)) ∧
    (t.hcsVerdict defaultParams ≠ .bad → t.fcsCaptured → ¬ t.fcsGood defaultParams →
      exec (.frag false) s = .next ((t.hcsDone defaultParams).withRecords
        [t.fcsRecord .bad, .event .badFragFcs t.fcsAt]).frameOver) ∧
    (t.hcsVerdict defaultParams ≠ .bad → t.fcsCaptured → t.fcsGood defaultParams →
      exec (.frag false) s = .next ((t.hcsDone defaultParams).withRecords
        [t.fcsRecord .good, .event .fragNoInfo t.hdrlen]).frameOver)

/-- A fragment frame that declares or carries less than the CRC: one event, no CRC read, nothing
submitted (R264); one whose CRC is not captured faults at its offset (R265, `42_checksums.md` R234). The
phases are the model's (log 1), the check functions the spec's defaults (log 7). -/
def Obligations.FragTooShort : Prop :=
  ∀ s : State, s.fragReady defaultParams →
    (s.pdulen < 4 ∨ s.payloadLength < 4 → step s =
      .next ((s.hcsDone defaultParams).withRecords [.event .fragTooShort s.hdrlen]).frameOver) ∧
    (4 ≤ s.pdulen → 4 ≤ s.payloadLength → s.caplen < s.hdrlen + s.pdulen.toNat → step s =
      .next ((s.hcsDone defaultParams).faulted s.fcsAt))

/-- A fragment whose CRC is wrong: the field marked bad, the event, nothing submitted, the store
unchanged (R265, `60_exceptions.md` R317). A good one with no fragment information is not submitted
either (R266). The phases are the model's (log 1), the check functions the spec's defaults (log 7). -/
def Obligations.FragNotSubmitted : Prop :=
  ∀ s : State, s.fragReady defaultParams → s.fcsCaptured →
    (¬ s.fcsGood defaultParams → step s = .next ((s.hcsDone defaultParams).withRecords
      [s.fcsRecord .bad, .event .badFragFcs s.fcsAt]).frameOver) ∧
    (s.fcsGood defaultParams → s.fragValid = false → step s = .next ((s.hcsDone defaultParams).withRecords
      [s.fcsRecord .good, .event .fragNoInfo s.hdrlen]).frameOver)

/-- A good fragment that is not flagged last and whose slot is empty is stored with its first flag, and
only noted (R253 to R255, R267, R271). The phases are the model's (log 1), the check functions the spec's defaults (log 7). -/
def Obligations.FragBuffered : Prop :=
  ∀ s : State, s.fragReady defaultParams → s.fcsCaptured → s.fcsGood defaultParams →
    s.fragValid = true → s.fragFlags ≠ 0b01 → Store.slot s.mem.store s.fragSid s.fragSeq = none →
    step s = .next (State.frameOver (State.setStore
      ((s.hcsDone defaultParams).withRecords [s.fcsRecord .good, .note .fragN s.fragSeq.toNat])
      (Store.write s.mem.store s.fragSid s.fragSeq s.fragmentData (s.fragFlags.getLsbD 1))))

/-- A good fragment whose slot is full is dropped, whatever its flags (R254, R271, `60_exceptions.md`
R321). The phases are the model's (log 1), the check functions the spec's defaults (log 7). -/
def Obligations.FragDuplicate : Prop :=
  ∀ s : State, s.fragReady defaultParams → s.fcsCaptured → s.fcsGood defaultParams →
    s.fragValid = true → Store.slot s.mem.store s.fragSid s.fragSeq ≠ none →
    step s = .next ((s.hcsDone defaultParams).withRecords
      [s.fcsRecord .good, .event .fragDuplicate s.hdrlen, .note .fragN s.fragSeq.toNat]).frameOver

/-- A good fragment flagged last whose slot is empty completes its group: the gathered buffer is reported
and handed to the configured continuation, with the encrypted check of this frame, and the group is
released (R254, R256, R258, R268, R269). The phases are the model's (log 1), the check functions and the address fields the spec's defaults (logs 7, 10). -/
def Obligations.FragComplete : Prop :=
  ∀ s : State, s.fragReady defaultParams → s.fcsCaptured → s.fcsGood defaultParams →
    s.fragValid = true → s.fragFlags = 0b01 → Store.slot s.mem.store s.fragSid s.fragSeq = none →
    let st := Store.write s.mem.store s.fragSid s.fragSeq s.fragmentData false
    let present := Store.gathered st s.fragSid s.fragSeq
    let buf := present.flatMap (·.2.data)
    let cont := match s.cfg.reasmTarget with
      | .ethNofcs => Cont.ethNofcs
      | .macMgmt => Cont.macMgmt
      | .rawData => Cont.rawData
    ∃ c : Bool, (c = true ↔ contiguousRun present s.fragSeq) ∧
      step s = .next (State.frameOver (State.setStore
        ((s.hcsDone defaultParams).withRecords ([s.fcsRecord .good,
          .reasm s.fragSid present.length c buf.length buf] ++
          s.payloadRecords cont .reasm 0 buf.length buf))
        (Store.release st s.fragSid)))

/-- For any CRC function: a fragment whose CRC does not match is never stored (R265, `42_checksums.md`
R237). -/
def Obligations.BadFragmentNeverStored : Prop :=
  ∀ (P : Config.Params) (s : State), ¬ s.fcsGood P →
    match (tailFrag P).run s with
    | .ok _ t => t.mem.store = s.mem.store
    | .error _ t => t.mem.store = s.mem.store

/-- Which slots the end of a fragment frame may change: none outside the group of `frag_sid`; unless the
fragment is flagged last, none but `(frag_sid, frag_seq)`; and none at all where that slot is full
(R251, R254). -/
def Obligations.FragStoreFrame : Prop :=
  ∀ s t : State, s.phase = .tail → step s = .next t →
    (∀ sid seq, sid ≠ s.fragSid → Store.slot t.mem.store sid seq = Store.slot s.mem.store sid seq) ∧
    (s.fragFlags ≠ 0b01 → ∀ seq, seq ≠ s.fragSeq →
      Store.slot t.mem.store s.fragSid seq = Store.slot s.mem.store s.fragSid seq) ∧
    (Store.slot s.mem.store s.fragSid s.fragSeq ≠ none → t.mem.store = s.mem.store) ∧
    (¬ s.isFrag → t.mem.store = s.mem.store)

/-! ## The reassembly engine (`43_reassembly.md`) -/

/-- `add_fragment` (R253 to R258). A full slot keeps its fragment and the arrival is dropped. An arrival
that is not LAST is stored with its first flag and nothing else happens. A LAST one is stored too; the
buffer is the gathered fragments' bytes, the contiguous bit says that they form one run with one first
flag, and the group is released. -/
def Obligations.AddFragmentResults : Prop :=
  ∀ (st : Store) (sid : Sid) (seq : Seq4) (flags : BitVec 2) (data : List Byte),
    (Store.slot st sid seq ≠ none → addFragment st sid seq flags data = (.duplicate, st)) ∧
    (Store.slot st sid seq = none → flags ≠ 0b01 → addFragment st sid seq flags data =
      (.buffered, Store.write st sid seq data (flags.getLsbD 1))) ∧
    (Store.slot st sid seq = none → flags = 0b01 →
      let present := Store.gathered (Store.write st sid seq data false) sid seq
      ∃ c : Bool, (c = true ↔ contiguousRun present seq) ∧ 1 ≤ present.length ∧ present.length ≤ 16 ∧
        addFragment st sid seq flags data =
          (.complete (present.flatMap (·.2.data)) present.length c,
            Store.release (Store.write st sid seq data false) sid))

/-- Completeness (R259 (a), (c)): the 2 to 16 fragments of a message, submitted in order to an empty group
with consecutive numbers modulo 16, the first flagged first and the last flagged last, are buffered but
for the last, which completes with their concatenation, contiguous; the store is then as before. -/
def Obligations.MessageReassembles : Prop :=
  ∀ (st : Store) (sid : Sid) (q : Seq4) (d : List Byte) (ds : List (List Byte)),
    Store.groupEmpty st sid → 1 ≤ ds.length → ds.length ≤ 15 →
    submitAll sid st (⟨q, 0b10, d⟩ :: laterFragments (q + 1) ds) =
      (List.replicate ds.length .buffered ++ [.complete (d ++ ds.flatten) (ds.length + 1) true], st)

/-- Order independence (R259 (b)): fragments with distinct numbers, none of them flagged last, leave the
same store in whatever order they arrive, so the LAST arrival has the same result. -/
def Obligations.OrderIndependence : Prop :=
  ∀ (m : Memory) (sid : Sid) (l l' : List Submission) (last : Submission), m.wf → l.Perm l' →
    (l.map Submission.seq).Nodup → (∀ f ∈ l, f.flags ≠ 0b01) →
    (submitAll sid m.store l).2 = (submitAll sid m.store l').2 ∧
    addFragment (submitAll sid m.store l).2 sid last.seq last.flags last.data =
      addFragment (submitAll sid m.store l').2 sid last.seq last.flags last.data

/-! ## Checksums (`42_checksums.md`) -/

/-- The fragment check for any CRC function (R234): the value read at the offset given, and whether it is
the CRC of all captured bytes but the last four; nothing changes. A value that is not captured faults. -/
def Obligations.FragmentCheck : Prop :=
  ∀ (P : Config.Params) (s : State) (o : Nat),
    (o + 4 ≤ s.caplen → ∃ ok : Bool,
      (ok = true ↔ (P.crc32Field (slice s.mem.frame 0 (s.caplen - 4))).toNat = s.valueAt o 4) ∧
      (fragFcs P o).run s = .ok (s.valueAt o 4, ok) s) ∧
    (s.caplen < o + 4 → (fragFcs P o).run s = .error o s)

/-- Round trip for any CRC functions (R239): a header followed by the big-endian CRC of its bytes passes
its check, and bytes followed by their big-endian fragment CRC pass theirs. -/
def Obligations.ChecksumRoundTrip : Prop :=
  ∀ (P : Config.Params) (s : State) (hdr rest : List Byte),
    (s.mem.frame = hdr ++ [(P.crc16Field hdr).extractLsb' 8 8, (P.crc16Field hdr).extractLsb' 0 8] ++ rest →
      s.hdrlen = hdr.length + 2 → s.cfg.validateHcs = true →
      ∃ t, (hcsCheck P).run s = .ok () t ∧ t.proceed = true ∧
        t.out = s.out ++ [.field .hcs hdr.length 2 (.num (P.crc16Field hdr).toNat) (some .good)]) ∧
    (s.mem.frame = hdr ++ [(P.crc32Field hdr).extractLsb' 24 8, (P.crc32Field hdr).extractLsb' 16 8,
        (P.crc32Field hdr).extractLsb' 8 8, (P.crc32Field hdr).extractLsb' 0 8] →
      (fragFcs P hdr.length).run s = .ok ((P.crc32Field hdr).toNat, true) s)

/-- The check values of the default functions (R233, R236), which are general knowledge but for their
polynomials (log 7). -/
def Obligations.CrcCheckValues : Prop :=
  x25 [0x31, 0x32, 0x33, 0x34, 0x35, 0x36, 0x37, 0x38, 0x39] = 0x906E ∧
  crc32 [0x31, 0x32, 0x33, 0x34, 0x35, 0x36, 0x37, 0x38, 0x39] = 0xCBF43926 ∧
  crc16Field [0xC4, 0x05, 0x00, 0x10] = 0xD79C ∧ crc16Field [0xC8, 0x12, 0x34, 0x00, 0x10] = 0xB9D1

/-- A single flipped bit is always detected by the default functions (R238; they are general knowledge but
for their polynomials, log 7). -/
def Obligations.SingleBitDetected : Prop :=
  ∀ (pre post : List Byte) (x : Byte) (k : Nat), k < 8 →
    crc16Field (pre ++ [x ^^^ (1#8 <<< k)] ++ post) ≠ crc16Field (pre ++ [x] ++ post) ∧
    crc32Field (pre ++ [x ^^^ (1#8 <<< k)] ++ post) ≠ crc32Field (pre ++ [x] ++ post)

/-! ## Invariants and rules of the whole machine -/

/-- The reassembly store keeps its canonical form (log 28) through every step. -/
def Obligations.StoreCanonicalKept : Prop :=
  ∀ s t : State, s.mem.wf → step s = .next t → t.mem.wf

/-- The decoder's registers keep the bounds of `70_reset_and_hazards.md` R366 and the nesting of views
(`20_memory.md` R69, `41_ehdr_elements.md` R197) through every step. -/
def Obligations.WalkBoundsKept : Prop :=
  ∀ s t : State, s.walkOk → step s = .next t → t.walkOk

/-- The header registers keep what R21 to R24, R153 and R366 say of them through every step. -/
def Obligations.HeaderRegistersKept : Prop :=
  ∀ s t : State, s.headerOk → step s = .next t → t.headerOk

/-- `fragmented` is 1 exactly while a Fragmentation-Header frame is in progress, through every step
(`10_state.md` R29, `70_reset_and_hazards.md` R358). -/
def Obligations.FragContextKept : Prop :=
  ∀ s t : State, s.fragContextOk → step s = .next t → t.fragContextOk

/-- Every record stays as `10_state.md` R41, R43 and R45 say: fields within the captured bytes and as wide
as their `n`, hand-offs of the frame reaching to its end, the two address fields six bytes each at the
beginning of the encrypted slice handed off last (`40_frame_classes.md` R140; their places in it are the
spec's default, log 10). -/
def Obligations.RecordsKept : Prop :=
  ∀ s t : State, s.recordsOk → step s = .next t → t.recordsOk

/-- `status` is FAULT exactly with the fault report as the last record, through every step (`10_state.md`
R37, `60_exceptions.md` R318, R326). -/
def Obligations.StatusKept : Prop :=
  ∀ s t : State, s.statusOk → step s = .next t → t.statusOk

/-- The state after reset meets every invariant. -/
def Obligations.ResetMeetsInvariants : Prop :=
  State.reset.mem.wf ∧ State.reset.walkOk ∧ State.reset.headerOk ∧ State.reset.fragContextOk ∧
    State.reset.recordsOk ∧ State.reset.statusOk

/-- Nothing a frame does changes the configuration, the host's queue, what `CFG_READ` returned, the frame
buffer, or a group other than that of the SID the fragment carries; records are only added (R330, R352,
`20_memory.md` R65). -/
def Obligations.FrameChangesLittle : Prop :=
  ∀ s t : State, s.phase ≠ .idle → step s = .next t →
    t.cfg = s.cfg ∧ t.pending = s.pending ∧ t.cfgReadValue = s.cfgReadValue ∧
    t.mem.frame = s.mem.frame ∧ (∃ rs, t.out = s.out ++ rs) ∧
    ∀ sid seq, sid ≠ s.fragSid → Store.slot t.mem.store sid seq = Store.slot s.mem.store sid seq

/-- Every frame ends (`40_frame_classes.md` R152, `41_ehdr_elements.md` R199): from any state whose
decoder registers are in order, some number of steps leaves the block idle. A step is the model's (log
1). -/
def Obligations.EveryFrameEnds : Prop :=
  ∀ s : State, s.walkOk → ∃ n t, run n s = .next t ∧ t.phase = .idle

/-- What a later output can depend on (`10_state.md` R47, R49, `44_host_operations.md` R296): two states
that differ only in registers that are dead go to states that differ only in registers that are dead, for
any number of steps, with the same records, status and read values. That the dead registers hold values
at all is the model's (logs 11, 13). -/
def Obligations.DeadStateUnobservable : Prop :=
  ∀ (s t : State) (n : Nat), s.live = t.live →
    ∃ s' t', run n s = .next s' ∧ run n t = .next t' ∧ s'.live = t'.live ∧ s'.out = t'.out ∧
      s'.status = t'.status ∧ s'.cfgReadValue = t'.cfgReadValue ∧ s'.phase = t'.phase

/-- Re-dissection is idempotent (`44_host_operations.md` R296): after `SESSION_RESET` the same frames
give the same outputs whatever state the block was in before, under the same configuration. The queue is
the model's (log 2). -/
def Obligations.RedissectionIdempotent : Prop :=
  ∀ (s t : State) (frames : List (List Byte)) (n : Nat), s.phase = .idle → t.phase = .idle →
    s.cfg = t.cfg → s.pending = .sessionReset :: frames.map .frameIn →
    t.pending = .sessionReset :: frames.map .frameIn →
    ∃ s' t', run (n + 1) s = .next s' ∧ run (n + 1) t = .next t' ∧ s'.out = t'.out ∧
      s'.status = t'.status ∧ s'.phase = t'.phase
end

