-- ==== Sys2Proof/Laws/State.lean ====
section
/-! SUPPORT. One lemma for each field and each named update of the state, so that no proof unfolds a
record update. -/

namespace Sys2Proof.Machine

/-! ## `State.addRecord` -/

@[simp] theorem State.addRecord_mem (s : State) (r : Record) : (s.addRecord r).mem = s.mem := rfl
@[simp] theorem State.addRecord_cfg (s : State) (r : Record) : (s.addRecord r).cfg = s.cfg := rfl
@[simp] theorem State.addRecord_fc (s : State) (r : Record) : (s.addRecord r).fc = s.fc := rfl
@[simp] theorem State.addRecord_fctype (s : State) (r : Record) : (s.addRecord r).fctype = s.fctype := rfl
@[simp] theorem State.addRecord_fcparm (s : State) (r : Record) : (s.addRecord r).fcparm = s.fcparm := rfl
@[simp] theorem State.addRecord_ehdron (s : State) (r : Record) : (s.addRecord r).ehdron = s.ehdron := rfl
@[simp] theorem State.addRecord_macParm (s : State) (r : Record) : (s.addRecord r).macParm = s.macParm := rfl
@[simp] theorem State.addRecord_lenSid (s : State) (r : Record) : (s.addRecord r).lenSid = s.lenSid := rfl
@[simp] theorem State.addRecord_hdrlen (s : State) (r : Record) : (s.addRecord r).hdrlen = s.hdrlen := rfl
@[simp] theorem State.addRecord_payloadLength (s : State) (r : Record) : (s.addRecord r).payloadLength = s.payloadLength := rfl
@[simp] theorem State.addRecord_pdulen (s : State) (r : Record) : (s.addRecord r).pdulen = s.pdulen := rfl
@[simp] theorem State.addRecord_savedFragmented (s : State) (r : Record) : (s.addRecord r).savedFragmented = s.savedFragmented := rfl
@[simp] theorem State.addRecord_view (s : State) (r : Record) : (s.addRecord r).view = s.view := rfl
@[simp] theorem State.addRecord_callers (s : State) (r : Record) : (s.addRecord r).callers = s.callers := rfl
@[simp] theorem State.addRecord_isEncrypted (s : State) (r : Record) : (s.addRecord r).isEncrypted = s.isEncrypted := rfl
@[simp] theorem State.addRecord_fragmented (s : State) (r : Record) : (s.addRecord r).fragmented = s.fragmented := rfl
@[simp] theorem State.addRecord_proceed (s : State) (r : Record) : (s.addRecord r).proceed = s.proceed := rfl
@[simp] theorem State.addRecord_fragValid (s : State) (r : Record) : (s.addRecord r).fragValid = s.fragValid := rfl
@[simp] theorem State.addRecord_fragFlags (s : State) (r : Record) : (s.addRecord r).fragFlags = s.fragFlags := rfl
@[simp] theorem State.addRecord_fragSeq (s : State) (r : Record) : (s.addRecord r).fragSeq = s.fragSeq := rfl
@[simp] theorem State.addRecord_fragSid (s : State) (r : Record) : (s.addRecord r).fragSid = s.fragSid := rfl
@[simp] theorem State.addRecord_out (s : State) (r : Record) : (s.addRecord r).out = s.out ++ [r] := rfl
@[simp] theorem State.addRecord_status (s : State) (r : Record) : (s.addRecord r).status = s.status := rfl
@[simp] theorem State.addRecord_cfgReadValue (s : State) (r : Record) : (s.addRecord r).cfgReadValue = s.cfgReadValue := rfl
@[simp] theorem State.addRecord_phase (s : State) (r : Record) : (s.addRecord r).phase = s.phase := rfl
@[simp] theorem State.addRecord_pending (s : State) (r : Record) : (s.addRecord r).pending = s.pending := rfl
@[simp] theorem State.addRecord_caplen (s : State) (r : Record) : (s.addRecord r).caplen = s.caplen := rfl
@[simp] theorem State.addRecord_valueAt (s : State) (r : Record) (off cnt : Nat) :
    (s.addRecord r).valueAt off cnt = s.valueAt off cnt := rfl
@[simp] theorem State.addRecord_enableAt (s : State) (r : Record) (off : Nat) :
    (s.addRecord r).enableAt off = s.enableAt off := rfl

/-! ## `State.setStore` -/

@[simp] theorem State.setStore_mem (s : State) (st : Store) : (s.setStore st).mem = ⟨s.mem.frame, st⟩ := rfl
@[simp] theorem State.setStore_cfg (s : State) (st : Store) : (s.setStore st).cfg = s.cfg := rfl
@[simp] theorem State.setStore_fc (s : State) (st : Store) : (s.setStore st).fc = s.fc := rfl
@[simp] theorem State.setStore_fctype (s : State) (st : Store) : (s.setStore st).fctype = s.fctype := rfl
@[simp] theorem State.setStore_fcparm (s : State) (st : Store) : (s.setStore st).fcparm = s.fcparm := rfl
@[simp] theorem State.setStore_ehdron (s : State) (st : Store) : (s.setStore st).ehdron = s.ehdron := rfl
@[simp] theorem State.setStore_macParm (s : State) (st : Store) : (s.setStore st).macParm = s.macParm := rfl
@[simp] theorem State.setStore_lenSid (s : State) (st : Store) : (s.setStore st).lenSid = s.lenSid := rfl
@[simp] theorem State.setStore_hdrlen (s : State) (st : Store) : (s.setStore st).hdrlen = s.hdrlen := rfl
@[simp] theorem State.setStore_payloadLength (s : State) (st : Store) : (s.setStore st).payloadLength = s.payloadLength := rfl
@[simp] theorem State.setStore_pdulen (s : State) (st : Store) : (s.setStore st).pdulen = s.pdulen := rfl
@[simp] theorem State.setStore_savedFragmented (s : State) (st : Store) : (s.setStore st).savedFragmented = s.savedFragmented := rfl
@[simp] theorem State.setStore_view (s : State) (st : Store) : (s.setStore st).view = s.view := rfl
@[simp] theorem State.setStore_callers (s : State) (st : Store) : (s.setStore st).callers = s.callers := rfl
@[simp] theorem State.setStore_isEncrypted (s : State) (st : Store) : (s.setStore st).isEncrypted = s.isEncrypted := rfl
@[simp] theorem State.setStore_fragmented (s : State) (st : Store) : (s.setStore st).fragmented = s.fragmented := rfl
@[simp] theorem State.setStore_proceed (s : State) (st : Store) : (s.setStore st).proceed = s.proceed := rfl
@[simp] theorem State.setStore_fragValid (s : State) (st : Store) : (s.setStore st).fragValid = s.fragValid := rfl
@[simp] theorem State.setStore_fragFlags (s : State) (st : Store) : (s.setStore st).fragFlags = s.fragFlags := rfl
@[simp] theorem State.setStore_fragSeq (s : State) (st : Store) : (s.setStore st).fragSeq = s.fragSeq := rfl
@[simp] theorem State.setStore_fragSid (s : State) (st : Store) : (s.setStore st).fragSid = s.fragSid := rfl
@[simp] theorem State.setStore_out (s : State) (st : Store) : (s.setStore st).out = s.out := rfl
@[simp] theorem State.setStore_status (s : State) (st : Store) : (s.setStore st).status = s.status := rfl
@[simp] theorem State.setStore_cfgReadValue (s : State) (st : Store) : (s.setStore st).cfgReadValue = s.cfgReadValue := rfl
@[simp] theorem State.setStore_phase (s : State) (st : Store) : (s.setStore st).phase = s.phase := rfl
@[simp] theorem State.setStore_pending (s : State) (st : Store) : (s.setStore st).pending = s.pending := rfl
@[simp] theorem State.setStore_caplen (s : State) (st : Store) : (s.setStore st).caplen = s.caplen := rfl
@[simp] theorem State.setStore_valueAt (s : State) (st : Store) (off cnt : Nat) :
    (s.setStore st).valueAt off cnt = s.valueAt off cnt := rfl
@[simp] theorem State.setStore_enableAt (s : State) (st : Store) (off : Nat) :
    (s.setStore st).enableAt off = s.enableAt off := rfl

/-! ## `State.setView` -/

@[simp] theorem State.setView_mem (s : State) (v : View) : (s.setView v).mem = s.mem := rfl
@[simp] theorem State.setView_cfg (s : State) (v : View) : (s.setView v).cfg = s.cfg := rfl
@[simp] theorem State.setView_fc (s : State) (v : View) : (s.setView v).fc = s.fc := rfl
@[simp] theorem State.setView_fctype (s : State) (v : View) : (s.setView v).fctype = s.fctype := rfl
@[simp] theorem State.setView_fcparm (s : State) (v : View) : (s.setView v).fcparm = s.fcparm := rfl
@[simp] theorem State.setView_ehdron (s : State) (v : View) : (s.setView v).ehdron = s.ehdron := rfl
@[simp] theorem State.setView_macParm (s : State) (v : View) : (s.setView v).macParm = s.macParm := rfl
@[simp] theorem State.setView_lenSid (s : State) (v : View) : (s.setView v).lenSid = s.lenSid := rfl
@[simp] theorem State.setView_hdrlen (s : State) (v : View) : (s.setView v).hdrlen = s.hdrlen := rfl
@[simp] theorem State.setView_payloadLength (s : State) (v : View) : (s.setView v).payloadLength = s.payloadLength := rfl
@[simp] theorem State.setView_pdulen (s : State) (v : View) : (s.setView v).pdulen = s.pdulen := rfl
@[simp] theorem State.setView_savedFragmented (s : State) (v : View) : (s.setView v).savedFragmented = s.savedFragmented := rfl
@[simp] theorem State.setView_view (s : State) (v : View) : (s.setView v).view = v := rfl
@[simp] theorem State.setView_callers (s : State) (v : View) : (s.setView v).callers = s.callers := rfl
@[simp] theorem State.setView_isEncrypted (s : State) (v : View) : (s.setView v).isEncrypted = s.isEncrypted := rfl
@[simp] theorem State.setView_fragmented (s : State) (v : View) : (s.setView v).fragmented = s.fragmented := rfl
@[simp] theorem State.setView_proceed (s : State) (v : View) : (s.setView v).proceed = s.proceed := rfl
@[simp] theorem State.setView_fragValid (s : State) (v : View) : (s.setView v).fragValid = s.fragValid := rfl
@[simp] theorem State.setView_fragFlags (s : State) (v : View) : (s.setView v).fragFlags = s.fragFlags := rfl
@[simp] theorem State.setView_fragSeq (s : State) (v : View) : (s.setView v).fragSeq = s.fragSeq := rfl
@[simp] theorem State.setView_fragSid (s : State) (v : View) : (s.setView v).fragSid = s.fragSid := rfl
@[simp] theorem State.setView_out (s : State) (v : View) : (s.setView v).out = s.out := rfl
@[simp] theorem State.setView_status (s : State) (v : View) : (s.setView v).status = s.status := rfl
@[simp] theorem State.setView_cfgReadValue (s : State) (v : View) : (s.setView v).cfgReadValue = s.cfgReadValue := rfl
@[simp] theorem State.setView_phase (s : State) (v : View) : (s.setView v).phase = s.phase := rfl
@[simp] theorem State.setView_pending (s : State) (v : View) : (s.setView v).pending = s.pending := rfl
@[simp] theorem State.setView_caplen (s : State) (v : View) : (s.setView v).caplen = s.caplen := rfl
@[simp] theorem State.setView_valueAt (s : State) (v : View) (off cnt : Nat) :
    (s.setView v).valueAt off cnt = s.valueAt off cnt := rfl
@[simp] theorem State.setView_enableAt (s : State) (v : View) (off : Nat) :
    (s.setView v).enableAt off = s.enableAt off := rfl

/-! ## `State.startView` -/

@[simp] theorem State.startView_mem (s : State) (b : Nat) (n : Byte) (cs : List View) : (s.startView b n cs).mem = s.mem := rfl
@[simp] theorem State.startView_cfg (s : State) (b : Nat) (n : Byte) (cs : List View) : (s.startView b n cs).cfg = s.cfg := rfl
@[simp] theorem State.startView_fc (s : State) (b : Nat) (n : Byte) (cs : List View) : (s.startView b n cs).fc = s.fc := rfl
@[simp] theorem State.startView_fctype (s : State) (b : Nat) (n : Byte) (cs : List View) : (s.startView b n cs).fctype = s.fctype := rfl
@[simp] theorem State.startView_fcparm (s : State) (b : Nat) (n : Byte) (cs : List View) : (s.startView b n cs).fcparm = s.fcparm := rfl
@[simp] theorem State.startView_ehdron (s : State) (b : Nat) (n : Byte) (cs : List View) : (s.startView b n cs).ehdron = s.ehdron := rfl
@[simp] theorem State.startView_macParm (s : State) (b : Nat) (n : Byte) (cs : List View) : (s.startView b n cs).macParm = s.macParm := rfl
@[simp] theorem State.startView_lenSid (s : State) (b : Nat) (n : Byte) (cs : List View) : (s.startView b n cs).lenSid = s.lenSid := rfl
@[simp] theorem State.startView_hdrlen (s : State) (b : Nat) (n : Byte) (cs : List View) : (s.startView b n cs).hdrlen = s.hdrlen := rfl
@[simp] theorem State.startView_payloadLength (s : State) (b : Nat) (n : Byte) (cs : List View) : (s.startView b n cs).payloadLength = s.payloadLength := rfl
@[simp] theorem State.startView_pdulen (s : State) (b : Nat) (n : Byte) (cs : List View) : (s.startView b n cs).pdulen = s.pdulen := rfl
@[simp] theorem State.startView_savedFragmented (s : State) (b : Nat) (n : Byte) (cs : List View) : (s.startView b n cs).savedFragmented = s.savedFragmented := rfl
@[simp] theorem State.startView_view (s : State) (b : Nat) (n : Byte) (cs : List View) : (s.startView b n cs).view = View.entered b n := rfl
@[simp] theorem State.startView_callers (s : State) (b : Nat) (n : Byte) (cs : List View) : (s.startView b n cs).callers = cs := rfl
@[simp] theorem State.startView_isEncrypted (s : State) (b : Nat) (n : Byte) (cs : List View) : (s.startView b n cs).isEncrypted = s.isEncrypted := rfl
@[simp] theorem State.startView_fragmented (s : State) (b : Nat) (n : Byte) (cs : List View) : (s.startView b n cs).fragmented = s.fragmented := rfl
@[simp] theorem State.startView_proceed (s : State) (b : Nat) (n : Byte) (cs : List View) : (s.startView b n cs).proceed = s.proceed := rfl
@[simp] theorem State.startView_fragValid (s : State) (b : Nat) (n : Byte) (cs : List View) : (s.startView b n cs).fragValid = s.fragValid := rfl
@[simp] theorem State.startView_fragFlags (s : State) (b : Nat) (n : Byte) (cs : List View) : (s.startView b n cs).fragFlags = s.fragFlags := rfl
@[simp] theorem State.startView_fragSeq (s : State) (b : Nat) (n : Byte) (cs : List View) : (s.startView b n cs).fragSeq = s.fragSeq := rfl
@[simp] theorem State.startView_fragSid (s : State) (b : Nat) (n : Byte) (cs : List View) : (s.startView b n cs).fragSid = s.fragSid := rfl
@[simp] theorem State.startView_out (s : State) (b : Nat) (n : Byte) (cs : List View) : (s.startView b n cs).out = s.out := rfl
@[simp] theorem State.startView_status (s : State) (b : Nat) (n : Byte) (cs : List View) : (s.startView b n cs).status = s.status := rfl
@[simp] theorem State.startView_cfgReadValue (s : State) (b : Nat) (n : Byte) (cs : List View) : (s.startView b n cs).cfgReadValue = s.cfgReadValue := rfl
@[simp] theorem State.startView_phase (s : State) (b : Nat) (n : Byte) (cs : List View) : (s.startView b n cs).phase = .walk := rfl
@[simp] theorem State.startView_pending (s : State) (b : Nat) (n : Byte) (cs : List View) : (s.startView b n cs).pending = s.pending := rfl
@[simp] theorem State.startView_caplen (s : State) (b : Nat) (n : Byte) (cs : List View) : (s.startView b n cs).caplen = s.caplen := rfl
@[simp] theorem State.startView_valueAt (s : State) (b : Nat) (n : Byte) (cs : List View) (off cnt : Nat) :
    (s.startView b n cs).valueAt off cnt = s.valueAt off cnt := rfl
@[simp] theorem State.startView_enableAt (s : State) (b : Nat) (n : Byte) (cs : List View) (off : Nat) :
    (s.startView b n cs).enableAt off = s.enableAt off := rfl

/-! ## `State.endFrame` -/

@[simp] theorem State.endFrame_mem (s : State) : s.endFrame.mem = s.mem := rfl
@[simp] theorem State.endFrame_cfg (s : State) : s.endFrame.cfg = s.cfg := rfl
@[simp] theorem State.endFrame_fc (s : State) : s.endFrame.fc = s.fc := rfl
@[simp] theorem State.endFrame_fctype (s : State) : s.endFrame.fctype = s.fctype := rfl
@[simp] theorem State.endFrame_fcparm (s : State) : s.endFrame.fcparm = s.fcparm := rfl
@[simp] theorem State.endFrame_ehdron (s : State) : s.endFrame.ehdron = s.ehdron := rfl
@[simp] theorem State.endFrame_macParm (s : State) : s.endFrame.macParm = s.macParm := rfl
@[simp] theorem State.endFrame_lenSid (s : State) : s.endFrame.lenSid = s.lenSid := rfl
@[simp] theorem State.endFrame_hdrlen (s : State) : s.endFrame.hdrlen = s.hdrlen := rfl
@[simp] theorem State.endFrame_payloadLength (s : State) : s.endFrame.payloadLength = s.payloadLength := rfl
@[simp] theorem State.endFrame_pdulen (s : State) : s.endFrame.pdulen = s.pdulen := rfl
@[simp] theorem State.endFrame_savedFragmented (s : State) : s.endFrame.savedFragmented = s.savedFragmented := rfl
@[simp] theorem State.endFrame_view (s : State) : s.endFrame.view = s.view := rfl
@[simp] theorem State.endFrame_callers (s : State) : s.endFrame.callers = s.callers := rfl
@[simp] theorem State.endFrame_isEncrypted (s : State) : s.endFrame.isEncrypted = s.isEncrypted := rfl
@[simp] theorem State.endFrame_fragmented (s : State) : s.endFrame.fragmented = false := rfl
@[simp] theorem State.endFrame_proceed (s : State) : s.endFrame.proceed = s.proceed := rfl
@[simp] theorem State.endFrame_fragValid (s : State) : s.endFrame.fragValid = s.fragValid := rfl
@[simp] theorem State.endFrame_fragFlags (s : State) : s.endFrame.fragFlags = s.fragFlags := rfl
@[simp] theorem State.endFrame_fragSeq (s : State) : s.endFrame.fragSeq = s.fragSeq := rfl
@[simp] theorem State.endFrame_fragSid (s : State) : s.endFrame.fragSid = s.fragSid := rfl
@[simp] theorem State.endFrame_out (s : State) : s.endFrame.out = s.out := rfl
@[simp] theorem State.endFrame_status (s : State) : s.endFrame.status = s.status := rfl
@[simp] theorem State.endFrame_cfgReadValue (s : State) : s.endFrame.cfgReadValue = s.cfgReadValue := rfl
@[simp] theorem State.endFrame_phase (s : State) : s.endFrame.phase = .idle := rfl
@[simp] theorem State.endFrame_pending (s : State) : s.endFrame.pending = s.pending := rfl
@[simp] theorem State.endFrame_caplen (s : State) : s.endFrame.caplen = s.caplen := rfl
@[simp] theorem State.endFrame_valueAt (s : State) (off cnt : Nat) :
    s.endFrame.valueAt off cnt = s.valueAt off cnt := rfl
@[simp] theorem State.endFrame_enableAt (s : State) (off : Nat) :
    s.endFrame.enableAt off = s.enableAt off := rfl

/-! ## `State.takeFault` -/

@[simp] theorem State.takeFault_mem (s : State) (o : Nat) : (s.takeFault o).mem = s.mem := rfl
@[simp] theorem State.takeFault_cfg (s : State) (o : Nat) : (s.takeFault o).cfg = s.cfg := rfl
@[simp] theorem State.takeFault_fc (s : State) (o : Nat) : (s.takeFault o).fc = s.fc := rfl
@[simp] theorem State.takeFault_fctype (s : State) (o : Nat) : (s.takeFault o).fctype = s.fctype := rfl
@[simp] theorem State.takeFault_fcparm (s : State) (o : Nat) : (s.takeFault o).fcparm = s.fcparm := rfl
@[simp] theorem State.takeFault_ehdron (s : State) (o : Nat) : (s.takeFault o).ehdron = s.ehdron := rfl
@[simp] theorem State.takeFault_macParm (s : State) (o : Nat) : (s.takeFault o).macParm = s.macParm := rfl
@[simp] theorem State.takeFault_lenSid (s : State) (o : Nat) : (s.takeFault o).lenSid = s.lenSid := rfl
@[simp] theorem State.takeFault_hdrlen (s : State) (o : Nat) : (s.takeFault o).hdrlen = s.hdrlen := rfl
@[simp] theorem State.takeFault_payloadLength (s : State) (o : Nat) : (s.takeFault o).payloadLength = s.payloadLength := rfl
@[simp] theorem State.takeFault_pdulen (s : State) (o : Nat) : (s.takeFault o).pdulen = s.pdulen := rfl
@[simp] theorem State.takeFault_savedFragmented (s : State) (o : Nat) : (s.takeFault o).savedFragmented = s.savedFragmented := rfl
@[simp] theorem State.takeFault_view (s : State) (o : Nat) : (s.takeFault o).view = s.view := rfl
@[simp] theorem State.takeFault_callers (s : State) (o : Nat) : (s.takeFault o).callers = [] := rfl
@[simp] theorem State.takeFault_isEncrypted (s : State) (o : Nat) : (s.takeFault o).isEncrypted = s.isEncrypted := rfl
@[simp] theorem State.takeFault_fragmented (s : State) (o : Nat) : (s.takeFault o).fragmented = false := rfl
@[simp] theorem State.takeFault_proceed (s : State) (o : Nat) : (s.takeFault o).proceed = s.proceed := rfl
@[simp] theorem State.takeFault_fragValid (s : State) (o : Nat) : (s.takeFault o).fragValid = s.fragValid := rfl
@[simp] theorem State.takeFault_fragFlags (s : State) (o : Nat) : (s.takeFault o).fragFlags = s.fragFlags := rfl
@[simp] theorem State.takeFault_fragSeq (s : State) (o : Nat) : (s.takeFault o).fragSeq = s.fragSeq := rfl
@[simp] theorem State.takeFault_fragSid (s : State) (o : Nat) : (s.takeFault o).fragSid = s.fragSid := rfl
@[simp] theorem State.takeFault_out (s : State) (o : Nat) : (s.takeFault o).out = s.out ++ [.event .faultBounds o] := rfl
@[simp] theorem State.takeFault_status (s : State) (o : Nat) : (s.takeFault o).status = some .fault := rfl
@[simp] theorem State.takeFault_cfgReadValue (s : State) (o : Nat) : (s.takeFault o).cfgReadValue = s.cfgReadValue := rfl
@[simp] theorem State.takeFault_phase (s : State) (o : Nat) : (s.takeFault o).phase = .idle := rfl
@[simp] theorem State.takeFault_pending (s : State) (o : Nat) : (s.takeFault o).pending = s.pending := rfl
@[simp] theorem State.takeFault_caplen (s : State) (o : Nat) : (s.takeFault o).caplen = s.caplen := rfl
@[simp] theorem State.takeFault_valueAt (s : State) (o : Nat) (off cnt : Nat) :
    (s.takeFault o).valueAt off cnt = s.valueAt off cnt := rfl
@[simp] theorem State.takeFault_enableAt (s : State) (o : Nat) (off : Nat) :
    (s.takeFault o).enableAt off = s.enableAt off := rfl

/-! ## `State.clearFlags` -/

@[simp] theorem State.clearFlags_mem (s : State) : s.clearFlags.mem = s.mem := rfl
@[simp] theorem State.clearFlags_cfg (s : State) : s.clearFlags.cfg = s.cfg := rfl
@[simp] theorem State.clearFlags_fc (s : State) : s.clearFlags.fc = s.fc := rfl
@[simp] theorem State.clearFlags_fctype (s : State) : s.clearFlags.fctype = s.fctype := rfl
@[simp] theorem State.clearFlags_fcparm (s : State) : s.clearFlags.fcparm = s.fcparm := rfl
@[simp] theorem State.clearFlags_ehdron (s : State) : s.clearFlags.ehdron = s.ehdron := rfl
@[simp] theorem State.clearFlags_macParm (s : State) : s.clearFlags.macParm = s.macParm := rfl
@[simp] theorem State.clearFlags_lenSid (s : State) : s.clearFlags.lenSid = s.lenSid := rfl
@[simp] theorem State.clearFlags_hdrlen (s : State) : s.clearFlags.hdrlen = s.hdrlen := rfl
@[simp] theorem State.clearFlags_payloadLength (s : State) : s.clearFlags.payloadLength = s.payloadLength := rfl
@[simp] theorem State.clearFlags_pdulen (s : State) : s.clearFlags.pdulen = s.pdulen := rfl
@[simp] theorem State.clearFlags_savedFragmented (s : State) : s.clearFlags.savedFragmented = s.savedFragmented := rfl
@[simp] theorem State.clearFlags_view (s : State) : s.clearFlags.view = s.view := rfl
@[simp] theorem State.clearFlags_callers (s : State) : s.clearFlags.callers = s.callers := rfl
@[simp] theorem State.clearFlags_isEncrypted (s : State) : s.clearFlags.isEncrypted = false := rfl
@[simp] theorem State.clearFlags_fragmented (s : State) : s.clearFlags.fragmented = false := rfl
@[simp] theorem State.clearFlags_proceed (s : State) : s.clearFlags.proceed = s.proceed := rfl
@[simp] theorem State.clearFlags_fragValid (s : State) : s.clearFlags.fragValid = false := rfl
@[simp] theorem State.clearFlags_fragFlags (s : State) : s.clearFlags.fragFlags = s.fragFlags := rfl
@[simp] theorem State.clearFlags_fragSeq (s : State) : s.clearFlags.fragSeq = s.fragSeq := rfl
@[simp] theorem State.clearFlags_fragSid (s : State) : s.clearFlags.fragSid = s.fragSid := rfl
@[simp] theorem State.clearFlags_out (s : State) : s.clearFlags.out = s.out := rfl
@[simp] theorem State.clearFlags_status (s : State) : s.clearFlags.status = s.status := rfl
@[simp] theorem State.clearFlags_cfgReadValue (s : State) : s.clearFlags.cfgReadValue = s.cfgReadValue := rfl
@[simp] theorem State.clearFlags_phase (s : State) : s.clearFlags.phase = s.phase := rfl
@[simp] theorem State.clearFlags_pending (s : State) : s.clearFlags.pending = s.pending := rfl
@[simp] theorem State.clearFlags_caplen (s : State) : s.clearFlags.caplen = s.caplen := rfl
@[simp] theorem State.clearFlags_valueAt (s : State) (off cnt : Nat) :
    s.clearFlags.valueAt off cnt = s.valueAt off cnt := rfl
@[simp] theorem State.clearFlags_enableAt (s : State) (off : Nat) :
    s.clearFlags.enableAt off = s.enableAt off := rfl

/-! ## `State.setEncrypted` -/

@[simp] theorem State.setEncrypted_mem (s : State) (f : Bool) : (s.setEncrypted f).mem = s.mem := rfl
@[simp] theorem State.setEncrypted_cfg (s : State) (f : Bool) : (s.setEncrypted f).cfg = s.cfg := rfl
@[simp] theorem State.setEncrypted_fc (s : State) (f : Bool) : (s.setEncrypted f).fc = s.fc := rfl
@[simp] theorem State.setEncrypted_fctype (s : State) (f : Bool) : (s.setEncrypted f).fctype = s.fctype := rfl
@[simp] theorem State.setEncrypted_fcparm (s : State) (f : Bool) : (s.setEncrypted f).fcparm = s.fcparm := rfl
@[simp] theorem State.setEncrypted_ehdron (s : State) (f : Bool) : (s.setEncrypted f).ehdron = s.ehdron := rfl
@[simp] theorem State.setEncrypted_macParm (s : State) (f : Bool) : (s.setEncrypted f).macParm = s.macParm := rfl
@[simp] theorem State.setEncrypted_lenSid (s : State) (f : Bool) : (s.setEncrypted f).lenSid = s.lenSid := rfl
@[simp] theorem State.setEncrypted_hdrlen (s : State) (f : Bool) : (s.setEncrypted f).hdrlen = s.hdrlen := rfl
@[simp] theorem State.setEncrypted_payloadLength (s : State) (f : Bool) : (s.setEncrypted f).payloadLength = s.payloadLength := rfl
@[simp] theorem State.setEncrypted_pdulen (s : State) (f : Bool) : (s.setEncrypted f).pdulen = s.pdulen := rfl
@[simp] theorem State.setEncrypted_savedFragmented (s : State) (f : Bool) : (s.setEncrypted f).savedFragmented = s.savedFragmented := rfl
@[simp] theorem State.setEncrypted_view (s : State) (f : Bool) : (s.setEncrypted f).view = s.view := rfl
@[simp] theorem State.setEncrypted_callers (s : State) (f : Bool) : (s.setEncrypted f).callers = s.callers := rfl
@[simp] theorem State.setEncrypted_isEncrypted (s : State) (f : Bool) : (s.setEncrypted f).isEncrypted = f := rfl
@[simp] theorem State.setEncrypted_fragmented (s : State) (f : Bool) : (s.setEncrypted f).fragmented = s.fragmented := rfl
@[simp] theorem State.setEncrypted_proceed (s : State) (f : Bool) : (s.setEncrypted f).proceed = s.proceed := rfl
@[simp] theorem State.setEncrypted_fragValid (s : State) (f : Bool) : (s.setEncrypted f).fragValid = s.fragValid := rfl
@[simp] theorem State.setEncrypted_fragFlags (s : State) (f : Bool) : (s.setEncrypted f).fragFlags = s.fragFlags := rfl
@[simp] theorem State.setEncrypted_fragSeq (s : State) (f : Bool) : (s.setEncrypted f).fragSeq = s.fragSeq := rfl
@[simp] theorem State.setEncrypted_fragSid (s : State) (f : Bool) : (s.setEncrypted f).fragSid = s.fragSid := rfl
@[simp] theorem State.setEncrypted_out (s : State) (f : Bool) : (s.setEncrypted f).out = s.out := rfl
@[simp] theorem State.setEncrypted_status (s : State) (f : Bool) : (s.setEncrypted f).status = s.status := rfl
@[simp] theorem State.setEncrypted_cfgReadValue (s : State) (f : Bool) : (s.setEncrypted f).cfgReadValue = s.cfgReadValue := rfl
@[simp] theorem State.setEncrypted_phase (s : State) (f : Bool) : (s.setEncrypted f).phase = s.phase := rfl
@[simp] theorem State.setEncrypted_pending (s : State) (f : Bool) : (s.setEncrypted f).pending = s.pending := rfl
@[simp] theorem State.setEncrypted_caplen (s : State) (f : Bool) : (s.setEncrypted f).caplen = s.caplen := rfl
@[simp] theorem State.setEncrypted_valueAt (s : State) (f : Bool) (off cnt : Nat) :
    (s.setEncrypted f).valueAt off cnt = s.valueAt off cnt := rfl
@[simp] theorem State.setEncrypted_enableAt (s : State) (f : Bool) (off : Nat) :
    (s.setEncrypted f).enableAt off = s.enableAt off := rfl

/-! ## `State.setProceed` -/

@[simp] theorem State.setProceed_mem (s : State) (f : Bool) : (s.setProceed f).mem = s.mem := rfl
@[simp] theorem State.setProceed_cfg (s : State) (f : Bool) : (s.setProceed f).cfg = s.cfg := rfl
@[simp] theorem State.setProceed_fc (s : State) (f : Bool) : (s.setProceed f).fc = s.fc := rfl
@[simp] theorem State.setProceed_fctype (s : State) (f : Bool) : (s.setProceed f).fctype = s.fctype := rfl
@[simp] theorem State.setProceed_fcparm (s : State) (f : Bool) : (s.setProceed f).fcparm = s.fcparm := rfl
@[simp] theorem State.setProceed_ehdron (s : State) (f : Bool) : (s.setProceed f).ehdron = s.ehdron := rfl
@[simp] theorem State.setProceed_macParm (s : State) (f : Bool) : (s.setProceed f).macParm = s.macParm := rfl
@[simp] theorem State.setProceed_lenSid (s : State) (f : Bool) : (s.setProceed f).lenSid = s.lenSid := rfl
@[simp] theorem State.setProceed_hdrlen (s : State) (f : Bool) : (s.setProceed f).hdrlen = s.hdrlen := rfl
@[simp] theorem State.setProceed_payloadLength (s : State) (f : Bool) : (s.setProceed f).payloadLength = s.payloadLength := rfl
@[simp] theorem State.setProceed_pdulen (s : State) (f : Bool) : (s.setProceed f).pdulen = s.pdulen := rfl
@[simp] theorem State.setProceed_savedFragmented (s : State) (f : Bool) : (s.setProceed f).savedFragmented = s.savedFragmented := rfl
@[simp] theorem State.setProceed_view (s : State) (f : Bool) : (s.setProceed f).view = s.view := rfl
@[simp] theorem State.setProceed_callers (s : State) (f : Bool) : (s.setProceed f).callers = s.callers := rfl
@[simp] theorem State.setProceed_isEncrypted (s : State) (f : Bool) : (s.setProceed f).isEncrypted = s.isEncrypted := rfl
@[simp] theorem State.setProceed_fragmented (s : State) (f : Bool) : (s.setProceed f).fragmented = s.fragmented := rfl
@[simp] theorem State.setProceed_proceed (s : State) (f : Bool) : (s.setProceed f).proceed = f := rfl
@[simp] theorem State.setProceed_fragValid (s : State) (f : Bool) : (s.setProceed f).fragValid = s.fragValid := rfl
@[simp] theorem State.setProceed_fragFlags (s : State) (f : Bool) : (s.setProceed f).fragFlags = s.fragFlags := rfl
@[simp] theorem State.setProceed_fragSeq (s : State) (f : Bool) : (s.setProceed f).fragSeq = s.fragSeq := rfl
@[simp] theorem State.setProceed_fragSid (s : State) (f : Bool) : (s.setProceed f).fragSid = s.fragSid := rfl
@[simp] theorem State.setProceed_out (s : State) (f : Bool) : (s.setProceed f).out = s.out := rfl
@[simp] theorem State.setProceed_status (s : State) (f : Bool) : (s.setProceed f).status = s.status := rfl
@[simp] theorem State.setProceed_cfgReadValue (s : State) (f : Bool) : (s.setProceed f).cfgReadValue = s.cfgReadValue := rfl
@[simp] theorem State.setProceed_phase (s : State) (f : Bool) : (s.setProceed f).phase = s.phase := rfl
@[simp] theorem State.setProceed_pending (s : State) (f : Bool) : (s.setProceed f).pending = s.pending := rfl
@[simp] theorem State.setProceed_caplen (s : State) (f : Bool) : (s.setProceed f).caplen = s.caplen := rfl
@[simp] theorem State.setProceed_valueAt (s : State) (f : Bool) (off cnt : Nat) :
    (s.setProceed f).valueAt off cnt = s.valueAt off cnt := rfl
@[simp] theorem State.setProceed_enableAt (s : State) (f : Bool) (off : Nat) :
    (s.setProceed f).enableAt off = s.enableAt off := rfl

/-! ## `State.enterFragment` -/

@[simp] theorem State.enterFragment_mem (s : State) : s.enterFragment.mem = s.mem := rfl
@[simp] theorem State.enterFragment_cfg (s : State) : s.enterFragment.cfg = s.cfg := rfl
@[simp] theorem State.enterFragment_fc (s : State) : s.enterFragment.fc = s.fc := rfl
@[simp] theorem State.enterFragment_fctype (s : State) : s.enterFragment.fctype = s.fctype := rfl
@[simp] theorem State.enterFragment_fcparm (s : State) : s.enterFragment.fcparm = s.fcparm := rfl
@[simp] theorem State.enterFragment_ehdron (s : State) : s.enterFragment.ehdron = s.ehdron := rfl
@[simp] theorem State.enterFragment_macParm (s : State) : s.enterFragment.macParm = s.macParm := rfl
@[simp] theorem State.enterFragment_lenSid (s : State) : s.enterFragment.lenSid = s.lenSid := rfl
@[simp] theorem State.enterFragment_hdrlen (s : State) : s.enterFragment.hdrlen = s.hdrlen := rfl
@[simp] theorem State.enterFragment_payloadLength (s : State) : s.enterFragment.payloadLength = s.payloadLength := rfl
@[simp] theorem State.enterFragment_pdulen (s : State) : s.enterFragment.pdulen = s.pdulen := rfl
@[simp] theorem State.enterFragment_savedFragmented (s : State) : s.enterFragment.savedFragmented = s.fragmented := rfl
@[simp] theorem State.enterFragment_view (s : State) : s.enterFragment.view = s.view := rfl
@[simp] theorem State.enterFragment_callers (s : State) : s.enterFragment.callers = s.callers := rfl
@[simp] theorem State.enterFragment_isEncrypted (s : State) : s.enterFragment.isEncrypted = s.isEncrypted := rfl
@[simp] theorem State.enterFragment_fragmented (s : State) : s.enterFragment.fragmented = true := rfl
@[simp] theorem State.enterFragment_proceed (s : State) : s.enterFragment.proceed = s.proceed := rfl
@[simp] theorem State.enterFragment_fragValid (s : State) : s.enterFragment.fragValid = s.fragValid := rfl
@[simp] theorem State.enterFragment_fragFlags (s : State) : s.enterFragment.fragFlags = s.fragFlags := rfl
@[simp] theorem State.enterFragment_fragSeq (s : State) : s.enterFragment.fragSeq = s.fragSeq := rfl
@[simp] theorem State.enterFragment_fragSid (s : State) : s.enterFragment.fragSid = s.fragSid := rfl
@[simp] theorem State.enterFragment_out (s : State) : s.enterFragment.out = s.out := rfl
@[simp] theorem State.enterFragment_status (s : State) : s.enterFragment.status = s.status := rfl
@[simp] theorem State.enterFragment_cfgReadValue (s : State) : s.enterFragment.cfgReadValue = s.cfgReadValue := rfl
@[simp] theorem State.enterFragment_phase (s : State) : s.enterFragment.phase = s.phase := rfl
@[simp] theorem State.enterFragment_pending (s : State) : s.enterFragment.pending = s.pending := rfl
@[simp] theorem State.enterFragment_caplen (s : State) : s.enterFragment.caplen = s.caplen := rfl
@[simp] theorem State.enterFragment_valueAt (s : State) (off cnt : Nat) :
    s.enterFragment.valueAt off cnt = s.valueAt off cnt := rfl
@[simp] theorem State.enterFragment_enableAt (s : State) (off : Nat) :
    s.enterFragment.enableAt off = s.enableAt off := rfl

/-! ## `State.clearFragmented` -/

@[simp] theorem State.clearFragmented_mem (s : State) : s.clearFragmented.mem = s.mem := rfl
@[simp] theorem State.clearFragmented_cfg (s : State) : s.clearFragmented.cfg = s.cfg := rfl
@[simp] theorem State.clearFragmented_fc (s : State) : s.clearFragmented.fc = s.fc := rfl
@[simp] theorem State.clearFragmented_fctype (s : State) : s.clearFragmented.fctype = s.fctype := rfl
@[simp] theorem State.clearFragmented_fcparm (s : State) : s.clearFragmented.fcparm = s.fcparm := rfl
@[simp] theorem State.clearFragmented_ehdron (s : State) : s.clearFragmented.ehdron = s.ehdron := rfl
@[simp] theorem State.clearFragmented_macParm (s : State) : s.clearFragmented.macParm = s.macParm := rfl
@[simp] theorem State.clearFragmented_lenSid (s : State) : s.clearFragmented.lenSid = s.lenSid := rfl
@[simp] theorem State.clearFragmented_hdrlen (s : State) : s.clearFragmented.hdrlen = s.hdrlen := rfl
@[simp] theorem State.clearFragmented_payloadLength (s : State) : s.clearFragmented.payloadLength = s.payloadLength := rfl
@[simp] theorem State.clearFragmented_pdulen (s : State) : s.clearFragmented.pdulen = s.pdulen := rfl
@[simp] theorem State.clearFragmented_savedFragmented (s : State) : s.clearFragmented.savedFragmented = s.savedFragmented := rfl
@[simp] theorem State.clearFragmented_view (s : State) : s.clearFragmented.view = s.view := rfl
@[simp] theorem State.clearFragmented_callers (s : State) : s.clearFragmented.callers = s.callers := rfl
@[simp] theorem State.clearFragmented_isEncrypted (s : State) : s.clearFragmented.isEncrypted = s.isEncrypted := rfl
@[simp] theorem State.clearFragmented_fragmented (s : State) : s.clearFragmented.fragmented = false := rfl
@[simp] theorem State.clearFragmented_proceed (s : State) : s.clearFragmented.proceed = s.proceed := rfl
@[simp] theorem State.clearFragmented_fragValid (s : State) : s.clearFragmented.fragValid = s.fragValid := rfl
@[simp] theorem State.clearFragmented_fragFlags (s : State) : s.clearFragmented.fragFlags = s.fragFlags := rfl
@[simp] theorem State.clearFragmented_fragSeq (s : State) : s.clearFragmented.fragSeq = s.fragSeq := rfl
@[simp] theorem State.clearFragmented_fragSid (s : State) : s.clearFragmented.fragSid = s.fragSid := rfl
@[simp] theorem State.clearFragmented_out (s : State) : s.clearFragmented.out = s.out := rfl
@[simp] theorem State.clearFragmented_status (s : State) : s.clearFragmented.status = s.status := rfl
@[simp] theorem State.clearFragmented_cfgReadValue (s : State) : s.clearFragmented.cfgReadValue = s.cfgReadValue := rfl
@[simp] theorem State.clearFragmented_phase (s : State) : s.clearFragmented.phase = s.phase := rfl
@[simp] theorem State.clearFragmented_pending (s : State) : s.clearFragmented.pending = s.pending := rfl
@[simp] theorem State.clearFragmented_caplen (s : State) : s.clearFragmented.caplen = s.caplen := rfl
@[simp] theorem State.clearFragmented_valueAt (s : State) (off cnt : Nat) :
    s.clearFragmented.valueAt off cnt = s.valueAt off cnt := rfl
@[simp] theorem State.clearFragmented_enableAt (s : State) (off : Nat) :
    s.clearFragmented.enableAt off = s.enableAt off := rfl

/-! ## `State.restoreFragmented` -/

@[simp] theorem State.restoreFragmented_mem (s : State) : s.restoreFragmented.mem = s.mem := rfl
@[simp] theorem State.restoreFragmented_cfg (s : State) : s.restoreFragmented.cfg = s.cfg := rfl
@[simp] theorem State.restoreFragmented_fc (s : State) : s.restoreFragmented.fc = s.fc := rfl
@[simp] theorem State.restoreFragmented_fctype (s : State) : s.restoreFragmented.fctype = s.fctype := rfl
@[simp] theorem State.restoreFragmented_fcparm (s : State) : s.restoreFragmented.fcparm = s.fcparm := rfl
@[simp] theorem State.restoreFragmented_ehdron (s : State) : s.restoreFragmented.ehdron = s.ehdron := rfl
@[simp] theorem State.restoreFragmented_macParm (s : State) : s.restoreFragmented.macParm = s.macParm := rfl
@[simp] theorem State.restoreFragmented_lenSid (s : State) : s.restoreFragmented.lenSid = s.lenSid := rfl
@[simp] theorem State.restoreFragmented_hdrlen (s : State) : s.restoreFragmented.hdrlen = s.hdrlen := rfl
@[simp] theorem State.restoreFragmented_payloadLength (s : State) : s.restoreFragmented.payloadLength = s.payloadLength := rfl
@[simp] theorem State.restoreFragmented_pdulen (s : State) : s.restoreFragmented.pdulen = s.pdulen := rfl
@[simp] theorem State.restoreFragmented_savedFragmented (s : State) : s.restoreFragmented.savedFragmented = s.savedFragmented := rfl
@[simp] theorem State.restoreFragmented_view (s : State) : s.restoreFragmented.view = s.view := rfl
@[simp] theorem State.restoreFragmented_callers (s : State) : s.restoreFragmented.callers = s.callers := rfl
@[simp] theorem State.restoreFragmented_isEncrypted (s : State) : s.restoreFragmented.isEncrypted = s.isEncrypted := rfl
@[simp] theorem State.restoreFragmented_fragmented (s : State) : s.restoreFragmented.fragmented = s.savedFragmented := rfl
@[simp] theorem State.restoreFragmented_proceed (s : State) : s.restoreFragmented.proceed = s.proceed := rfl
@[simp] theorem State.restoreFragmented_fragValid (s : State) : s.restoreFragmented.fragValid = s.fragValid := rfl
@[simp] theorem State.restoreFragmented_fragFlags (s : State) : s.restoreFragmented.fragFlags = s.fragFlags := rfl
@[simp] theorem State.restoreFragmented_fragSeq (s : State) : s.restoreFragmented.fragSeq = s.fragSeq := rfl
@[simp] theorem State.restoreFragmented_fragSid (s : State) : s.restoreFragmented.fragSid = s.fragSid := rfl
@[simp] theorem State.restoreFragmented_out (s : State) : s.restoreFragmented.out = s.out := rfl
@[simp] theorem State.restoreFragmented_status (s : State) : s.restoreFragmented.status = s.status := rfl
@[simp] theorem State.restoreFragmented_cfgReadValue (s : State) : s.restoreFragmented.cfgReadValue = s.cfgReadValue := rfl
@[simp] theorem State.restoreFragmented_phase (s : State) : s.restoreFragmented.phase = s.phase := rfl
@[simp] theorem State.restoreFragmented_pending (s : State) : s.restoreFragmented.pending = s.pending := rfl
@[simp] theorem State.restoreFragmented_caplen (s : State) : s.restoreFragmented.caplen = s.caplen := rfl
@[simp] theorem State.restoreFragmented_valueAt (s : State) (off cnt : Nat) :
    s.restoreFragmented.valueAt off cnt = s.valueAt off cnt := rfl
@[simp] theorem State.restoreFragmented_enableAt (s : State) (off : Nat) :
    s.restoreFragmented.enableAt off = s.enableAt off := rfl

/-! ## `State.loadFragInfo` -/

@[simp] theorem State.loadFragInfo_mem (s : State) (w f : Nat) : (s.loadFragInfo w f).mem = s.mem := rfl
@[simp] theorem State.loadFragInfo_cfg (s : State) (w f : Nat) : (s.loadFragInfo w f).cfg = s.cfg := rfl
@[simp] theorem State.loadFragInfo_fc (s : State) (w f : Nat) : (s.loadFragInfo w f).fc = s.fc := rfl
@[simp] theorem State.loadFragInfo_fctype (s : State) (w f : Nat) : (s.loadFragInfo w f).fctype = s.fctype := rfl
@[simp] theorem State.loadFragInfo_fcparm (s : State) (w f : Nat) : (s.loadFragInfo w f).fcparm = s.fcparm := rfl
@[simp] theorem State.loadFragInfo_ehdron (s : State) (w f : Nat) : (s.loadFragInfo w f).ehdron = s.ehdron := rfl
@[simp] theorem State.loadFragInfo_macParm (s : State) (w f : Nat) : (s.loadFragInfo w f).macParm = s.macParm := rfl
@[simp] theorem State.loadFragInfo_lenSid (s : State) (w f : Nat) : (s.loadFragInfo w f).lenSid = s.lenSid := rfl
@[simp] theorem State.loadFragInfo_hdrlen (s : State) (w f : Nat) : (s.loadFragInfo w f).hdrlen = s.hdrlen := rfl
@[simp] theorem State.loadFragInfo_payloadLength (s : State) (w f : Nat) : (s.loadFragInfo w f).payloadLength = s.payloadLength := rfl
@[simp] theorem State.loadFragInfo_pdulen (s : State) (w f : Nat) : (s.loadFragInfo w f).pdulen = s.pdulen := rfl
@[simp] theorem State.loadFragInfo_savedFragmented (s : State) (w f : Nat) : (s.loadFragInfo w f).savedFragmented = s.savedFragmented := rfl
@[simp] theorem State.loadFragInfo_view (s : State) (w f : Nat) : (s.loadFragInfo w f).view = s.view := rfl
@[simp] theorem State.loadFragInfo_callers (s : State) (w f : Nat) : (s.loadFragInfo w f).callers = s.callers := rfl
@[simp] theorem State.loadFragInfo_isEncrypted (s : State) (w f : Nat) : (s.loadFragInfo w f).isEncrypted = s.isEncrypted := rfl
@[simp] theorem State.loadFragInfo_fragmented (s : State) (w f : Nat) : (s.loadFragInfo w f).fragmented = s.fragmented := rfl
@[simp] theorem State.loadFragInfo_proceed (s : State) (w f : Nat) : (s.loadFragInfo w f).proceed = s.proceed := rfl
@[simp] theorem State.loadFragInfo_fragValid (s : State) (w f : Nat) : (s.loadFragInfo w f).fragValid = true := rfl
@[simp] theorem State.loadFragInfo_fragFlags (s : State) (w f : Nat) : (s.loadFragInfo w f).fragFlags = BitVec.ofNat 2 (bits f 5 4) := rfl
@[simp] theorem State.loadFragInfo_fragSeq (s : State) (w f : Nat) : (s.loadFragInfo w f).fragSeq = BitVec.ofNat 4 (bits f 3 0) := rfl
@[simp] theorem State.loadFragInfo_fragSid (s : State) (w f : Nat) : (s.loadFragInfo w f).fragSid = BitVec.ofNat 14 (privacyId w) := rfl
@[simp] theorem State.loadFragInfo_out (s : State) (w f : Nat) : (s.loadFragInfo w f).out = s.out := rfl
@[simp] theorem State.loadFragInfo_status (s : State) (w f : Nat) : (s.loadFragInfo w f).status = s.status := rfl
@[simp] theorem State.loadFragInfo_cfgReadValue (s : State) (w f : Nat) : (s.loadFragInfo w f).cfgReadValue = s.cfgReadValue := rfl
@[simp] theorem State.loadFragInfo_phase (s : State) (w f : Nat) : (s.loadFragInfo w f).phase = s.phase := rfl
@[simp] theorem State.loadFragInfo_pending (s : State) (w f : Nat) : (s.loadFragInfo w f).pending = s.pending := rfl
@[simp] theorem State.loadFragInfo_caplen (s : State) (w f : Nat) : (s.loadFragInfo w f).caplen = s.caplen := rfl
@[simp] theorem State.loadFragInfo_valueAt (s : State) (w f : Nat) (off cnt : Nat) :
    (s.loadFragInfo w f).valueAt off cnt = s.valueAt off cnt := rfl
@[simp] theorem State.loadFragInfo_enableAt (s : State) (w f : Nat) (off : Nat) :
    (s.loadFragInfo w f).enableAt off = s.enableAt off := rfl

/-! ## `State.setFc` -/

@[simp] theorem State.setFc_mem (s : State) (t : BitVec 2) (p : BitVec 5) (e : Bool) : (s.setFc t p e).mem = s.mem := rfl
@[simp] theorem State.setFc_cfg (s : State) (t : BitVec 2) (p : BitVec 5) (e : Bool) : (s.setFc t p e).cfg = s.cfg := rfl
@[simp] theorem State.setFc_fc (s : State) (t : BitVec 2) (p : BitVec 5) (e : Bool) : (s.setFc t p e).fc = fcByte t p e := rfl
@[simp] theorem State.setFc_fctype (s : State) (t : BitVec 2) (p : BitVec 5) (e : Bool) : (s.setFc t p e).fctype = t := rfl
@[simp] theorem State.setFc_fcparm (s : State) (t : BitVec 2) (p : BitVec 5) (e : Bool) : (s.setFc t p e).fcparm = p := rfl
@[simp] theorem State.setFc_ehdron (s : State) (t : BitVec 2) (p : BitVec 5) (e : Bool) : (s.setFc t p e).ehdron = e := rfl
@[simp] theorem State.setFc_macParm (s : State) (t : BitVec 2) (p : BitVec 5) (e : Bool) : (s.setFc t p e).macParm = s.macParm := rfl
@[simp] theorem State.setFc_lenSid (s : State) (t : BitVec 2) (p : BitVec 5) (e : Bool) : (s.setFc t p e).lenSid = s.lenSid := rfl
@[simp] theorem State.setFc_hdrlen (s : State) (t : BitVec 2) (p : BitVec 5) (e : Bool) : (s.setFc t p e).hdrlen = s.hdrlen := rfl
@[simp] theorem State.setFc_payloadLength (s : State) (t : BitVec 2) (p : BitVec 5) (e : Bool) : (s.setFc t p e).payloadLength = s.payloadLength := rfl
@[simp] theorem State.setFc_pdulen (s : State) (t : BitVec 2) (p : BitVec 5) (e : Bool) : (s.setFc t p e).pdulen = s.pdulen := rfl
@[simp] theorem State.setFc_savedFragmented (s : State) (t : BitVec 2) (p : BitVec 5) (e : Bool) : (s.setFc t p e).savedFragmented = s.savedFragmented := rfl
@[simp] theorem State.setFc_view (s : State) (t : BitVec 2) (p : BitVec 5) (e : Bool) : (s.setFc t p e).view = s.view := rfl
@[simp] theorem State.setFc_callers (s : State) (t : BitVec 2) (p : BitVec 5) (e : Bool) : (s.setFc t p e).callers = s.callers := rfl
@[simp] theorem State.setFc_isEncrypted (s : State) (t : BitVec 2) (p : BitVec 5) (e : Bool) : (s.setFc t p e).isEncrypted = s.isEncrypted := rfl
@[simp] theorem State.setFc_fragmented (s : State) (t : BitVec 2) (p : BitVec 5) (e : Bool) : (s.setFc t p e).fragmented = s.fragmented := rfl
@[simp] theorem State.setFc_proceed (s : State) (t : BitVec 2) (p : BitVec 5) (e : Bool) : (s.setFc t p e).proceed = s.proceed := rfl
@[simp] theorem State.setFc_fragValid (s : State) (t : BitVec 2) (p : BitVec 5) (e : Bool) : (s.setFc t p e).fragValid = s.fragValid := rfl
@[simp] theorem State.setFc_fragFlags (s : State) (t : BitVec 2) (p : BitVec 5) (e : Bool) : (s.setFc t p e).fragFlags = s.fragFlags := rfl
@[simp] theorem State.setFc_fragSeq (s : State) (t : BitVec 2) (p : BitVec 5) (e : Bool) : (s.setFc t p e).fragSeq = s.fragSeq := rfl
@[simp] theorem State.setFc_fragSid (s : State) (t : BitVec 2) (p : BitVec 5) (e : Bool) : (s.setFc t p e).fragSid = s.fragSid := rfl
@[simp] theorem State.setFc_out (s : State) (t : BitVec 2) (p : BitVec 5) (e : Bool) : (s.setFc t p e).out = s.out := rfl
@[simp] theorem State.setFc_status (s : State) (t : BitVec 2) (p : BitVec 5) (e : Bool) : (s.setFc t p e).status = s.status := rfl
@[simp] theorem State.setFc_cfgReadValue (s : State) (t : BitVec 2) (p : BitVec 5) (e : Bool) : (s.setFc t p e).cfgReadValue = s.cfgReadValue := rfl
@[simp] theorem State.setFc_phase (s : State) (t : BitVec 2) (p : BitVec 5) (e : Bool) : (s.setFc t p e).phase = s.phase := rfl
@[simp] theorem State.setFc_pending (s : State) (t : BitVec 2) (p : BitVec 5) (e : Bool) : (s.setFc t p e).pending = s.pending := rfl
@[simp] theorem State.setFc_caplen (s : State) (t : BitVec 2) (p : BitVec 5) (e : Bool) : (s.setFc t p e).caplen = s.caplen := rfl
@[simp] theorem State.setFc_valueAt (s : State) (t : BitVec 2) (p : BitVec 5) (e : Bool) (off cnt : Nat) :
    (s.setFc t p e).valueAt off cnt = s.valueAt off cnt := rfl
@[simp] theorem State.setFc_enableAt (s : State) (t : BitVec 2) (p : BitVec 5) (e : Bool) (off : Nat) :
    (s.setFc t p e).enableAt off = s.enableAt off := rfl

/-! ## `State.setMacParm` -/

@[simp] theorem State.setMacParm_mem (s : State) (m : Word16) : (s.setMacParm m).mem = s.mem := rfl
@[simp] theorem State.setMacParm_cfg (s : State) (m : Word16) : (s.setMacParm m).cfg = s.cfg := rfl
@[simp] theorem State.setMacParm_fc (s : State) (m : Word16) : (s.setMacParm m).fc = s.fc := rfl
@[simp] theorem State.setMacParm_fctype (s : State) (m : Word16) : (s.setMacParm m).fctype = s.fctype := rfl
@[simp] theorem State.setMacParm_fcparm (s : State) (m : Word16) : (s.setMacParm m).fcparm = s.fcparm := rfl
@[simp] theorem State.setMacParm_ehdron (s : State) (m : Word16) : (s.setMacParm m).ehdron = s.ehdron := rfl
@[simp] theorem State.setMacParm_macParm (s : State) (m : Word16) : (s.setMacParm m).macParm = m := rfl
@[simp] theorem State.setMacParm_lenSid (s : State) (m : Word16) : (s.setMacParm m).lenSid = s.lenSid := rfl
@[simp] theorem State.setMacParm_hdrlen (s : State) (m : Word16) : (s.setMacParm m).hdrlen = s.hdrlen := rfl
@[simp] theorem State.setMacParm_payloadLength (s : State) (m : Word16) : (s.setMacParm m).payloadLength = s.payloadLength := rfl
@[simp] theorem State.setMacParm_pdulen (s : State) (m : Word16) : (s.setMacParm m).pdulen = s.pdulen := rfl
@[simp] theorem State.setMacParm_savedFragmented (s : State) (m : Word16) : (s.setMacParm m).savedFragmented = s.savedFragmented := rfl
@[simp] theorem State.setMacParm_view (s : State) (m : Word16) : (s.setMacParm m).view = s.view := rfl
@[simp] theorem State.setMacParm_callers (s : State) (m : Word16) : (s.setMacParm m).callers = s.callers := rfl
@[simp] theorem State.setMacParm_isEncrypted (s : State) (m : Word16) : (s.setMacParm m).isEncrypted = s.isEncrypted := rfl
@[simp] theorem State.setMacParm_fragmented (s : State) (m : Word16) : (s.setMacParm m).fragmented = s.fragmented := rfl
@[simp] theorem State.setMacParm_proceed (s : State) (m : Word16) : (s.setMacParm m).proceed = s.proceed := rfl
@[simp] theorem State.setMacParm_fragValid (s : State) (m : Word16) : (s.setMacParm m).fragValid = s.fragValid := rfl
@[simp] theorem State.setMacParm_fragFlags (s : State) (m : Word16) : (s.setMacParm m).fragFlags = s.fragFlags := rfl
@[simp] theorem State.setMacParm_fragSeq (s : State) (m : Word16) : (s.setMacParm m).fragSeq = s.fragSeq := rfl
@[simp] theorem State.setMacParm_fragSid (s : State) (m : Word16) : (s.setMacParm m).fragSid = s.fragSid := rfl
@[simp] theorem State.setMacParm_out (s : State) (m : Word16) : (s.setMacParm m).out = s.out := rfl
@[simp] theorem State.setMacParm_status (s : State) (m : Word16) : (s.setMacParm m).status = s.status := rfl
@[simp] theorem State.setMacParm_cfgReadValue (s : State) (m : Word16) : (s.setMacParm m).cfgReadValue = s.cfgReadValue := rfl
@[simp] theorem State.setMacParm_phase (s : State) (m : Word16) : (s.setMacParm m).phase = s.phase := rfl
@[simp] theorem State.setMacParm_pending (s : State) (m : Word16) : (s.setMacParm m).pending = s.pending := rfl
@[simp] theorem State.setMacParm_caplen (s : State) (m : Word16) : (s.setMacParm m).caplen = s.caplen := rfl
@[simp] theorem State.setMacParm_valueAt (s : State) (m : Word16) (off cnt : Nat) :
    (s.setMacParm m).valueAt off cnt = s.valueAt off cnt := rfl
@[simp] theorem State.setMacParm_enableAt (s : State) (m : Word16) (off : Nat) :
    (s.setMacParm m).enableAt off = s.enableAt off := rfl

/-! ## `State.setLengths` -/

@[simp] theorem State.setLengths_mem (s : State) (l : Word16) : (s.setLengths l).mem = s.mem := rfl
@[simp] theorem State.setLengths_cfg (s : State) (l : Word16) : (s.setLengths l).cfg = s.cfg := rfl
@[simp] theorem State.setLengths_fc (s : State) (l : Word16) : (s.setLengths l).fc = s.fc := rfl
@[simp] theorem State.setLengths_fctype (s : State) (l : Word16) : (s.setLengths l).fctype = s.fctype := rfl
@[simp] theorem State.setLengths_fcparm (s : State) (l : Word16) : (s.setLengths l).fcparm = s.fcparm := rfl
@[simp] theorem State.setLengths_ehdron (s : State) (l : Word16) : (s.setLengths l).ehdron = s.ehdron := rfl
@[simp] theorem State.setLengths_macParm (s : State) (l : Word16) : (s.setLengths l).macParm = s.macParm := rfl
@[simp] theorem State.setLengths_lenSid (s : State) (l : Word16) : (s.setLengths l).lenSid = l := rfl
@[simp] theorem State.setLengths_hdrlen (s : State) (l : Word16) : (s.setLengths l).hdrlen = headerLength s.fcparm s.ehdron s.macParm := rfl
@[simp] theorem State.setLengths_payloadLength (s : State) (l : Word16) : (s.setLengths l).payloadLength = s.caplen - headerLength s.fcparm s.ehdron s.macParm := rfl
@[simp] theorem State.setLengths_pdulen (s : State) (l : Word16) : (s.setLengths l).pdulen = declaredLength s.fcparm s.macParm l := rfl
@[simp] theorem State.setLengths_savedFragmented (s : State) (l : Word16) : (s.setLengths l).savedFragmented = s.savedFragmented := rfl
@[simp] theorem State.setLengths_view (s : State) (l : Word16) : (s.setLengths l).view = s.view := rfl
@[simp] theorem State.setLengths_callers (s : State) (l : Word16) : (s.setLengths l).callers = s.callers := rfl
@[simp] theorem State.setLengths_isEncrypted (s : State) (l : Word16) : (s.setLengths l).isEncrypted = s.isEncrypted := rfl
@[simp] theorem State.setLengths_fragmented (s : State) (l : Word16) : (s.setLengths l).fragmented = s.fragmented := rfl
@[simp] theorem State.setLengths_proceed (s : State) (l : Word16) : (s.setLengths l).proceed = s.proceed := rfl
@[simp] theorem State.setLengths_fragValid (s : State) (l : Word16) : (s.setLengths l).fragValid = s.fragValid := rfl
@[simp] theorem State.setLengths_fragFlags (s : State) (l : Word16) : (s.setLengths l).fragFlags = s.fragFlags := rfl
@[simp] theorem State.setLengths_fragSeq (s : State) (l : Word16) : (s.setLengths l).fragSeq = s.fragSeq := rfl
@[simp] theorem State.setLengths_fragSid (s : State) (l : Word16) : (s.setLengths l).fragSid = s.fragSid := rfl
@[simp] theorem State.setLengths_out (s : State) (l : Word16) : (s.setLengths l).out = s.out := rfl
@[simp] theorem State.setLengths_status (s : State) (l : Word16) : (s.setLengths l).status = s.status := rfl
@[simp] theorem State.setLengths_cfgReadValue (s : State) (l : Word16) : (s.setLengths l).cfgReadValue = s.cfgReadValue := rfl
@[simp] theorem State.setLengths_phase (s : State) (l : Word16) : (s.setLengths l).phase = s.phase := rfl
@[simp] theorem State.setLengths_pending (s : State) (l : Word16) : (s.setLengths l).pending = s.pending := rfl
@[simp] theorem State.setLengths_caplen (s : State) (l : Word16) : (s.setLengths l).caplen = s.caplen := rfl
@[simp] theorem State.setLengths_valueAt (s : State) (l : Word16) (off cnt : Nat) :
    (s.setLengths l).valueAt off cnt = s.valueAt off cnt := rfl
@[simp] theorem State.setLengths_enableAt (s : State) (l : Word16) (off : Nat) :
    (s.setLengths l).enableAt off = s.enableAt off := rfl

/-! ## `State.setHeader` -/

@[simp] theorem State.setHeader_mem (s : State) (m l : Word16) : (s.setHeader m l).mem = s.mem := rfl
@[simp] theorem State.setHeader_cfg (s : State) (m l : Word16) : (s.setHeader m l).cfg = s.cfg := rfl
@[simp] theorem State.setHeader_fc (s : State) (m l : Word16) : (s.setHeader m l).fc = s.fc := rfl
@[simp] theorem State.setHeader_fctype (s : State) (m l : Word16) : (s.setHeader m l).fctype = s.fctype := rfl
@[simp] theorem State.setHeader_fcparm (s : State) (m l : Word16) : (s.setHeader m l).fcparm = s.fcparm := rfl
@[simp] theorem State.setHeader_ehdron (s : State) (m l : Word16) : (s.setHeader m l).ehdron = s.ehdron := rfl
@[simp] theorem State.setHeader_macParm (s : State) (m l : Word16) : (s.setHeader m l).macParm = m := rfl
@[simp] theorem State.setHeader_lenSid (s : State) (m l : Word16) : (s.setHeader m l).lenSid = l := rfl
@[simp] theorem State.setHeader_hdrlen (s : State) (m l : Word16) : (s.setHeader m l).hdrlen = headerLength s.fcparm s.ehdron m := rfl
@[simp] theorem State.setHeader_payloadLength (s : State) (m l : Word16) : (s.setHeader m l).payloadLength = s.caplen - headerLength s.fcparm s.ehdron m := rfl
@[simp] theorem State.setHeader_pdulen (s : State) (m l : Word16) : (s.setHeader m l).pdulen = declaredLength s.fcparm m l := rfl
@[simp] theorem State.setHeader_savedFragmented (s : State) (m l : Word16) : (s.setHeader m l).savedFragmented = s.savedFragmented := rfl
@[simp] theorem State.setHeader_view (s : State) (m l : Word16) : (s.setHeader m l).view = s.view := rfl
@[simp] theorem State.setHeader_callers (s : State) (m l : Word16) : (s.setHeader m l).callers = s.callers := rfl
@[simp] theorem State.setHeader_isEncrypted (s : State) (m l : Word16) : (s.setHeader m l).isEncrypted = s.isEncrypted := rfl
@[simp] theorem State.setHeader_fragmented (s : State) (m l : Word16) : (s.setHeader m l).fragmented = s.fragmented := rfl
@[simp] theorem State.setHeader_proceed (s : State) (m l : Word16) : (s.setHeader m l).proceed = s.proceed := rfl
@[simp] theorem State.setHeader_fragValid (s : State) (m l : Word16) : (s.setHeader m l).fragValid = s.fragValid := rfl
@[simp] theorem State.setHeader_fragFlags (s : State) (m l : Word16) : (s.setHeader m l).fragFlags = s.fragFlags := rfl
@[simp] theorem State.setHeader_fragSeq (s : State) (m l : Word16) : (s.setHeader m l).fragSeq = s.fragSeq := rfl
@[simp] theorem State.setHeader_fragSid (s : State) (m l : Word16) : (s.setHeader m l).fragSid = s.fragSid := rfl
@[simp] theorem State.setHeader_out (s : State) (m l : Word16) : (s.setHeader m l).out = s.out := rfl
@[simp] theorem State.setHeader_status (s : State) (m l : Word16) : (s.setHeader m l).status = s.status := rfl
@[simp] theorem State.setHeader_cfgReadValue (s : State) (m l : Word16) : (s.setHeader m l).cfgReadValue = s.cfgReadValue := rfl
@[simp] theorem State.setHeader_phase (s : State) (m l : Word16) : (s.setHeader m l).phase = s.phase := rfl
@[simp] theorem State.setHeader_pending (s : State) (m l : Word16) : (s.setHeader m l).pending = s.pending := rfl
@[simp] theorem State.setHeader_caplen (s : State) (m l : Word16) : (s.setHeader m l).caplen = s.caplen := rfl
@[simp] theorem State.setHeader_valueAt (s : State) (m l : Word16) (off cnt : Nat) :
    (s.setHeader m l).valueAt off cnt = s.valueAt off cnt := rfl
@[simp] theorem State.setHeader_enableAt (s : State) (m l : Word16) (off : Nat) :
    (s.setHeader m l).enableAt off = s.enableAt off := rfl

/-! ## `State.setPdulen` -/

@[simp] theorem State.setPdulen_mem (s : State) (v : Int) : (s.setPdulen v).mem = s.mem := rfl
@[simp] theorem State.setPdulen_cfg (s : State) (v : Int) : (s.setPdulen v).cfg = s.cfg := rfl
@[simp] theorem State.setPdulen_fc (s : State) (v : Int) : (s.setPdulen v).fc = s.fc := rfl
@[simp] theorem State.setPdulen_fctype (s : State) (v : Int) : (s.setPdulen v).fctype = s.fctype := rfl
@[simp] theorem State.setPdulen_fcparm (s : State) (v : Int) : (s.setPdulen v).fcparm = s.fcparm := rfl
@[simp] theorem State.setPdulen_ehdron (s : State) (v : Int) : (s.setPdulen v).ehdron = s.ehdron := rfl
@[simp] theorem State.setPdulen_macParm (s : State) (v : Int) : (s.setPdulen v).macParm = s.macParm := rfl
@[simp] theorem State.setPdulen_lenSid (s : State) (v : Int) : (s.setPdulen v).lenSid = s.lenSid := rfl
@[simp] theorem State.setPdulen_hdrlen (s : State) (v : Int) : (s.setPdulen v).hdrlen = s.hdrlen := rfl
@[simp] theorem State.setPdulen_payloadLength (s : State) (v : Int) : (s.setPdulen v).payloadLength = s.payloadLength := rfl
@[simp] theorem State.setPdulen_pdulen (s : State) (v : Int) : (s.setPdulen v).pdulen = v := rfl
@[simp] theorem State.setPdulen_savedFragmented (s : State) (v : Int) : (s.setPdulen v).savedFragmented = s.savedFragmented := rfl
@[simp] theorem State.setPdulen_view (s : State) (v : Int) : (s.setPdulen v).view = s.view := rfl
@[simp] theorem State.setPdulen_callers (s : State) (v : Int) : (s.setPdulen v).callers = s.callers := rfl
@[simp] theorem State.setPdulen_isEncrypted (s : State) (v : Int) : (s.setPdulen v).isEncrypted = s.isEncrypted := rfl
@[simp] theorem State.setPdulen_fragmented (s : State) (v : Int) : (s.setPdulen v).fragmented = s.fragmented := rfl
@[simp] theorem State.setPdulen_proceed (s : State) (v : Int) : (s.setPdulen v).proceed = s.proceed := rfl
@[simp] theorem State.setPdulen_fragValid (s : State) (v : Int) : (s.setPdulen v).fragValid = s.fragValid := rfl
@[simp] theorem State.setPdulen_fragFlags (s : State) (v : Int) : (s.setPdulen v).fragFlags = s.fragFlags := rfl
@[simp] theorem State.setPdulen_fragSeq (s : State) (v : Int) : (s.setPdulen v).fragSeq = s.fragSeq := rfl
@[simp] theorem State.setPdulen_fragSid (s : State) (v : Int) : (s.setPdulen v).fragSid = s.fragSid := rfl
@[simp] theorem State.setPdulen_out (s : State) (v : Int) : (s.setPdulen v).out = s.out := rfl
@[simp] theorem State.setPdulen_status (s : State) (v : Int) : (s.setPdulen v).status = s.status := rfl
@[simp] theorem State.setPdulen_cfgReadValue (s : State) (v : Int) : (s.setPdulen v).cfgReadValue = s.cfgReadValue := rfl
@[simp] theorem State.setPdulen_phase (s : State) (v : Int) : (s.setPdulen v).phase = s.phase := rfl
@[simp] theorem State.setPdulen_pending (s : State) (v : Int) : (s.setPdulen v).pending = s.pending := rfl
@[simp] theorem State.setPdulen_caplen (s : State) (v : Int) : (s.setPdulen v).caplen = s.caplen := rfl
@[simp] theorem State.setPdulen_valueAt (s : State) (v : Int) (off cnt : Nat) :
    (s.setPdulen v).valueAt off cnt = s.valueAt off cnt := rfl
@[simp] theorem State.setPdulen_enableAt (s : State) (v : Int) (off : Nat) :
    (s.setPdulen v).enableAt off = s.enableAt off := rfl

/-! ## `State.advanceView` -/

@[simp] theorem State.advanceView_mem (s : State) : s.advanceView.mem = s.mem := rfl
@[simp] theorem State.advanceView_cfg (s : State) : s.advanceView.cfg = s.cfg := rfl
@[simp] theorem State.advanceView_fc (s : State) : s.advanceView.fc = s.fc := rfl
@[simp] theorem State.advanceView_fctype (s : State) : s.advanceView.fctype = s.fctype := rfl
@[simp] theorem State.advanceView_fcparm (s : State) : s.advanceView.fcparm = s.fcparm := rfl
@[simp] theorem State.advanceView_ehdron (s : State) : s.advanceView.ehdron = s.ehdron := rfl
@[simp] theorem State.advanceView_macParm (s : State) : s.advanceView.macParm = s.macParm := rfl
@[simp] theorem State.advanceView_lenSid (s : State) : s.advanceView.lenSid = s.lenSid := rfl
@[simp] theorem State.advanceView_hdrlen (s : State) : s.advanceView.hdrlen = s.hdrlen := rfl
@[simp] theorem State.advanceView_payloadLength (s : State) : s.advanceView.payloadLength = s.payloadLength := rfl
@[simp] theorem State.advanceView_pdulen (s : State) : s.advanceView.pdulen = s.pdulen := rfl
@[simp] theorem State.advanceView_savedFragmented (s : State) : s.advanceView.savedFragmented = s.savedFragmented := rfl
@[simp] theorem State.advanceView_view (s : State) : s.advanceView.view = s.view.advanced := rfl
@[simp] theorem State.advanceView_callers (s : State) : s.advanceView.callers = s.callers := rfl
@[simp] theorem State.advanceView_isEncrypted (s : State) : s.advanceView.isEncrypted = s.isEncrypted := rfl
@[simp] theorem State.advanceView_fragmented (s : State) : s.advanceView.fragmented = s.fragmented := rfl
@[simp] theorem State.advanceView_proceed (s : State) : s.advanceView.proceed = s.proceed := rfl
@[simp] theorem State.advanceView_fragValid (s : State) : s.advanceView.fragValid = s.fragValid := rfl
@[simp] theorem State.advanceView_fragFlags (s : State) : s.advanceView.fragFlags = s.fragFlags := rfl
@[simp] theorem State.advanceView_fragSeq (s : State) : s.advanceView.fragSeq = s.fragSeq := rfl
@[simp] theorem State.advanceView_fragSid (s : State) : s.advanceView.fragSid = s.fragSid := rfl
@[simp] theorem State.advanceView_out (s : State) : s.advanceView.out = s.out := rfl
@[simp] theorem State.advanceView_status (s : State) : s.advanceView.status = s.status := rfl
@[simp] theorem State.advanceView_cfgReadValue (s : State) : s.advanceView.cfgReadValue = s.cfgReadValue := rfl
@[simp] theorem State.advanceView_phase (s : State) : s.advanceView.phase = s.phase := rfl
@[simp] theorem State.advanceView_pending (s : State) : s.advanceView.pending = s.pending := rfl
@[simp] theorem State.advanceView_caplen (s : State) : s.advanceView.caplen = s.caplen := rfl
@[simp] theorem State.advanceView_valueAt (s : State) (off cnt : Nat) :
    s.advanceView.valueAt off cnt = s.valueAt off cnt := rfl
@[simp] theorem State.advanceView_enableAt (s : State) (off : Nat) :
    s.advanceView.enableAt off = s.enableAt off := rfl

/-! ## `State.cfgWrite` -/

@[simp] theorem State.cfgWrite_mem (s : State) (i v : Nat) : (s.cfgWrite i v).mem = s.mem := rfl
@[simp] theorem State.cfgWrite_cfg (s : State) (i v : Nat) : (s.cfgWrite i v).cfg = s.cfg.write i v := rfl
@[simp] theorem State.cfgWrite_fc (s : State) (i v : Nat) : (s.cfgWrite i v).fc = s.fc := rfl
@[simp] theorem State.cfgWrite_fctype (s : State) (i v : Nat) : (s.cfgWrite i v).fctype = s.fctype := rfl
@[simp] theorem State.cfgWrite_fcparm (s : State) (i v : Nat) : (s.cfgWrite i v).fcparm = s.fcparm := rfl
@[simp] theorem State.cfgWrite_ehdron (s : State) (i v : Nat) : (s.cfgWrite i v).ehdron = s.ehdron := rfl
@[simp] theorem State.cfgWrite_macParm (s : State) (i v : Nat) : (s.cfgWrite i v).macParm = s.macParm := rfl
@[simp] theorem State.cfgWrite_lenSid (s : State) (i v : Nat) : (s.cfgWrite i v).lenSid = s.lenSid := rfl
@[simp] theorem State.cfgWrite_hdrlen (s : State) (i v : Nat) : (s.cfgWrite i v).hdrlen = s.hdrlen := rfl
@[simp] theorem State.cfgWrite_payloadLength (s : State) (i v : Nat) : (s.cfgWrite i v).payloadLength = s.payloadLength := rfl
@[simp] theorem State.cfgWrite_pdulen (s : State) (i v : Nat) : (s.cfgWrite i v).pdulen = s.pdulen := rfl
@[simp] theorem State.cfgWrite_savedFragmented (s : State) (i v : Nat) : (s.cfgWrite i v).savedFragmented = s.savedFragmented := rfl
@[simp] theorem State.cfgWrite_view (s : State) (i v : Nat) : (s.cfgWrite i v).view = s.view := rfl
@[simp] theorem State.cfgWrite_callers (s : State) (i v : Nat) : (s.cfgWrite i v).callers = s.callers := rfl
@[simp] theorem State.cfgWrite_isEncrypted (s : State) (i v : Nat) : (s.cfgWrite i v).isEncrypted = s.isEncrypted := rfl
@[simp] theorem State.cfgWrite_fragmented (s : State) (i v : Nat) : (s.cfgWrite i v).fragmented = s.fragmented := rfl
@[simp] theorem State.cfgWrite_proceed (s : State) (i v : Nat) : (s.cfgWrite i v).proceed = s.proceed := rfl
@[simp] theorem State.cfgWrite_fragValid (s : State) (i v : Nat) : (s.cfgWrite i v).fragValid = s.fragValid := rfl
@[simp] theorem State.cfgWrite_fragFlags (s : State) (i v : Nat) : (s.cfgWrite i v).fragFlags = s.fragFlags := rfl
@[simp] theorem State.cfgWrite_fragSeq (s : State) (i v : Nat) : (s.cfgWrite i v).fragSeq = s.fragSeq := rfl
@[simp] theorem State.cfgWrite_fragSid (s : State) (i v : Nat) : (s.cfgWrite i v).fragSid = s.fragSid := rfl
@[simp] theorem State.cfgWrite_out (s : State) (i v : Nat) : (s.cfgWrite i v).out = s.out := rfl
@[simp] theorem State.cfgWrite_status (s : State) (i v : Nat) : (s.cfgWrite i v).status = s.status := rfl
@[simp] theorem State.cfgWrite_cfgReadValue (s : State) (i v : Nat) : (s.cfgWrite i v).cfgReadValue = s.cfgReadValue := rfl
@[simp] theorem State.cfgWrite_phase (s : State) (i v : Nat) : (s.cfgWrite i v).phase = s.phase := rfl
@[simp] theorem State.cfgWrite_pending (s : State) (i v : Nat) : (s.cfgWrite i v).pending = s.pending := rfl
@[simp] theorem State.cfgWrite_caplen (s : State) (i v : Nat) : (s.cfgWrite i v).caplen = s.caplen := rfl
@[simp] theorem State.cfgWrite_valueAt (s : State) (i v : Nat) (off cnt : Nat) :
    (s.cfgWrite i v).valueAt off cnt = s.valueAt off cnt := rfl
@[simp] theorem State.cfgWrite_enableAt (s : State) (i v : Nat) (off : Nat) :
    (s.cfgWrite i v).enableAt off = s.enableAt off := rfl

/-! ## `State.cfgRead` -/

@[simp] theorem State.cfgRead_mem (s : State) (i : Nat) : (s.cfgRead i).mem = s.mem := rfl
@[simp] theorem State.cfgRead_cfg (s : State) (i : Nat) : (s.cfgRead i).cfg = s.cfg := rfl
@[simp] theorem State.cfgRead_fc (s : State) (i : Nat) : (s.cfgRead i).fc = s.fc := rfl
@[simp] theorem State.cfgRead_fctype (s : State) (i : Nat) : (s.cfgRead i).fctype = s.fctype := rfl
@[simp] theorem State.cfgRead_fcparm (s : State) (i : Nat) : (s.cfgRead i).fcparm = s.fcparm := rfl
@[simp] theorem State.cfgRead_ehdron (s : State) (i : Nat) : (s.cfgRead i).ehdron = s.ehdron := rfl
@[simp] theorem State.cfgRead_macParm (s : State) (i : Nat) : (s.cfgRead i).macParm = s.macParm := rfl
@[simp] theorem State.cfgRead_lenSid (s : State) (i : Nat) : (s.cfgRead i).lenSid = s.lenSid := rfl
@[simp] theorem State.cfgRead_hdrlen (s : State) (i : Nat) : (s.cfgRead i).hdrlen = s.hdrlen := rfl
@[simp] theorem State.cfgRead_payloadLength (s : State) (i : Nat) : (s.cfgRead i).payloadLength = s.payloadLength := rfl
@[simp] theorem State.cfgRead_pdulen (s : State) (i : Nat) : (s.cfgRead i).pdulen = s.pdulen := rfl
@[simp] theorem State.cfgRead_savedFragmented (s : State) (i : Nat) : (s.cfgRead i).savedFragmented = s.savedFragmented := rfl
@[simp] theorem State.cfgRead_view (s : State) (i : Nat) : (s.cfgRead i).view = s.view := rfl
@[simp] theorem State.cfgRead_callers (s : State) (i : Nat) : (s.cfgRead i).callers = s.callers := rfl
@[simp] theorem State.cfgRead_isEncrypted (s : State) (i : Nat) : (s.cfgRead i).isEncrypted = s.isEncrypted := rfl
@[simp] theorem State.cfgRead_fragmented (s : State) (i : Nat) : (s.cfgRead i).fragmented = s.fragmented := rfl
@[simp] theorem State.cfgRead_proceed (s : State) (i : Nat) : (s.cfgRead i).proceed = s.proceed := rfl
@[simp] theorem State.cfgRead_fragValid (s : State) (i : Nat) : (s.cfgRead i).fragValid = s.fragValid := rfl
@[simp] theorem State.cfgRead_fragFlags (s : State) (i : Nat) : (s.cfgRead i).fragFlags = s.fragFlags := rfl
@[simp] theorem State.cfgRead_fragSeq (s : State) (i : Nat) : (s.cfgRead i).fragSeq = s.fragSeq := rfl
@[simp] theorem State.cfgRead_fragSid (s : State) (i : Nat) : (s.cfgRead i).fragSid = s.fragSid := rfl
@[simp] theorem State.cfgRead_out (s : State) (i : Nat) : (s.cfgRead i).out = s.out := rfl
@[simp] theorem State.cfgRead_status (s : State) (i : Nat) : (s.cfgRead i).status = s.status := rfl
@[simp] theorem State.cfgRead_cfgReadValue (s : State) (i : Nat) : (s.cfgRead i).cfgReadValue = some (s.cfg.read i) := rfl
@[simp] theorem State.cfgRead_phase (s : State) (i : Nat) : (s.cfgRead i).phase = s.phase := rfl
@[simp] theorem State.cfgRead_pending (s : State) (i : Nat) : (s.cfgRead i).pending = s.pending := rfl
@[simp] theorem State.cfgRead_caplen (s : State) (i : Nat) : (s.cfgRead i).caplen = s.caplen := rfl
@[simp] theorem State.cfgRead_valueAt (s : State) (i : Nat) (off cnt : Nat) :
    (s.cfgRead i).valueAt off cnt = s.valueAt off cnt := rfl
@[simp] theorem State.cfgRead_enableAt (s : State) (i : Nat) (off : Nat) :
    (s.cfgRead i).enableAt off = s.enableAt off := rfl

/-! ## `State.withRecords` -/

@[simp] theorem State.withRecords_mem (s : State) (rs : List Record) : (s.withRecords rs).mem = s.mem := rfl
@[simp] theorem State.withRecords_cfg (s : State) (rs : List Record) : (s.withRecords rs).cfg = s.cfg := rfl
@[simp] theorem State.withRecords_fc (s : State) (rs : List Record) : (s.withRecords rs).fc = s.fc := rfl
@[simp] theorem State.withRecords_fctype (s : State) (rs : List Record) : (s.withRecords rs).fctype = s.fctype := rfl
@[simp] theorem State.withRecords_fcparm (s : State) (rs : List Record) : (s.withRecords rs).fcparm = s.fcparm := rfl
@[simp] theorem State.withRecords_ehdron (s : State) (rs : List Record) : (s.withRecords rs).ehdron = s.ehdron := rfl
@[simp] theorem State.withRecords_macParm (s : State) (rs : List Record) : (s.withRecords rs).macParm = s.macParm := rfl
@[simp] theorem State.withRecords_lenSid (s : State) (rs : List Record) : (s.withRecords rs).lenSid = s.lenSid := rfl
@[simp] theorem State.withRecords_hdrlen (s : State) (rs : List Record) : (s.withRecords rs).hdrlen = s.hdrlen := rfl
@[simp] theorem State.withRecords_payloadLength (s : State) (rs : List Record) : (s.withRecords rs).payloadLength = s.payloadLength := rfl
@[simp] theorem State.withRecords_pdulen (s : State) (rs : List Record) : (s.withRecords rs).pdulen = s.pdulen := rfl
@[simp] theorem State.withRecords_savedFragmented (s : State) (rs : List Record) : (s.withRecords rs).savedFragmented = s.savedFragmented := rfl
@[simp] theorem State.withRecords_view (s : State) (rs : List Record) : (s.withRecords rs).view = s.view := rfl
@[simp] theorem State.withRecords_callers (s : State) (rs : List Record) : (s.withRecords rs).callers = s.callers := rfl
@[simp] theorem State.withRecords_isEncrypted (s : State) (rs : List Record) : (s.withRecords rs).isEncrypted = s.isEncrypted := rfl
@[simp] theorem State.withRecords_fragmented (s : State) (rs : List Record) : (s.withRecords rs).fragmented = s.fragmented := rfl
@[simp] theorem State.withRecords_proceed (s : State) (rs : List Record) : (s.withRecords rs).proceed = s.proceed := rfl
@[simp] theorem State.withRecords_fragValid (s : State) (rs : List Record) : (s.withRecords rs).fragValid = s.fragValid := rfl
@[simp] theorem State.withRecords_fragFlags (s : State) (rs : List Record) : (s.withRecords rs).fragFlags = s.fragFlags := rfl
@[simp] theorem State.withRecords_fragSeq (s : State) (rs : List Record) : (s.withRecords rs).fragSeq = s.fragSeq := rfl
@[simp] theorem State.withRecords_fragSid (s : State) (rs : List Record) : (s.withRecords rs).fragSid = s.fragSid := rfl
@[simp] theorem State.withRecords_out (s : State) (rs : List Record) : (s.withRecords rs).out = s.out ++ rs := rfl
@[simp] theorem State.withRecords_status (s : State) (rs : List Record) : (s.withRecords rs).status = s.status := rfl
@[simp] theorem State.withRecords_cfgReadValue (s : State) (rs : List Record) : (s.withRecords rs).cfgReadValue = s.cfgReadValue := rfl
@[simp] theorem State.withRecords_phase (s : State) (rs : List Record) : (s.withRecords rs).phase = s.phase := rfl
@[simp] theorem State.withRecords_pending (s : State) (rs : List Record) : (s.withRecords rs).pending = s.pending := rfl
@[simp] theorem State.withRecords_caplen (s : State) (rs : List Record) : (s.withRecords rs).caplen = s.caplen := rfl
@[simp] theorem State.withRecords_valueAt (s : State) (rs : List Record) (off cnt : Nat) :
    (s.withRecords rs).valueAt off cnt = s.valueAt off cnt := rfl
@[simp] theorem State.withRecords_enableAt (s : State) (rs : List Record) (off : Nat) :
    (s.withRecords rs).enableAt off = s.enableAt off := rfl

/-! ## `State.steppedOver` -/

@[simp] theorem State.steppedOver_mem (s : State) : s.steppedOver.mem = s.mem := rfl
@[simp] theorem State.steppedOver_cfg (s : State) : s.steppedOver.cfg = s.cfg := rfl
@[simp] theorem State.steppedOver_fc (s : State) : s.steppedOver.fc = s.fc := rfl
@[simp] theorem State.steppedOver_fctype (s : State) : s.steppedOver.fctype = s.fctype := rfl
@[simp] theorem State.steppedOver_fcparm (s : State) : s.steppedOver.fcparm = s.fcparm := rfl
@[simp] theorem State.steppedOver_ehdron (s : State) : s.steppedOver.ehdron = s.ehdron := rfl
@[simp] theorem State.steppedOver_macParm (s : State) : s.steppedOver.macParm = s.macParm := rfl
@[simp] theorem State.steppedOver_lenSid (s : State) : s.steppedOver.lenSid = s.lenSid := rfl
@[simp] theorem State.steppedOver_hdrlen (s : State) : s.steppedOver.hdrlen = s.hdrlen := rfl
@[simp] theorem State.steppedOver_payloadLength (s : State) : s.steppedOver.payloadLength = s.payloadLength := rfl
@[simp] theorem State.steppedOver_pdulen (s : State) : s.steppedOver.pdulen = s.pdulen := rfl
@[simp] theorem State.steppedOver_savedFragmented (s : State) : s.steppedOver.savedFragmented = s.savedFragmented := rfl
@[simp] theorem State.steppedOver_view (s : State) : s.steppedOver.view = s.view.advanced := rfl
@[simp] theorem State.steppedOver_callers (s : State) : s.steppedOver.callers = s.callers := rfl
@[simp] theorem State.steppedOver_isEncrypted (s : State) : s.steppedOver.isEncrypted = s.isEncrypted := rfl
@[simp] theorem State.steppedOver_fragmented (s : State) : s.steppedOver.fragmented = s.fragmented := rfl
@[simp] theorem State.steppedOver_proceed (s : State) : s.steppedOver.proceed = s.proceed := rfl
@[simp] theorem State.steppedOver_fragValid (s : State) : s.steppedOver.fragValid = s.fragValid := rfl
@[simp] theorem State.steppedOver_fragFlags (s : State) : s.steppedOver.fragFlags = s.fragFlags := rfl
@[simp] theorem State.steppedOver_fragSeq (s : State) : s.steppedOver.fragSeq = s.fragSeq := rfl
@[simp] theorem State.steppedOver_fragSid (s : State) : s.steppedOver.fragSid = s.fragSid := rfl
@[simp] theorem State.steppedOver_out (s : State) : s.steppedOver.out = s.out := rfl
@[simp] theorem State.steppedOver_status (s : State) : s.steppedOver.status = s.status := rfl
@[simp] theorem State.steppedOver_cfgReadValue (s : State) : s.steppedOver.cfgReadValue = s.cfgReadValue := rfl
@[simp] theorem State.steppedOver_phase (s : State) : s.steppedOver.phase = s.phase := rfl
@[simp] theorem State.steppedOver_pending (s : State) : s.steppedOver.pending = s.pending := rfl
@[simp] theorem State.steppedOver_caplen (s : State) : s.steppedOver.caplen = s.caplen := rfl
@[simp] theorem State.steppedOver_valueAt (s : State) (off cnt : Nat) :
    s.steppedOver.valueAt off cnt = s.valueAt off cnt := rfl
@[simp] theorem State.steppedOver_enableAt (s : State) (off : Nat) :
    s.steppedOver.enableAt off = s.enableAt off := rfl

/-! ## `State.beginFrame` -/

@[simp] theorem State.beginFrame_mem (s : State) (f : List Byte) : (s.beginFrame f).mem = ⟨f, s.mem.store⟩ := rfl
@[simp] theorem State.beginFrame_cfg (s : State) (f : List Byte) : (s.beginFrame f).cfg = s.cfg := rfl
@[simp] theorem State.beginFrame_fc (s : State) (f : List Byte) : (s.beginFrame f).fc = s.fc := rfl
@[simp] theorem State.beginFrame_fctype (s : State) (f : List Byte) : (s.beginFrame f).fctype = s.fctype := rfl
@[simp] theorem State.beginFrame_fcparm (s : State) (f : List Byte) : (s.beginFrame f).fcparm = s.fcparm := rfl
@[simp] theorem State.beginFrame_ehdron (s : State) (f : List Byte) : (s.beginFrame f).ehdron = s.ehdron := rfl
@[simp] theorem State.beginFrame_macParm (s : State) (f : List Byte) : (s.beginFrame f).macParm = s.macParm := rfl
@[simp] theorem State.beginFrame_lenSid (s : State) (f : List Byte) : (s.beginFrame f).lenSid = s.lenSid := rfl
@[simp] theorem State.beginFrame_hdrlen (s : State) (f : List Byte) : (s.beginFrame f).hdrlen = s.hdrlen := rfl
@[simp] theorem State.beginFrame_payloadLength (s : State) (f : List Byte) : (s.beginFrame f).payloadLength = s.payloadLength := rfl
@[simp] theorem State.beginFrame_pdulen (s : State) (f : List Byte) : (s.beginFrame f).pdulen = s.pdulen := rfl
@[simp] theorem State.beginFrame_savedFragmented (s : State) (f : List Byte) : (s.beginFrame f).savedFragmented = s.savedFragmented := rfl
@[simp] theorem State.beginFrame_view (s : State) (f : List Byte) : (s.beginFrame f).view = s.view := rfl
@[simp] theorem State.beginFrame_callers (s : State) (f : List Byte) : (s.beginFrame f).callers = [] := rfl
@[simp] theorem State.beginFrame_isEncrypted (s : State) (f : List Byte) : (s.beginFrame f).isEncrypted = false := rfl
@[simp] theorem State.beginFrame_fragmented (s : State) (f : List Byte) : (s.beginFrame f).fragmented = false := rfl
@[simp] theorem State.beginFrame_proceed (s : State) (f : List Byte) : (s.beginFrame f).proceed = s.proceed := rfl
@[simp] theorem State.beginFrame_fragValid (s : State) (f : List Byte) : (s.beginFrame f).fragValid = false := rfl
@[simp] theorem State.beginFrame_fragFlags (s : State) (f : List Byte) : (s.beginFrame f).fragFlags = s.fragFlags := rfl
@[simp] theorem State.beginFrame_fragSeq (s : State) (f : List Byte) : (s.beginFrame f).fragSeq = s.fragSeq := rfl
@[simp] theorem State.beginFrame_fragSid (s : State) (f : List Byte) : (s.beginFrame f).fragSid = s.fragSid := rfl
@[simp] theorem State.beginFrame_out (s : State) (f : List Byte) : (s.beginFrame f).out = [] := rfl
@[simp] theorem State.beginFrame_status (s : State) (f : List Byte) : (s.beginFrame f).status = some .done := rfl
@[simp] theorem State.beginFrame_cfgReadValue (s : State) (f : List Byte) : (s.beginFrame f).cfgReadValue = s.cfgReadValue := rfl
@[simp] theorem State.beginFrame_phase (s : State) (f : List Byte) : (s.beginFrame f).phase = .fetch := rfl
@[simp] theorem State.beginFrame_pending (s : State) (f : List Byte) : (s.beginFrame f).pending = s.pending := rfl

end Sys2Proof.Machine
end

