-- ==== Sys2Proof/Laws/Act.lean ====
section
/-! SUPPORT. How an action runs: the lemmas of the combinators, and for each shared operation over the
frame buffer, the records and the operand forms one equation that says everything it can do. -/

namespace Sys2Proof.Machine

/-! ## Combinators -/

theorem act_bind {α β : Type} (m : Act α) (f : α → Act β) (s : State) :
    (m >>= f).run s = match m.run s with
      | .ok a t => (f a).run t
      | .error e t => .error e t := by
  rw [EStateM.run_bind]
  cases m.run s <;> rfl

theorem act_bind_ok {α β : Type} {m : Act α} {f : α → Act β} {s t : State} {a : α}
    (h : m.run s = .ok a t) : (m >>= f).run s = (f a).run t := by rw [act_bind, h]

theorem act_bind_error {α β : Type} {m : Act α} {f : α → Act β} {s t : State} {e : Nat}
    (h : m.run s = .error e t) : (m >>= f).run s = .error e t := by rw [act_bind, h]

theorem act_ite {α : Type} (c : Prop) [Decidable c] (m n : Act α) (s : State) :
    (if c then m else n).run s = if c then m.run s else n.run s := by split <;> rfl

@[simp] theorem act_pure {α : Type} (a : α) (s : State) : (pure a : Act α).run s = .ok a s := rfl

@[simp] theorem act_get (s : State) : (get : Act State).run s = .ok s s := rfl

@[simp] theorem act_modify (f : State → State) (s : State) :
    (modify f : Act Unit).run s = .ok () (f s) := rfl

@[simp] theorem act_throw {α : Type} (e : Nat) (s : State) : (throw e : Act α).run s = .error e s := rfl

@[simp] theorem act_get_bind {β : Type} (f : State → Act β) (s : State) :
    ((get : Act State) >>= f).run s = (f s).run s := rfl

@[simp] theorem act_modify_bind {β : Type} (g : State → State) (f : Unit → Act β) (s : State) :
    ((modify g : Act Unit) >>= f).run s = (f ()).run (g s) := rfl

@[simp] theorem act_pure_bind {α β : Type} (a : α) (f : α → Act β) (s : State) :
    ((pure a : Act α) >>= f).run s = (f a).run s := rfl

/-! ## Records -/

@[simp] theorem emit_run (r : Record) (s : State) : (emit r).run s = .ok () (s.addRecord r) := rfl

@[simp] theorem emit_bind {β : Type} (r : Record) (f : Unit → Act β) (s : State) :
    (emit r >>= f).run s = (f ()).run (s.addRecord r) := rfl

@[simp] theorem emitField_run (id : FieldId) (off n v : Nat) (s : State) :
    (emitField id off n v).run s = .ok () (s.addRecord (numField id off n v)) := rfl

@[simp] theorem emitField_bind {β : Type} (id : FieldId) (off n v : Nat) (f : Unit → Act β) (s : State) :
    (emitField id off n v >>= f).run s = (f ()).run (s.addRecord (numField id off n v)) := rfl

@[simp] theorem emitBytes_run (id : FieldId) (off : Nat) (data : List Byte) (s : State) :
    (emitBytes id off data).run s =
      .ok () (s.addRecord (.field id off data.length (.bytes data) none)) := rfl

@[simp] theorem emitBytes_bind {β : Type} (id : FieldId) (off : Nat) (data : List Byte) (f : Unit → Act β)
    (s : State) : (emitBytes id off data >>= f).run s =
      (f ()).run (s.addRecord (.field id off data.length (.bytes data) none)) := rfl

@[simp] theorem emitCheck_run (id : FieldId) (off n v : Nat) (c : CheckStatus) (s : State) :
    (emitCheck id off n v c).run s = .ok () (s.addRecord (.field id off n (.num v) (some c))) := rfl

@[simp] theorem emitCheck_bind {β : Type} (id : FieldId) (off n v : Nat) (c : CheckStatus)
    (f : Unit → Act β) (s : State) : (emitCheck id off n v c >>= f).run s =
      (f ()).run (s.addRecord (.field id off n (.num v) (some c))) := rfl

@[simp] theorem raiseEvent_run (c : EventCode) (off : Nat) (s : State) :
    (raiseEvent c off).run s = .ok () (s.addRecord (.event c off)) := rfl

@[simp] theorem raiseEvent_bind {β : Type} (c : EventCode) (off : Nat) (f : Unit → Act β) (s : State) :
    (raiseEvent c off >>= f).run s = (f ()).run (s.addRecord (.event c off)) := rfl

/-- Two records added one after the other are the two appended. -/
theorem addRecord_addRecord (s : State) (r r' : Record) :
    (s.addRecord r).addRecord r' = s.withRecords [r, r'] := by
  simp [State.addRecord, State.withRecords]

@[simp] theorem withRecords_nil (s : State) : s.withRecords [] = s := by
  simp [State.withRecords]

theorem withRecords_withRecords (s : State) (rs rs' : List Record) :
    (s.withRecords rs).withRecords rs' = s.withRecords (rs ++ rs') := by
  simp [State.withRecords]

/-! ## Byte strings and bit fields -/

theorem beNat_append_one (l : List Byte) (x : Byte) : beNat (l ++ [x]) = beNat l * 256 + x.toNat := by
  simp [beNat]

/-- A byte string's value has as many base-256 digits as the string has bytes. -/
theorem beNat_lt (l : List Byte) : beNat l < 256 ^ l.length := by
  induction l using List.reverseRecOn with
  | nil => simp [beNat]
  | append_singleton l x ih =>
    rw [beNat_append_one, List.length_append, List.length_singleton, Nat.pow_succ]
    have := x.isLt
    omega

theorem slice_length (buf : List Byte) (o n : Nat) (h : o + n ≤ buf.length) : (slice buf o n).length = n := by
  simp [slice]; omega

theorem slice_length_le (buf : List Byte) (o n : Nat) : (slice buf o n).length ≤ n := by
  simp [slice]

theorem slice_zero (buf : List Byte) (o : Nat) : slice buf o 0 = [] := by simp [slice]

theorem valueAt_lt (s : State) (o n : Nat) : s.valueAt o n < 256 ^ n :=
  Nat.lt_of_lt_of_le (beNat_lt _) (Nat.pow_le_pow_right (by decide) (slice_length_le _ _ _))

theorem valueAt_one_lt (s : State) (o : Nat) : s.valueAt o 1 < 256 := valueAt_lt s o 1

theorem valueAt_two_lt (s : State) (o : Nat) : s.valueAt o 2 < 65536 := valueAt_lt s o 2

/-- The value read at an offset depends on the frame buffer alone. -/
theorem valueAt_congr {s t : State} (h : s.mem.frame = t.mem.frame) (o n : Nat) :
    s.valueAt o n = t.valueAt o n := by simp [State.valueAt, h]

theorem bits_lt (v hi lo : Nat) : bits v hi lo < 2 ^ (hi + 1 - lo) := Nat.mod_lt _ (Nat.two_pow_pos _)

theorem bitFlag_iff (v i : Nat) : bitFlag v i = true ↔ v / 2 ^ i % 2 = 1 := by
  simp [bitFlag, bits]

/-! ## Reads of the frame buffer -/

/-- Everything a byte-string read does: the bytes, or the fault at its offset; the state is as before. -/
theorem memBytes_run (o n : Nat) (s : State) :
    (memBytes o n).run s = if o + n ≤ s.caplen then .ok (slice s.mem.frame o n) s else .error o s := by
  simp only [memBytes, act_get_bind, act_ite, act_pure, act_throw]

theorem memBytes_ok {o n : Nat} {s : State} (h : o + n ≤ s.caplen) :
    (memBytes o n).run s = .ok (slice s.mem.frame o n) s := by rw [memBytes_run, if_pos h]

theorem memBytes_fault {o n : Nat} {s : State} (h : s.caplen < o + n) : (memBytes o n).run s = .error o s := by
  rw [memBytes_run, if_neg (by omega)]

/-- Everything an integer read does. -/
theorem memRead_run (o n : Nat) (s : State) :
    (memRead o n).run s = if o + n ≤ s.caplen then .ok (s.valueAt o n) s else .error o s := by
  rw [memRead, act_bind, memBytes_run]
  by_cases h : o + n ≤ s.caplen <;> simp [h, State.valueAt]

theorem memRead_ok {o n : Nat} {s : State} (h : o + n ≤ s.caplen) :
    (memRead o n).run s = .ok (s.valueAt o n) s := by rw [memRead_run, if_pos h]

theorem memRead_fault {o n : Nat} {s : State} (h : s.caplen < o + n) : (memRead o n).run s = .error o s := by
  rw [memRead_run, if_neg (by omega)]

theorem memRead_bind_ok {β : Type} {o n : Nat} {s : State} (f : Nat → Act β) (h : o + n ≤ s.caplen) :
    (memRead o n >>= f).run s = (f (s.valueAt o n)).run s := act_bind_ok (memRead_ok h)

theorem memRead_bind_fault {β : Type} {o n : Nat} {s : State} (f : Nat → Act β) (h : s.caplen < o + n) :
    (memRead o n >>= f).run s = .error o s := act_bind_error (memRead_fault h)

theorem memBytes_bind_ok {β : Type} {o n : Nat} {s : State} (f : List Byte → Act β)
    (h : o + n ≤ s.caplen) : (memBytes o n >>= f).run s = (f (slice s.mem.frame o n)).run s :=
  act_bind_ok (memBytes_ok h)

theorem memBytes_bind_fault {β : Type} {o n : Nat} {s : State} (f : List Byte → Act β)
    (h : s.caplen < o + n) : (memBytes o n >>= f).run s = .error o s := act_bind_error (memBytes_fault h)

/-! ## Operand forms -/

/-- Everything a whole-value field does. -/
theorem readField_run (id : FieldId) (o n : Nat) (s : State) :
    (readField id o n).run s =
      if o + n ≤ s.caplen then .ok () (s.addRecord (s.wholeField id o n)) else .error o s := by
  rw [readField, act_bind, memRead_run]
  by_cases h : o + n ≤ s.caplen <;> simp [h, State.wholeField]

theorem readField_ok {id : FieldId} {o n : Nat} {s : State} (h : o + n ≤ s.caplen) :
    (readField id o n).run s = .ok () (s.addRecord (s.wholeField id o n)) := by rw [readField_run, if_pos h]

/-- Everything the key-sequence/version byte does. -/
theorem keyseqVersion_run (p : Nat) (s : State) :
    (keyseqVersion p).run s =
      if p + 2 ≤ s.caplen then
        .ok () (s.withRecords [numField .ehKeyseq (p + 1) 1 (s.valueAt (p + 1) 1 / 16),
          numField .ehVer (p + 1) 1 (s.valueAt (p + 1) 1 % 16)])
      else .error (p + 1) s := by
  have hb := valueAt_one_lt s (p + 1)
  rw [keyseqVersion, act_bind, memRead_run]
  by_cases h : p + 2 ≤ s.caplen
  · have e1 : bits (s.valueAt (p + 1) 1) 7 4 = s.valueAt (p + 1) 1 / 16 := by simp [bits]; omega
    have e2 : bits (s.valueAt (p + 1) 1) 3 0 = s.valueAt (p + 1) 1 % 16 := by simp [bits]
    rw [if_pos (by omega), if_pos h]
    simp only [emitField_bind, emitField_run, e1, e2, addRecord_addRecord]
  · rw [if_neg (by omega), if_neg h]

/-- Everything the privacy word does, its enable bit among it. -/
theorem privacyWord_run (id : FieldId) (p : Nat) (s : State) :
    (privacyWord id p).run s =
      if p + 4 ≤ s.caplen then
        .ok (s.valueAt (p + 2) 2) ((s.setEncrypted (s.enableAt p)).withRecords
          [numField .ehBpiEn (p + 2) 2 (s.valueAt (p + 2) 2 / 32768),
            numField .ehToggle (p + 2) 2 (s.valueAt (p + 2) 2 / 16384 % 2),
            numField id (p + 2) 2 (s.valueAt (p + 2) 2 % 16384)])
      else .error (p + 2) s := by
  have hb := valueAt_two_lt s (p + 2)
  rw [privacyWord, act_bind, memRead_run]
  by_cases h : p + 4 ≤ s.caplen
  · have e1 : bits (s.valueAt (p + 2) 2) 15 15 = s.valueAt (p + 2) 2 / 32768 := by simp [bits]; omega
    have e2 : bits (s.valueAt (p + 2) 2) 14 14 = s.valueAt (p + 2) 2 / 16384 % 2 := by simp [bits]
    have e3 : privacyId (s.valueAt (p + 2) 2) = s.valueAt (p + 2) 2 % 16384 := by simp [privacyId, bits]
    have e4 : privacyEnable (s.valueAt (p + 2) 2) = s.enableAt p := by
      rw [Bool.eq_iff_iff]
      simp only [privacyEnable, bitFlag_iff, State.enableAt, decide_eq_true_eq]
      omega
    rw [if_pos (by omega), if_pos h]
    simp only [emitField_bind, act_modify_bind, act_pure, e1, e2, e3, e4]
    simp [State.addRecord, State.withRecords, State.setEncrypted]
  · rw [if_neg (by omega), if_neg h]

/-- Everything the fragment byte does, for the privacy word `w` read before it. -/
theorem fragmentByte_run (p w : Nat) (s : State) :
    (fragmentByte p w).run s =
      if p + 6 ≤ s.caplen then
        .ok () ((s.withRecords (s.fragmentRecords p)).loadFragInfo w (s.valueAt (p + 5) 1))
      else .error (p + 5) s := by
  have hb := valueAt_one_lt s (p + 5)
  rw [fragmentByte, act_bind, memRead_run]
  by_cases h : p + 6 ≤ s.caplen
  · have e1 : bits (s.valueAt (p + 5) 1) 7 6 = s.valueAt (p + 5) 1 / 64 := by simp [bits]; omega
    have e2 : bits (s.valueAt (p + 5) 1) 5 5 = s.valueAt (p + 5) 1 / 32 % 2 := by simp [bits]
    have e3 : bits (s.valueAt (p + 5) 1) 4 4 = s.valueAt (p + 5) 1 / 16 % 2 := by simp [bits]
    have e4 : bits (s.valueAt (p + 5) 1) 3 0 = s.valueAt (p + 5) 1 % 16 := by simp [bits]
    rw [if_pos (by omega), if_pos h]
    simp only [emitField_bind, act_modify, e1, e2, e3, e4]
    simp [State.addRecord, State.withRecords, State.fragmentRecords]
  · rw [if_neg (by omega), if_neg h]

/-- Everything the Service-Flow-PHS fields do where their bytes are captured. -/
theorem serviceFlow_ok {p : Nat} {len : BitVec 4} {s : State}
    (h : p + (if len = 2 then 3 else 2) ≤ s.caplen) :
    (serviceFlow p len).run s = .ok () (s.withRecords (s.serviceRecords p len)) := by
  have hb := valueAt_one_lt s (p + 2)
  by_cases hl : len = 2
  · have e1 : bits (s.valueAt (p + 2) 1) 7 7 = s.valueAt (p + 2) 1 / 128 := by simp [bits]; omega
    have e2 : bits (s.valueAt (p + 2) 1) 6 0 = s.valueAt (p + 2) 1 % 128 := by simp [bits]
    simp only [hl, if_true] at h ⊢
    rw [serviceFlow, act_bind_ok (readField_ok (by omega)), if_pos rfl,
      memRead_bind_ok (s := s.addRecord _) _ (show p + 2 + 1 ≤ s.caplen by omega)]
    rw [valueAt_congr (t := s) (by simp)]
    simp only [emitField_bind, emitField_run, e1, e2]
    simp [State.addRecord, State.withRecords, State.serviceRecords]
  · simp only [hl, if_false] at h
    rw [serviceFlow, act_bind_ok (readField_ok (by omega)), if_neg hl]
    simp only [act_pure, State.serviceRecords, if_neg hl]
    rfl

/-- Everything the DSID field does. -/
theorem dsid_run (p : Nat) (s : State) :
    (dsid p).run s =
      if p + 4 ≤ s.caplen then
        .ok () (s.addRecord (numField .ehDsid (p + 1) 3 (s.valueAt (p + 1) 3 % 1048576)))
      else .error (p + 1) s := by
  rw [dsid, act_bind, memRead_run]
  by_cases h : p + 4 ≤ s.caplen
  · rw [if_pos (by omega), if_pos h]
    simp [bits]
  · rw [if_neg (by omega), if_neg h]

/-- Everything the opaque value of a default element does. -/
theorem opaqueValue_run (p : Nat) (len : BitVec 4) (s : State) :
    (opaqueValue p len).run s =
      if len = 0 then .ok () s
      else if p + 1 + len.toNat ≤ s.caplen then
        .ok () (s.addRecord
          (.field .ehVal (p + 1) len.toNat (.bytes (slice s.mem.frame (p + 1) len.toNat)) none))
      else .error (p + 1) s := by
  rw [opaqueValue, act_ite]
  by_cases hl : len = 0
  · simp [hl]
  · rw [if_neg hl, if_neg hl, act_bind, memBytes_run]
    by_cases h : p + 1 + len.toNat ≤ s.caplen
    · rw [if_pos h, if_pos h]
      simp [slice_length _ _ _ h]
    · rw [if_neg h, if_neg h]

/-! ## Activations, the end of a frame -/

/-- Everything the entry of an activation does. -/
theorem enterView_run (b : Nat) (cs : List View) (s : State) :
    (enterView b cs).run s =
      if b + 2 ≤ s.caplen then .ok () (s.startView b (BitVec.ofNat 8 (s.valueAt (b + 1) 1)) cs)
      else .error (b + 1) s := by
  rw [enterView, act_bind, memRead_run]
  by_cases h : b + 2 ≤ s.caplen
  · rw [if_pos (by omega), if_pos h]; simp
  · rw [if_neg (by omega), if_neg h]

@[simp] theorem endFrame_run (s : State) : endFrame.run s = .ok () s.endFrame := rfl

/-- A step over an action that goes on. -/
theorem runAct_ok {m : Act Unit} {s t : State} (h : m.run s = .ok () t) : runAct m s = .next t := by
  simp [runAct, settle, h]

/-- A step over an action that a `FAULT_BOUNDS` cuts short. -/
theorem runAct_error {m : Act Unit} {s t : State} {o : Nat} (h : m.run s = .error o t) :
    runAct m s = .next (t.takeFault o) := by
  simp [runAct, settle, h]

/-- Taking the fault is the closed form of `Safety.lean`. -/
theorem takeFault_eq (s : State) (o : Nat) : s.takeFault o = s.faulted o := rfl

theorem endFrame_eq (s : State) : s.endFrame = s.frameOver := rfl

theorem advanceView_eq (s : State) : s.advanceView = s.steppedOver := rfl

theorem leaveView_top {s : State} (h : s.callers = []) : s.leaveView = { s with phase := .tail } := by
  simp [State.leaveView, h]

theorem leaveView_nested {s : State} {c : View} {cs : List View} (h : s.callers = c :: cs) :
    s.leaveView = { s with view := c.advanced, callers := cs } := by
  simp [State.leaveView, h]

end Sys2Proof.Machine
end

