-- ==== Sys2Proof/Laws/Element.lean ====
section
/-! SUPPORT. What the loop body around an element does, and what the own part of each element does where
its bytes are captured. -/

namespace Sys2Proof.Machine

theorem headAt_setHead (s : State) (type len : BitVec 4) :
    (s.setView (s.view.setHead type len)).view.headOff = s.headAt := rfl

/-- An element that overruns its view: its head registers, one event, and the activation is left. -/
theorem element_pastEnd {type len : BitVec 4} {arm : Nat → Act ArmEnd} {s : State} (h : ¬ s.fits len) :
    (element type len arm).run s =
      .ok () ((s.setView (s.view.setHead type len)).addRecord (.event .ehPastEnd s.headAt)).leaveView := by
  have hp : (s.setView (s.view.setHead type len)).view.pastEnd len = true := decide_eq_true (Nat.lt_of_not_le h)
  rw [element, act_modify_bind, act_get_bind, act_ite, if_pos hp, raiseEvent_bind]
  rfl

/-- An element within its view: the head fields, then its own part, then what follows that. -/
theorem element_fits {type len : BitVec 4} {arm : Nat → Act ArmEnd} {s : State} (h : s.fits len) :
    (element type len arm).run s =
      match (arm s.headAt).run (s.elementShown type len []) with
      | .ok r t => (afterArm s.headAt r).run t
      | .error o t => .error o t := by
  have hp : ¬ (s.setView (s.view.setHead type len)).view.pastEnd len = true := fun hp =>
    Nat.not_le_of_lt (of_decide_eq_true hp) h
  have hs : ((s.setView (s.view.setHead type len)).addRecord
      (numField .ehType s.headAt 1 type.toNat)).addRecord (numField .ehLen s.headAt 1 len.toNat) =
      s.elementShown type len [] := by
    simp [State.addRecord, State.elementShown, State.setView, View.setHead, headByte]
  rw [element, act_modify_bind, act_get_bind, act_ite, if_neg hp, emitField_bind, emitField_bind,
    headAt_setHead, hs, act_bind]
  cases (arm s.headAt).run (s.elementShown type len []) <;> rfl

/-- What the loop does after the own part, everything it can do. -/
theorem afterArm_run (p : Nat) (r : ArmEnd) (s : State) :
    (afterArm p r).run s = .ok () (match r with
      | .advance => s.steppedOver
      | .nested => s
      | .mismatch =>
        if s.cfg.abortViewOnElementError = true then (s.addRecord (.event .ehLenMismatch p)).leaveView
        else (s.addRecord (.event .ehLenMismatch p)).steppedOver) := by
  cases r with
  | advance => rfl
  | nested => rfl
  | mismatch =>
    rw [afterArm, act_get_bind]
    simp only [raiseEvent_bind, act_ite, act_modify]
    split <;> rfl

/-- An element within its view whose own part goes on and advances. -/
theorem element_advance {type len : BitVec 4} {arm : Nat → Act ArmEnd} {s t : State} (h : s.fits len)
    (ha : (arm s.headAt).run (s.elementShown type len []) = .ok .advance t) :
    (element type len arm).run s = .ok () t.steppedOver := by
  rw [element_fits h, ha]
  exact afterArm_run _ _ _

/-- An element within its view whose own part finds a wrong length. -/
theorem element_mismatch {type len : BitVec 4} {arm : Nat → Act ArmEnd} {s t : State} (h : s.fits len)
    (ha : (arm s.headAt).run (s.elementShown type len []) = .ok .mismatch t) :
    (element type len arm).run s = .ok ()
      (if t.cfg.abortViewOnElementError = true then (t.addRecord (.event .ehLenMismatch s.headAt)).leaveView
       else (t.addRecord (.event .ehLenMismatch s.headAt)).steppedOver) := by
  rw [element_fits h, ha]
  exact afterArm_run _ _ _

/-- An element within its view whose own part a `FAULT_BOUNDS` cuts short. -/
theorem element_fault {type len : BitVec 4} {arm : Nat → Act ArmEnd} {s t : State} {o : Nat}
    (h : s.fits len) (ha : (arm s.headAt).run (s.elementShown type len []) = .error o t) :
    (element type len arm).run s = .error o t := by
  rw [element_fits h, ha]

/-! ## The shown state -/

@[simp] theorem elementShown_caplen (s : State) (type len : BitVec 4) (rs : List Record) :
    (s.elementShown type len rs).caplen = s.caplen := rfl

@[simp] theorem elementShown_valueAt (s : State) (type len : BitVec 4) (rs : List Record) (o n : Nat) :
    (s.elementShown type len rs).valueAt o n = s.valueAt o n := rfl

@[simp] theorem elementShown_wholeField (s : State) (type len : BitVec 4) (rs : List Record) (id : FieldId)
    (o n : Nat) : (s.elementShown type len rs).wholeField id o n = s.wholeField id o n := rfl

@[simp] theorem elementShown_enableAt (s : State) (type len : BitVec 4) (rs : List Record) (p : Nat) :
    (s.elementShown type len rs).enableAt p = s.enableAt p := rfl

@[simp] theorem elementShown_fragmented (s : State) (type len : BitVec 4) (rs : List Record) :
    (s.elementShown type len rs).fragmented = s.fragmented := rfl

theorem elementShown_addRecord (s : State) (type len : BitVec 4) (rs : List Record) (r : Record) :
    (s.elementShown type len rs).addRecord r = s.elementShown type len (rs ++ [r]) := by
  simp [State.elementShown, State.addRecord]

theorem elementShown_withRecords (s : State) (type len : BitVec 4) (rs rs' : List Record) :
    (s.elementShown type len rs).withRecords rs' = s.elementShown type len (rs ++ rs') := by
  simp [State.elementShown, State.withRecords]

/-! ## The own parts -/

theorem armRequest_ok {p : Nat} {s : State} (h : p + 4 ≤ s.caplen) :
    (armRequest 3 p).run s = .ok .advance
      (s.withRecords [s.wholeField .ehRqMinislots (p + 1) 1, s.wholeField .ehSid (p + 2) 2]) := by
  have h1 : p + 1 + 1 ≤ s.caplen := by omega
  simp [armRequest, readField_run, h1, h, addRecord_addRecord, State.wholeField]

theorem armRequest_mismatch {len : BitVec 4} {p : Nat} {s : State} (h : len ≠ 3) :
    (armRequest len p).run s = .ok .mismatch s := by
  rw [armRequest, if_neg h, act_pure]

theorem armAckReq_ok {p : Nat} {s : State} (h : p + 3 ≤ s.caplen) :
    (armAckReq 2 p).run s = .ok .advance (s.addRecord (s.wholeField .ehSid (p + 1) 2)) := by
  simp [armAckReq, readField_run, h]

theorem armAckReq_mismatch {len : BitVec 4} {p : Nat} {s : State} (h : len ≠ 2) :
    (armAckReq len p).run s = .ok .mismatch s := by
  rw [armAckReq, if_neg h, act_pure]

theorem armUpPrivacy2_ok {p : Nat} {s : State} (h : p + 4 ≤ s.caplen) :
    (armUpPrivacy2 p).run s = .ok .advance
      ((s.setEncrypted (s.enableAt p)).withRecords (s.privacyRecords .ehSid14 p)) := by
  have h1 : p + 2 ≤ s.caplen := by omega
  simp [armUpPrivacy2, keyseqVersion_run, privacyWord_run, h1, h, State.privacyRecords]
  simp [State.withRecords, State.setEncrypted]

theorem armDownPrivacy_ok {p : Nat} {s : State} (h : p + 5 ≤ s.caplen) :
    (armDownPrivacy p).run s = .ok .advance ((s.setEncrypted (s.enableAt p)).withRecords
      (s.privacyRecords .ehSaid p ++ [s.wholeField .ehRsvd8 (p + 4) 1])) := by
  have h1 : p + 2 ≤ s.caplen := by omega
  have h2 : p + 4 ≤ s.caplen := by omega
  simp [armDownPrivacy, keyseqVersion_run, privacyWord_run, readField_run, h1, h2, h,
    State.wholeField]
  simp [State.addRecord, State.withRecords, State.setEncrypted, State.privacyRecords]

/-- The own part of type 3, in either context. -/
theorem armUpPrivacy_ok {p : Nat} {s : State} (h : p + (if s.fragmented = true then 6 else 5) ≤ s.caplen) :
    (armUpPrivacy p).run s = .ok .advance
      (let t := (s.setEncrypted (s.enableAt p)).withRecords
        (s.privacyRecords .ehSid14 p ++ [s.wholeField .ehMinislots (p + 4) 1] ++
          (if s.fragmented = true then s.fragmentRecords p else []))
       if s.fragmented = true then t.loadFragInfo (s.valueAt (p + 2) 2) (s.valueAt (p + 5) 1) else t) := by
  have h0 : p + 5 ≤ s.caplen := by split at h <;> omega
  have h1 : p + 2 ≤ s.caplen := by omega
  have h2 : p + 4 ≤ s.caplen := by omega
  by_cases hf : s.fragmented = true
  · have h3 : p + 6 ≤ s.caplen := by simpa [hf] using h
    simp [armUpPrivacy, keyseqVersion_run, privacyWord_run, readField_run, fragmentByte_run,
      h0, h1, h2, h3, hf, State.wholeField, State.fragmentRecords]
    simp [State.addRecord, State.withRecords, State.setEncrypted, State.privacyRecords,
      State.loadFragInfo]
  · simp [armUpPrivacy, keyseqVersion_run, privacyWord_run, readField_run,
      h0, h1, h2, hf, State.wholeField]
    simp [State.addRecord, State.withRecords, State.setEncrypted, State.privacyRecords]

theorem armSfPhs5_ok {len : BitVec 4} {p : Nat} {s : State}
    (h : p + (if len = 2 then 3 else 2) ≤ s.caplen) :
    (armSfPhs5 len p).run s = .ok .advance (s.withRecords (s.serviceRecords p len)) := by
  rw [armSfPhs5, act_bind_ok (serviceFlow_ok h), act_pure]

theorem armSfPhs6_ok {len : BitVec 4} {p : Nat} {s : State}
    (h : p + (if len = 2 then 3 else 2) ≤ s.caplen) :
    (armSfPhs6 len p).run s = .ok .advance
      (s.withRecords ((if len = 2 then [.note .ehUgsLabel p] else []) ++ s.serviceRecords p len)) := by
  rw [armSfPhs6]
  by_cases hl : len = 2
  · rw [if_pos hl, if_pos hl, emit_bind]
    dsimp only
    rw [act_bind_ok (serviceFlow_ok (s := State.addRecord _ _) h), act_pure]
    simp [State.addRecord, State.withRecords]
    rfl
  · rw [if_neg hl, if_neg hl]
    dsimp only
    rw [act_bind_ok (serviceFlow_ok h), act_pure]
    rfl

theorem armPathVerify_ok {p : Nat} {s : State} (h : p + 6 ≤ s.caplen) :
    (armPathVerify 5 p).run s = .ok .advance
      (s.withRecords [s.wholeField .ehPvStartref (p + 1) 1, s.wholeField .ehPvTs (p + 2) 4]) := by
  have h1 : p + 1 + 1 ≤ s.caplen := by omega
  simp [armPathVerify, readField_run, h1, h, addRecord_addRecord, State.wholeField]

theorem armPathVerify_other {len : BitVec 4} {p : Nat} {s : State} (h : len ≠ 5) :
    (armPathVerify len p).run s = .ok .advance s := by
  rw [armPathVerify, if_neg h]
  rfl

theorem armDefault_ok {len : BitVec 4} {p : Nat} {s : State}
    (h : len ≠ 0 → p + 1 + len.toNat ≤ s.caplen) :
    (armDefault len p).run s = .ok .advance (s.withRecords (if len = 0 then [] else
      [.field .ehVal (p + 1) len.toNat (.bytes (slice s.mem.frame (p + 1) len.toNat)) none])) := by
  rw [armDefault, act_bind, opaqueValue_run]
  by_cases hl : len = 0
  · simp [hl, State.withRecords]
  · rw [if_neg hl, if_neg hl, if_pos (h hl)]
    rfl

/-- The own part of type 15, everything it can do. -/
theorem armExtended_run (p : Nat) (s : State) :
    (armExtended p).run s =
      if p + 2 ≤ s.caplen then
        .ok .nested (s.startView p (BitVec.ofNat 8 (s.valueAt (p + 1) 1)) (s.view :: s.callers))
      else .error (p + 1) s := by
  rw [armExtended, act_get_bind, act_bind, enterView_run]
  by_cases h : p + 2 ≤ s.caplen <;> simp [h]

theorem armDownService_ok {len : BitVec 4} {p : Nat} {s : State}
    (h : p + (if len = 3 then 4 else if len = 5 then 6 else 2) ≤ s.caplen) :
    (armDownService len p).run s = .ok .advance (s.withRecords (s.downServiceRecords p len)) := by
  have hb := valueAt_one_lt s (p + 1)
  have e1 : bits (s.valueAt (p + 1) 1) 7 5 = s.valueAt (p + 1) 1 / 32 := by simp [bits]; omega
  have e2 : bits (s.valueAt (p + 1) 1) 4 4 = s.valueAt (p + 1) 1 / 16 % 2 := by simp [bits]
  have h1 : p + 1 + 1 ≤ s.caplen := by split at h <;> [skip; split at h] <;> omega
  rw [armDownService, memRead_bind_ok _ h1]
  by_cases h3 : len = 3
  · have h4 : p + 4 ≤ s.caplen := by simpa [h3] using h
    simp [h3, dsid_run, h4, e1, State.downServiceRecords, addRecord_addRecord]
  · by_cases h5 : len = 5
    · have h6 : p + 6 ≤ s.caplen := by simpa [h5] using h
      have h4 : p + 4 ≤ s.caplen := by omega
      simp [h5, dsid_run, readField_run, h4, h6, e1, e2, State.downServiceRecords,
        State.wholeField]
      simp [State.addRecord, State.withRecords]
    · simp only [if_neg h3, if_neg h5, emitField_bind, act_pure, State.downServiceRecords, e1]
      rfl

end Sys2Proof.Machine
end

