-- ==== Sys2Proof/Laws/Frame.lean ====
section
/-! SUPPORT. What the prologue, the shared procedures of the frame classes and the parts after the walk
do. -/

namespace Sys2Proof.Machine

/-! ## The prologue -/

/-- The state after the FC split: the FC registers and the three FC fields. -/
theorem splitFc_run (t : BitVec 2) (p : BitVec 5) (e : Bool) (s : State) :
    (splitFc t p e).run s = .ok () ((s.setFc t p e).withRecords (fcRecords t p e)) := by
  simp [splitFc, fcRecords, State.addRecord, State.withRecords, flagVal]

theorem formatB_eq (p : BitVec 5) : formatB p = if p = 4 then 1 else 0 := rfl

/-- The header registers, where the header fields are captured. -/
theorem readHeader_ok {s : State} (h : s.fieldsCaptured s.fcparm) :
    readHeader.run s = .ok () (s.setHeader (BitVec.ofNat 16 (s.valueAt 1 (1 + formatB s.fcparm)))
      (BitVec.ofNat 16 (s.valueAt (2 + formatB s.fcparm) 2))) := by
  have hb : 1 + (1 + formatB s.fcparm) ≤ s.caplen ∧ 2 + formatB s.fcparm + 2 ≤ s.caplen := by
    rw [formatB_eq]
    rw [State.fieldsCaptured] at h
    split at h <;> simp_all <;> omega
  simp [readHeader, memRead_run, hb.1, hb.2, State.setHeader]

/-- A header field that is not captured: the fault at its offset; `mac_parm` is loaded where it is the
second one. -/
theorem readHeader_fault {s : State} (h : ¬ s.fieldsCaptured s.fcparm) :
    readHeader.run s =
      if s.caplen < 2 + formatB s.fcparm then .error 1 s
      else .error (2 + formatB s.fcparm)
        (s.setMacParm (BitVec.ofNat 16 (s.valueAt 1 (1 + formatB s.fcparm)))) := by
  have hb : ¬ (2 + formatB s.fcparm + 2 ≤ s.caplen) := by
    rw [formatB_eq]
    rw [State.fieldsCaptured] at h
    split at h <;> simp_all
  by_cases h1 : s.caplen < 2 + formatB s.fcparm
  · have h2 : ¬ (1 + (1 + formatB s.fcparm) ≤ s.caplen) := by omega
    simp [readHeader, memRead_run, h1, h2]
  · have h2 : 1 + (1 + formatB s.fcparm) ≤ s.caplen := by omega
    simp [readHeader, memRead_run, h1, h2, hb]

/-- Everything the validation of the declared length does. -/
theorem checkLength_run (s : State) :
    checkLength.run s =
      .ok () ((s.withRecords (lengthRecords s.pdulen s.payloadLength)).setPdulen (max s.pdulen 0)) := by
  rw [checkLength, act_get_bind, act_ite]
  by_cases h : s.pdulen < 0
  · rw [if_pos h, Int.max_eq_right (by omega)]
    simp [lengthRecords, h, State.addRecord, State.withRecords]
  · have e : s.setPdulen s.pdulen = s := rfl
    rw [if_neg h, Int.max_eq_left (by omega), act_ite]
    by_cases h2 : (s.payloadLength : Int) < s.pdulen
    · rw [if_pos h2]
      simp [lengthRecords, h, h2, State.addRecord, State.withRecords, State.setPdulen]
    · rw [if_neg h2]
      simp [lengthRecords, h, h2, State.withRecords, State.setPdulen]

/-- The whole prologue, where the header fields are captured. -/
theorem prologue_ok {t : BitVec 2} {p : BitVec 5} {e : Bool} {s : State} (h : s.fieldsCaptured p) :
    (prologue t p e).run s = .ok () (s.prologueDone t p e) := by
  have hq : formatB p ≤ 1 := by rw [formatB_eq]; split <;> omega
  have hm : s.valueAt 1 (1 + formatB p) < 65536 :=
    Nat.lt_of_lt_of_le (valueAt_lt s 1 _) (Nat.pow_le_pow_right (i := 1 + formatB p) (j := 2) (by decide) (by omega))
  have hl := valueAt_two_lt s (2 + formatB p)
  rw [prologue, act_bind_ok (splitFc_run t p e s),
    act_bind_ok (readHeader_ok (s := (s.setFc t p e).withRecords _) h), checkLength_run]
  simp only [State.prologueDone, State.withRecords, State.setPdulen, State.setHeader,
    State.setMacParm, State.setLengths, State.setFc,
    headerLength, declaredLength, fcByte, State.valueAt, BitVec.toNat_ofNat]
  simp only [State.valueAt, formatB_eq] at hm hl
  simp only [show (2 : Nat) ^ 16 = 65536 from rfl, formatB_eq, Nat.mod_eq_of_lt hm, Nat.mod_eq_of_lt hl]

/-- The prologue, where a header field is not captured: the FC split stands, and so does `mac_parm` where
it was read. -/
theorem prologue_fault {t : BitVec 2} {p : BitVec 5} {e : Bool} {s : State} (h : ¬ s.fieldsCaptured p) :
    (prologue t p e).run s =
      if s.caplen < 2 + formatB p then .error 1 ((s.setFc t p e).withRecords (fcRecords t p e))
      else .error (2 + formatB p) (((s.setFc t p e).withRecords (fcRecords t p e)).setMacParm
        (BitVec.ofNat 16 (s.valueAt 1 (1 + formatB p)))) := by
  have hr := readHeader_fault (s := (s.setFc t p e).withRecords (fcRecords t p e)) h
  rw [prologue, act_bind_ok (splitFc_run t p e s)]
  by_cases hc : s.caplen < 2 + formatB p
  · rw [if_pos (show State.caplen _ < 2 + formatB (State.fcparm _) from hc)] at hr
    rw [act_bind_error hr, if_pos hc]
  · rw [if_neg (show ¬ State.caplen _ < 2 + formatB (State.fcparm _) from hc)] at hr
    rw [act_bind_error hr, if_neg hc]
    rfl

/-! ## Shared procedures -/

theorem headerFields_run (s : State) : headerFields.run s = .ok () s.headerShown := by
  simp [headerFields, State.headerShown, State.addRecord, formatB_eq]

/-- The header check, where the whole header is captured. -/
theorem hcsCheck_ok {P : Config.Params} {s : State} (h2 : 2 ≤ s.hdrlen) (h : s.hdrlen ≤ s.caplen) :
    (hcsCheck P).run s = .ok () (s.hcsDone P) := by
  have h3 : s.hdrlen - 2 + 2 ≤ s.caplen := by omega
  have h4 : 0 + (s.hdrlen - 2) ≤ s.caplen := by omega
  have hv : hcsStatus P s.cfg.validateHcs (slice s.mem.frame 0 (s.hdrlen - 2)) (s.valueAt (s.hdrlen - 2) 2)
      = s.hcsVerdict P := by
    rw [hcsStatus, State.hcsVerdict]
    cases s.cfg.validateHcs <;> simp
  rw [hcsCheck, act_get_bind, memRead_bind_ok _ h3, memBytes_bind_ok _ h4, hv, emitCheck_bind, act_ite]
  by_cases hb : s.hcsVerdict P = .bad
  · rw [if_pos hb]
    simp [State.hcsDone, hb, State.addRecord, State.setProceed]
  · rw [if_neg hb]
    simp [State.hcsDone, hb, State.addRecord, State.setProceed]

/-- The header check, where the HCS is not captured whole. -/
theorem hcsCheck_fault {P : Config.Params} {s : State} (h2 : 2 ≤ s.hdrlen) (h : s.caplen < s.hdrlen) :
    (hcsCheck P).run s = .error (s.hdrlen - 2) s := by
  rw [hcsCheck, act_get_bind, memRead_bind_fault _ (by omega)]

/-- Everything a payload hand-off does. -/
theorem payload_run (c : Cont) (src : Src) (off n : Nat) (buf : List Byte) (s : State) :
    (payload c src off n buf).run s = .ok () (s.withRecords (s.payloadRecords c src off n buf)) := by
  rw [payload, act_get_bind, act_ite, State.payloadRecords]
  by_cases h : s.isEncrypted = true ∧ s.cfg.dissectEncrypted = false
  · rw [if_pos (by simpa using h), if_pos h, emit_bind, act_ite]
    split <;> simp [State.addRecord, State.withRecords]
  · rw [if_neg (by simpa using h), if_neg h]
    rfl

theorem framePayload_run (c : Cont) (s : State) :
    (framePayload c).run s =
      .ok () (s.withRecords (s.payloadRecords c .frame s.hdrlen s.payloadLength s.mem.frame)) := by
  rw [framePayload, act_get_bind, payload_run]

/-- A class with `HdrCommon` and the ext bit: the walk begins. -/
theorem withHeader_walk {tail : Act Unit} {s : State} (he : s.ehdron = true) (h : 2 ≤ s.caplen) :
    (withHeader tail).run s = .ok () (s.headerShown.startView 0 (BitVec.ofNat 8 (s.valueAt 1 1)) []) := by
  rw [withHeader, act_bind_ok (headerFields_run s), act_get_bind, if_pos (show s.headerShown.ehdron = true from he),
    enterView_run, if_pos (show 0 + 2 ≤ s.headerShown.caplen from Nat.le_trans (by omega) h)]
  rfl

/-- A class with `HdrCommon` and no ext bit: its tail runs and the frame ends. -/
theorem withHeader_plain {tail : Act Unit} {s t : State} (he : s.ehdron = false)
    (h : tail.run s.headerShown = .ok () t) : (withHeader tail).run s = .ok () t.endFrame := by
  rw [withHeader, act_bind_ok (headerFields_run s), act_get_bind,
    if_neg (show ¬ s.headerShown.ehdron = true by simpa [State.headerShown] using he), act_bind_ok h]
  rfl

theorem withHeader_plain_fault {tail : Act Unit} {s t : State} {o : Nat} (he : s.ehdron = false)
    (h : tail.run s.headerShown = .error o t) : (withHeader tail).run s = .error o t := by
  rw [withHeader, act_bind_ok (headerFields_run s), act_get_bind,
    if_neg (show ¬ s.headerShown.ehdron = true by simpa [State.headerShown] using he), act_bind_error h]

/-- The two header fields of a fixed-header class. -/
def State.twoFields (s : State) (id1 id2 : FieldId) : State :=
  s.withRecords [numField id1 1 (1 + formatB s.fcparm) s.macParm.toNat,
    numField id2 (2 + formatB s.fcparm) 2 s.lenSid.toNat]

theorem fixedHeader_ok {P : Config.Params} {id1 id2 : FieldId} {s : State} (h2 : 2 ≤ s.hdrlen)
    (h : s.hdrlen ≤ s.caplen) :
    (fixedHeader P id1 id2).run s = .ok () ((s.twoFields id1 id2).hcsDone P).endFrame := by
  have e : (s.addRecord (numField id1 1 (1 + formatB s.fcparm) s.macParm.toNat)).addRecord
      (numField id2 (2 + formatB s.fcparm) 2 s.lenSid.toNat) = s.twoFields id1 id2 := addRecord_addRecord _ _ _
  rw [fixedHeader, act_get_bind, emitField_bind, emitField_bind, e,
    act_bind_ok (hcsCheck_ok (s := s.twoFields id1 id2) h2 h), endFrame_run]

/-! ## The parts after the walk -/

theorem ethernetTail_ok {P : Config.Params} {s : State} (h2 : 2 ≤ s.hdrlen) (h : s.hdrlen ≤ s.caplen) :
    (ethernetTail P).run s = .ok () ((s.hcsDone P).withRecords
      (if (s.hcsDone P).proceed = true ∧ 0 < (s.hcsDone P).pdulen then
        (s.hcsDone P).payloadRecords .ethNofcs .frame (s.hcsDone P).hdrlen (s.hcsDone P).payloadLength
          (s.hcsDone P).mem.frame else [])) := by
  rw [ethernetTail, act_bind_ok (hcsCheck_ok h2 h), act_get_bind, act_ite, framePayload_run]
  split <;> simp [State.withRecords]

theorem rawTail_ok {P : Config.Params} {s : State} (h2 : 2 ≤ s.hdrlen) (h : s.hdrlen ≤ s.caplen) :
    (tailRsvd P).run s = .ok () ((s.hcsDone P).withRecords
      (if (s.hcsDone P).proceed = true ∧ 0 < (s.hcsDone P).pdulen then
        [.handoff .rawData .frame (s.hcsDone P).hdrlen (s.hcsDone P).payloadLength] else [])) := by
  rw [tailRsvd, act_bind_ok (hcsCheck_ok h2 h), act_get_bind, act_ite, emit_run]
  split <;> simp [State.withRecords, State.addRecord]

theorem managementTail_ok {P : Config.Params} {s : State} (h2 : 2 ≤ s.hdrlen) (h : s.hdrlen ≤ s.caplen) :
    (managementTail P).run s = .ok () ((s.hcsDone P).withRecords
      (if (s.hcsDone P).proceed = true then
        (s.hcsDone P).payloadRecords .macMgmt .frame (s.hcsDone P).hdrlen (s.hcsDone P).payloadLength
          (s.hcsDone P).mem.frame else [])) := by
  rw [managementTail, act_bind_ok (hcsCheck_ok h2 h), act_get_bind, act_ite, framePayload_run]
  split <;> simp [State.withRecords]

/-- The end of the frame after each of these parts is the closed form of `Safety.lean`. -/
theorem ethernetDone_eq (P : Config.Params) (s : State) :
    s.ethernetDone P = State.endFrame ((s.hcsDone P).withRecords
      (if (s.hcsDone P).proceed = true ∧ 0 < (s.hcsDone P).pdulen then
        (s.hcsDone P).payloadRecords .ethNofcs .frame (s.hcsDone P).hdrlen (s.hcsDone P).payloadLength
          (s.hcsDone P).mem.frame else [])) := rfl

end Sys2Proof.Machine
end

