-- ==== Sys2Proof/Laws/Store.lean ====
section
/-! SUPPORT. The reassembly store: what each operation on it does to one slot, that each keeps the
canonical form, and that stores in canonical form are equal where their slots are. -/

namespace Sys2Proof.Machine

/-! ## Slot addresses -/

theorem slotAddr_div (sid : Sid) (seq : Seq4) : slotAddr sid seq / Config.numSlots = sid.toNat := by
  have := seq.isLt
  simp only [slotAddr, Config.numSlots]
  omega

theorem slotAddr_mod (sid : Sid) (seq : Seq4) : slotAddr sid seq % Config.numSlots = seq.toNat := by
  have := seq.isLt
  simp only [slotAddr, Config.numSlots]
  omega

theorem slotAddr_lt (sid : Sid) (seq : Seq4) : slotAddr sid seq < Config.numSids * Config.numSlots := by
  have := seq.isLt
  have := sid.isLt
  simp only [slotAddr, Config.numSlots, Config.numSids]
  omega

theorem slotAddr_inj {sid sid' : Sid} {seq seq' : Seq4} :
    slotAddr sid seq = slotAddr sid' seq' ↔ sid = sid' ∧ seq = seq' := by
  constructor
  · intro h
    constructor
    · apply BitVec.eq_of_toNat_eq
      rw [← slotAddr_div sid seq, h, slotAddr_div]
    · apply BitVec.eq_of_toNat_eq
      rw [← slotAddr_mod sid seq, h, slotAddr_mod]
  · rintro ⟨rfl, rfl⟩; rfl

/-- Every address below the number of slots is some slot's. -/
theorem slotAddr_surj {a : Nat} (h : a < Config.numSids * Config.numSlots) :
    slotAddr (BitVec.ofNat 14 (a / 16)) (BitVec.ofNat 4 (a % 16)) = a := by
  simp only [slotAddr, Config.numSlots, Config.numSids, BitVec.toNat_ofNat] at *
  omega

/-! ## One slot after an operation -/

@[simp] theorem at_nil (a : Nat) : Store.at [] a = none := rfl

theorem at_cons (e : Nat × Fragment) (st : Store) (a : Nat) :
    Store.at (e :: st) a = if e.1 = a then some e.2 else Store.at st a := by
  simp only [Store.at, List.find?_cons]
  by_cases h : e.1 = a
  · simp [h]
  · rw [beq_false_of_ne h, if_neg h]

/-- Everything an insertion does: its own address holds the fragment, every other holds what it held. -/
theorem at_insert (st : Store) (a b : Nat) (f : Fragment) :
    Store.at (Store.insert st a f) b = if b = a then some f else Store.at st b := by
  induction st with
  | nil =>
    simp only [Store.insert, at_cons, at_nil, eq_comm]
  | cons e rest ih =>
    simp only [Store.insert]
    split
    · simp only [at_cons]
      by_cases h : b = a
      · simp [h]
      · simp [h, Ne.symm h]
    · split
      · rename_i h1 h2
        simp only [at_cons, h2]
        by_cases h : b = e.1
        · simp [h]
        · simp [h, Ne.symm h]
      · rename_i h1 h2
        simp only [at_cons, ih]
        by_cases h : b = a
        · subst h
          simp [Ne.symm h2]
        · simp [h]

/-- Everything a filter over the addresses does. -/
theorem at_filter (st : Store) (keep : Nat → Bool) (a : Nat) :
    Store.at (st.filter (fun e => keep e.1)) a = if keep a then Store.at st a else none := by
  induction st with
  | nil => simp
  | cons e rest ih =>
    rw [List.filter_cons]
    split
    · rename_i h
      rw [at_cons, at_cons, ih]
      by_cases he : e.1 = a
      · subst he; simp [h]
      · simp [he]
    · rename_i h
      rw [ih, at_cons]
      by_cases he : e.1 = a
      · subst he; simp [h]
      · simp [he]

theorem at_release (st : Store) (sid : Sid) (a : Nat) :
    Store.at (Store.release st sid) a =
      if a / Config.numSlots = sid.toNat then none else Store.at st a := by
  rw [Store.release, at_filter st (fun a => a / Config.numSlots != sid.toNat) a]
  by_cases h : a / Config.numSlots = sid.toNat <;> simp [h]

/-- Everything `MemWrite` does to the slots. -/
theorem slot_write (st : Store) (sid sid' : Sid) (seq seq' : Seq4) (data : List Byte) (first : Bool) :
    Store.slot (Store.write st sid seq data first) sid' seq' =
      if sid' = sid ∧ seq' = seq then some { data := data, first := first } else Store.slot st sid' seq' := by
  rw [Store.slot, Store.write, at_insert]
  simp only [slotAddr_inj, Store.slot]

/-- Everything `Release` does to the slots. -/
theorem slot_release (st : Store) (sid sid' : Sid) (seq' : Seq4) :
    Store.slot (Store.release st sid) sid' seq' = if sid' = sid then none else Store.slot st sid' seq' := by
  rw [Store.slot, at_release, slotAddr_div]
  have : sid'.toNat = sid.toNat ↔ sid' = sid := BitVec.toNat_inj
  simp only [this, Store.slot]

/-! ## The canonical form -/

/-- The canonical form, said of the store alone. -/
def Store.canonical (st : Store) : Prop :=
  st.Pairwise (fun a b => a.1 < b.1) ∧ ∀ e ∈ st, e.1 < Config.numSids * Config.numSlots

theorem wf_iff (m : Memory) : m.wf ↔ Store.canonical m.store := Iff.rfl

theorem mem_insert {st : Store} {a : Nat} {f : Fragment} {e : Nat × Fragment}
    (h : e ∈ Store.insert st a f) : e = (a, f) ∨ e ∈ st := by
  induction st with
  | nil => simp [Store.insert] at h; exact .inl h
  | cons x rest ih =>
    simp only [Store.insert] at h
    split at h
    · simp at h ⊢; exact h
    · split at h
      · simp at h ⊢
        rcases h with h | h
        · exact .inl h
        · exact .inr (.inr h)
      · simp at h ⊢
        rcases h with h | h
        · exact .inr (.inl h)
        · rcases ih h with h | h
          · exact .inl h
          · exact .inr (.inr h)

theorem insert_canonical {st : Store} {a : Nat} {f : Fragment} (h : Store.canonical st)
    (ha : a < Config.numSids * Config.numSlots) : Store.canonical (Store.insert st a f) := by
  refine ⟨?_, fun e he => ?_⟩
  · have hs := h.1
    clear h
    induction st with
    | nil => simp [Store.insert]
    | cons x rest ih =>
      obtain ⟨hx, hr⟩ := List.pairwise_cons.1 hs
      simp only [Store.insert]
      split
      · rename_i h1
        refine List.pairwise_cons.2 ⟨fun e he => ?_, hs⟩
        rcases List.mem_cons.1 he with rfl | he
        · exact h1
        · exact Nat.lt_trans h1 (hx e he)
      · split
        · rename_i h1 h2
          exact List.pairwise_cons.2 ⟨fun e he => by have := hx e he; simp only; omega, hr⟩
        · rename_i h1 h2
          refine List.pairwise_cons.2 ⟨fun e he => ?_, ih hr⟩
          rcases mem_insert he with rfl | he
          · simp only; omega
          · exact hx e he
  · rcases mem_insert he with rfl | he
    · exact ha
    · exact h.2 e he

/-- `MemWrite` keeps the canonical form. -/
theorem write_canonical {st : Store} (h : Store.canonical st) (sid : Sid) (seq : Seq4) (data : List Byte)
    (first : Bool) : Store.canonical (Store.write st sid seq data first) :=
  insert_canonical h (slotAddr_lt sid seq)

/-- `Release` keeps the canonical form. -/
theorem release_canonical {st : Store} (h : Store.canonical st) (sid : Sid) :
    Store.canonical (Store.release st sid) :=
  ⟨h.1.filter _, fun e he => h.2 e (List.mem_of_mem_filter he)⟩

/-- `ClearAll` keeps the canonical form. -/
theorem clearAll_canonical (st : Store) : Store.canonical (Store.clearAll st) := by
  simp [Store.canonical, Store.clearAll]

/-- `add_fragment` keeps the canonical form. -/
theorem addFragment_canonical {st : Store} (h : Store.canonical st) (sid : Sid) (seq : Seq4)
    (flags : BitVec 2) (data : List Byte) : Store.canonical (addFragment st sid seq flags data).2 := by
  simp only [addFragment]
  split
  · exact h
  · split
    · exact release_canonical (write_canonical h ..) sid
    · exact write_canonical h ..

/-- The store after reset is in canonical form. -/
theorem reset_canonical : State.reset.mem.wf := by
  simp [Memory.wf, State.reset]

/-! ## Equality of stores -/

theorem at_eq_none_of_lt {st : Store} {a : Nat} (h : ∀ e ∈ st, a < e.1) : Store.at st a = none := by
  induction st with
  | nil => rfl
  | cons e rest ih =>
    rw [at_cons, if_neg (by have := h e (by simp); omega)]
    exact ih fun e he => h e (by simp [he])

/-- Strictly rising lists with equal lookups are equal. -/
theorem ext_of_sorted {st st' : Store} (h : st.Pairwise (fun a b => a.1 < b.1))
    (h' : st'.Pairwise (fun a b => a.1 < b.1)) (heq : ∀ a, Store.at st a = Store.at st' a) : st = st' := by
  induction st generalizing st' with
  | nil =>
    cases st' with
    | nil => rfl
    | cons e rest =>
      have := heq e.1
      rw [at_cons, if_pos rfl] at this
      cases this
  | cons e rest ih =>
    cases st' with
    | nil =>
      have := heq e.1
      rw [at_cons, if_pos rfl] at this
      cases this
    | cons e' rest' =>
      obtain ⟨he, hr⟩ := List.pairwise_cons.1 h
      obtain ⟨he', hr'⟩ := List.pairwise_cons.1 h'
      have hk : e.1 = e'.1 := by
        rcases Nat.lt_trichotomy e.1 e'.1 with hlt | heq' | hgt
        · have h1 := heq e.1
          rw [at_cons, if_pos rfl, at_cons, if_neg (by omega),
            at_eq_none_of_lt (fun x hx => Nat.lt_trans hlt (he' x hx))] at h1
          cases h1
        · exact heq'
        · have h1 := heq e'.1
          rw [at_cons, if_neg (by omega), at_cons, if_pos rfl,
            at_eq_none_of_lt (fun x hx => Nat.lt_trans hgt (he x hx))] at h1
          cases h1
      have hv : e.2 = e'.2 := by
        have h1 := heq e.1
        rw [at_cons, if_pos rfl, at_cons, if_pos hk.symm] at h1
        exact Option.some.inj h1
      have hrest : rest = rest' := by
        refine ih hr hr' fun a => ?_
        by_cases ha : a ≤ e.1
        · rw [at_eq_none_of_lt (fun x hx => Nat.lt_of_le_of_lt ha (he x hx)),
            at_eq_none_of_lt (fun x hx => Nat.lt_of_le_of_lt (hk ▸ ha) (he' x hx))]
        · have h1 := heq a
          rwa [at_cons, if_neg (by omega), at_cons, if_neg (by omega)] at h1
      rw [Prod.ext hk hv, hrest]

/-- Stores in canonical form are equal where all their slots are. -/
theorem ext_of_slots {st st' : Store} (h : Store.canonical st) (h' : Store.canonical st')
    (heq : ∀ sid seq, Store.slot st sid seq = Store.slot st' sid seq) : st = st' := by
  refine ext_of_sorted h.1 h'.1 fun a => ?_
  by_cases ha : a < Config.numSids * Config.numSlots
  · have := heq (BitVec.ofNat 14 (a / 16)) (BitVec.ofNat 4 (a % 16))
    rwa [Store.slot, Store.slot, slotAddr_surj ha] at this
  · have none_of : ∀ {x : Store}, Store.canonical x → Store.at x a = none := by
      intro x hx
      cases hf : Store.at x a with
      | none => rfl
      | some f =>
        simp only [Store.at, Option.map_eq_some_iff] at hf
        obtain ⟨e, he, -⟩ := hf
        have h1 := hx.2 e (List.mem_of_find?_eq_some he)
        have h2 := List.find?_some he
        simp only [beq_iff_eq] at h2
        omega
    rw [none_of h, none_of h']

/-! ## The engine -/

/-- A duplicate (R254): the slot was full, and the store is as before. -/
theorem addFragment_duplicate {st : Store} {sid : Sid} {seq : Seq4} {flags : BitVec 2} {data : List Byte}
    (h : Store.slot st sid seq ≠ none) : addFragment st sid seq flags data = (.duplicate, st) := by
  rw [addFragment, if_pos (Option.isSome_iff_ne_none.2 h)]

/-- A fragment that is stored and completes nothing. -/
theorem addFragment_buffered {st : Store} {sid : Sid} {seq : Seq4} {flags : BitVec 2} {data : List Byte}
    (h : Store.slot st sid seq = none) (hl : flags ≠ 0b01) :
    addFragment st sid seq flags data = (.buffered, Store.write st sid seq data (flags.getLsbD 1)) := by
  rw [addFragment, if_neg (by simp [h])]
  simp only [isLast, beq_iff_eq, if_neg hl, storeStep]

/-- A fragment flagged last completes its group. -/
theorem addFragment_last {st : Store} {sid : Sid} {seq : Seq4} {data : List Byte}
    (h : Store.slot st sid seq = none) :
    addFragment st sid seq 0b01 data = completeStep (Store.write st sid seq data false) sid seq := by
  rw [addFragment, if_neg (by simp [h])]
  rfl

/-- No submission of one SID touches another SID's group. -/
theorem slot_addFragment_other {st : Store} {sid sid' : Sid} (hs : sid' ≠ sid) (seq seq' : Seq4)
    (flags : BitVec 2) (data : List Byte) :
    Store.slot (addFragment st sid seq flags data).2 sid' seq' = Store.slot st sid' seq' := by
  have hw : Store.slot (storeStep st sid seq flags data) sid' seq' = Store.slot st sid' seq' := by
    rw [storeStep, slot_write, if_neg (fun h => hs h.1)]
  simp only [addFragment]
  split
  · rfl
  · split
    · rw [completeStep, slot_release, if_neg hs, hw]
    · exact hw

end Sys2Proof.Machine
end

