-- ==== Sys2Proof/Laws/Frag.lean ====
section
/-! SUPPORT. What the fragment path does, gate by gate, and which class's part after the walk a finished
walk leads to. -/

namespace Sys2Proof.Machine

/-- Everything the comparison of the fragment check does. -/
theorem fragFcs_run (P : Config.Params) (o : Nat) (s : State) :
    (fragFcs P o).run s =
      if o + 4 ≤ s.caplen then
        .ok (s.valueAt o 4, (P.crc32Field (slice s.mem.frame 0 (s.caplen - 4))).toNat == s.valueAt o 4) s
      else .error o s := by
  rw [fragFcs, act_bind, memRead_run]
  by_cases h : o + 4 ≤ s.caplen
  · rw [if_pos h, if_pos h]
    dsimp only
    rw [act_get_bind, memBytes_bind_ok (o := 0) (n := s.caplen - 4) _ (by omega), act_pure]
  · rw [if_neg h, if_neg h]

/-- Everything that follows `add_fragment`. -/
theorem afterAdd_run (r : AddResult) (s : State) :
    (afterAdd r).run s = .ok () (match r with
      | .complete buf n c =>
        s.clearFragmented.withRecords (.reasm s.fragSid n c buf.length buf ::
          s.payloadRecords (targetCont s.cfg.reasmTarget) .reasm 0 buf.length buf)
      | .duplicate => s.withRecords [.event .fragDuplicate s.hdrlen, .note .fragN s.fragSeq.toNat]
      | .buffered => s.withRecords [.note .fragN s.fragSeq.toNat]) := by
  cases r with
  | complete buf n c =>
    rw [afterAdd, act_get_bind]
    dsimp only
    rw [act_modify_bind, emit_bind, payload_run]
    simp [State.addRecord, State.withRecords, State.payloadRecords, State.clearFragmented]
  | duplicate =>
    rw [afterAdd, act_get_bind]
    simp [addRecord_addRecord]
  | buffered => rfl

/-- Submission without fragment information. -/
theorem submitFragment_noInfo {s : State} (h : s.fragValid = false) :
    submitFragment.run s = .ok () (s.addRecord (.event .fragNoInfo s.hdrlen)) := by
  rw [submitFragment, act_get_bind, if_neg (by simp [h])]
  rfl

/-- Submission with fragment information, the fragment's bytes captured. -/
theorem submitFragment_ok {s : State} (h : s.fragValid = true)
    (hc : s.hdrlen + (s.payloadLength - 4) ≤ s.caplen) :
    submitFragment.run s =
      (afterAdd (addFragment s.mem.store s.fragSid s.fragSeq s.fragFlags s.fragmentData).1).run
        (s.setStore (addFragment s.mem.store s.fragSid s.fragSeq s.fragFlags s.fragmentData).2) := by
  rw [submitFragment, act_get_bind, if_pos h, memBytes_bind_ok _ hc]
  dsimp only
  rw [act_modify_bind]
  rfl

/-- The minimum-size gate. -/
theorem fragBody_short {P : Config.Params} {s : State} (h : s.pdulen < 4 ∨ s.payloadLength < 4) :
    (fragBody P).run s = .ok () (s.addRecord (.event .fragTooShort s.hdrlen)) := by
  rw [fragBody, act_get_bind, if_pos h]
  rfl

theorem fcsAt_add {s : State} (h : 4 ≤ s.pdulen) : s.fcsAt + 4 = s.hdrlen + s.pdulen.toNat := by
  rw [State.fcsAt]; omega

theorem fcsOffset_eq (s : State) : fcsOffset s.hdrlen s.pdulen = s.fcsAt := rfl

/-- The fragment check is not captured. -/
theorem fragBody_fault {P : Config.Params} {s : State} (h : 4 ≤ s.pdulen) (h' : 4 ≤ s.payloadLength)
    (hc : s.caplen < s.hdrlen + s.pdulen.toNat) : (fragBody P).run s = .error s.fcsAt s := by
  rw [fragBody, act_get_bind, if_neg (by omega)]
  dsimp only
  rw [act_bind, fragFcs_run, if_neg]
  · rfl
  · have := fcsAt_add h
    simp only [State.fcsAt, fcsOffset] at *
    omega

/-- The fragment check fails. -/
theorem fragBody_bad {P : Config.Params} {s : State} (h : s.fcsCaptured) (hg : ¬ s.fcsGood P) :
    (fragBody P).run s = .ok () (s.withRecords [s.fcsRecord .bad, .event .badFragFcs s.fcsAt]) := by
  obtain ⟨h1, h2, h3⟩ := h
  have hx := fcsAt_add h1
  rw [fragBody, act_get_bind, if_neg (by omega), fcsOffset_eq]
  dsimp only
  rw [act_bind, fragFcs_run, if_pos (by omega)]
  dsimp only
  rw [if_neg (fun hb => hg (eq_of_beq hb)), emitCheck_bind, raiseEvent_run, addRecord_addRecord]
  rfl

/-- The fragment check holds: the field, then the submission. -/
theorem fragBody_good {P : Config.Params} {s : State} (h : s.fcsCaptured) (hg : s.fcsGood P) :
    (fragBody P).run s = submitFragment.run (s.addRecord (s.fcsRecord .good)) := by
  obtain ⟨h1, h2, h3⟩ := h
  have hx := fcsAt_add h1
  rw [fragBody, act_get_bind, if_neg (by omega), fcsOffset_eq]
  dsimp only
  rw [act_bind, fragFcs_run, if_pos (by omega)]
  dsimp only
  rw [if_pos (beq_iff_eq.2 hg), emitCheck_bind]
  rfl

/-- The fragment path behind a bad header check. -/
theorem tailFrag_badHcs {P : Config.Params} {s : State} (h2 : 2 ≤ s.hdrlen) (h : s.hdrlen ≤ s.caplen)
    (hb : s.hcsVerdict P = .bad) : (tailFrag P).run s = .ok () (s.hcsDone P).restoreFragmented := by
  have hp : (s.hcsDone P).proceed = false := by simp [State.hcsDone, hb]
  rw [tailFrag, act_bind_ok (hcsCheck_ok h2 h), act_get_bind, if_neg (by simp [hp])]
  rfl

/-- The fragment path behind a header check that does not fail. -/
theorem tailFrag_proceed {P : Config.Params} {s : State} (h2 : 2 ≤ s.hdrlen) (h : s.hdrlen ≤ s.caplen)
    (hb : s.hcsVerdict P ≠ .bad) :
    (tailFrag P).run s = match (fragBody P).run (s.hcsDone P) with
      | .ok _ t => .ok () t.restoreFragmented
      | .error o t => .error o t := by
  have hp : (s.hcsDone P).proceed = true := by simp [State.hcsDone, hb]
  rw [tailFrag, act_bind_ok (hcsCheck_ok h2 h), act_get_bind, if_pos hp, act_bind]
  cases (fragBody P).run (s.hcsDone P) <;> rfl

/-! ## Which part after the walk -/

theorem classTail_pkt (P : Config.Params) (p : BitVec 5) : classTail P 0 p = ethernetTail P := rfl

theorem classTail_iso (P : Config.Params) (p : BitVec 5) : classTail P 2 p = ethernetTail P := rfl

theorem classTail_rsvd (P : Config.Params) (p : BitVec 5) : classTail P 1 p = tailRsvd P := rfl

theorem classTail_timing (P : Config.Params) : classTail P 3 0 = managementTail P := rfl

theorem classTail_mgmt (P : Config.Params) : classTail P 3 1 = managementTail P := rfl

theorem classTail_frag (P : Config.Params) : classTail P 3 3 = tailFrag P := rfl

/-- The step of phase `tail`, where the class's part goes on to its end. -/
theorem step_tail_ok {s t : State} {m : Act Unit} (hp : s.phase = .tail)
    (hm : classTail defaultParams s.fctype s.fcparm = m) (h : m.run s = .ok () t) :
    step s = .next t.endFrame := by
  simp only [step, hp, State.finishFrame, frameTail]
  rw [act_get_bind, hm, act_bind_ok h]
  rfl

/-- The step of phase `tail`, where the class's part is cut short. -/
theorem step_tail_error {s t : State} {m : Act Unit} {o : Nat} (hp : s.phase = .tail)
    (hm : classTail defaultParams s.fctype s.fcparm = m) (h : m.run s = .error o t) :
    step s = .next (t.takeFault o) := by
  simp only [step, hp, State.finishFrame, frameTail]
  rw [act_get_bind, hm, act_bind_error h]
  rfl

end Sys2Proof.Machine
end

