-- ==== Sys2Proof/Laws/Keeps.lean ====
section
/-! SUPPORT. What the own part of an element keeps, however it ends; and from it everything one element
can do, said once. -/

namespace Sys2Proof.Machine

/-- The state an action leaves, however it ends. -/
def leaves {α : Type} : EStateM.Result Nat State α → State
  | .ok _ s => s
  | .error _ s => s

/-- On the frame buffer `F` an action keeps a relation, and the buffer. -/
def Keeps {α : Type} (F : List Byte) (R : State → State → Prop) (m : Act α) : Prop :=
  ∀ s, s.mem.frame = F → R s (leaves (m.run s)) ∧ (leaves (m.run s)).mem.frame = F

/-- A relation that holds of no change and of two changes in a row. -/
structure IsChain (R : State → State → Prop) : Prop where
  refl : ∀ s, R s s
  trans : ∀ {s t u}, R s t → R t u → R s u

section
variable {F : List Byte} {R : State → State → Prop} {α β : Type}

theorem keeps_pure (hR : IsChain R) (a : α) : Keeps F R (pure a : Act α) := fun s h => ⟨hR.refl s, h⟩

theorem keeps_bind (hR : IsChain R) {m : Act α} {f : α → Act β} (hm : Keeps F R m)
    (hf : ∀ a, Keeps F R (f a)) : Keeps F R (m >>= f) := by
  intro s hs
  have h1 := hm s hs
  rw [act_bind]
  cases h : m.run s with
  | ok a t =>
    rw [h] at h1
    exact ⟨hR.trans h1.1 (hf a t h1.2).1, (hf a t h1.2).2⟩
  | error e t =>
    rw [h] at h1
    exact h1

theorem keeps_get_bind {f : State → Act β} (hf : ∀ s, Keeps F R (f s)) :
    Keeps F R ((get : Act State) >>= f) := fun s hs => hf s s hs

theorem keeps_modify {f : State → State} (h : ∀ s, R s (f s)) (hf : ∀ s, (f s).mem.frame = s.mem.frame) :
    Keeps F R (modify f : Act Unit) := fun s hs => ⟨h s, (hf s).trans hs⟩

theorem keeps_ite {c : Prop} [Decidable c] {m n : Act α} (hm : Keeps F R m) (hn : Keeps F R n) :
    Keeps F R (if c then m else n) := by
  split
  · exact hm
  · exact hn

/-- What follows a read may rely on the read bytes being captured and on the width of the value. -/
theorem keeps_memRead_bind (hR : IsChain R) {o n : Nat} {f : Nat → Act β}
    (hf : ∀ v, o + n ≤ F.length → v < 256 ^ n → Keeps F R (f v)) : Keeps F R (memRead o n >>= f) := by
  intro s hs
  rw [act_bind, memRead_run]
  by_cases h : o + n ≤ s.caplen
  · rw [if_pos h]
    exact hf _ (by rw [← hs]; exact h) (valueAt_lt s o n) s hs
  · rw [if_neg h]
    exact ⟨hR.refl s, hs⟩

theorem keeps_memBytes_bind (hR : IsChain R) {o n : Nat} {f : List Byte → Act β}
    (hf : ∀ l, o + n ≤ F.length → l.length = n → Keeps F R (f l)) : Keeps F R (memBytes o n >>= f) := by
  intro s hs
  rw [act_bind, memBytes_run]
  by_cases h : o + n ≤ s.caplen
  · rw [if_pos h]
    exact hf _ (by rw [← hs]; exact h) (slice_length _ _ _ h) s hs
  · rw [if_neg h]
    exact ⟨hR.refl s, hs⟩

end

/-! ## Address fields in a record stream -/

/-- A stream goes on with records whose address fields follow a hand-off among them. -/
theorem addressesOk_append {cap : Nat} {last : Option Handed} {l l' : List Record}
    (h : addressesOk cap last l) (h' : ∀ last, addressesOk cap last l') : addressesOk cap last (l ++ l') := by
  induction l generalizing last with
  | nil => exact h' last
  | cons r l ih =>
    cases r with
    | field => exact ⟨h.1, h.2.1, ih h.2.2⟩
    | handoff | event | note | reasm => exact ih (last := _) h

/-- A field that is no address field asks nothing of the records before it. -/
theorem addressesOk_field {cap off n : Nat} {id : FieldId} {v : FieldVal} {c : Option CheckStatus}
    (h : id ≠ .encDa ∧ id ≠ .encSa) (last : Option Handed) : addressesOk cap last [.field id off n v c] :=
  ⟨fun e => absurd e h.1, fun e => absurd e h.2, trivial⟩

/-! ## The own parts -/

/-- A record an element may add: in order for the frame, no fault report, and no address field. -/
def fineRecord (cap : Nat) (r : Record) : Prop :=
  recordOk cap r ∧ (∀ o, r ≠ .event .faultBounds o) ∧ ∀ last, addressesOk cap last [r]

theorem fineRecord_addresses {cap : Nat} {rs : List Record} (h : ∀ r ∈ rs, fineRecord cap r) :
    ∀ last, addressesOk cap last rs := by
  induction rs with
  | nil => exact fun _ => trivial
  | cons r rs ih =>
    exact fun last => addressesOk_append (l := [r]) ((h r List.mem_cons_self).2.2 last)
      (ih fun x hx => h x (List.mem_cons_of_mem _ hx))

/-- What the own part of an element keeps. `enc` says that it may write `is_encrypted`, `scr` that in
fragment context it may write the scratch registers. -/
structure ArmKeeps (cap : Nat) (enc scr : Bool) (s t : State) : Prop where
  mem : t.mem = s.mem
  cfg : t.cfg = s.cfg
  fc : t.fc = s.fc
  fctype : t.fctype = s.fctype
  fcparm : t.fcparm = s.fcparm
  ehdron : t.ehdron = s.ehdron
  macParm : t.macParm = s.macParm
  lenSid : t.lenSid = s.lenSid
  hdrlen : t.hdrlen = s.hdrlen
  payloadLength : t.payloadLength = s.payloadLength
  pdulen : t.pdulen = s.pdulen
  savedFragmented : t.savedFragmented = s.savedFragmented
  view : t.view = s.view
  callers : t.callers = s.callers
  fragmented : t.fragmented = s.fragmented
  proceed : t.proceed = s.proceed
  status : t.status = s.status
  cfgReadValue : t.cfgReadValue = s.cfgReadValue
  phase : t.phase = s.phase
  pending : t.pending = s.pending
  isEncrypted : enc = false → t.isEncrypted = s.isEncrypted
  scratch : scr = false ∨ s.fragmented = false →
    t.fragFlags = s.fragFlags ∧ t.fragSeq = s.fragSeq ∧ t.fragSid = s.fragSid ∧ t.fragValid = s.fragValid
  out : ∃ rs, t.out = s.out ++ rs ∧ ∀ r ∈ rs, fineRecord cap r

theorem ArmKeeps.chain (cap : Nat) (enc scr : Bool) : IsChain (ArmKeeps cap enc scr) where
  refl s := { mem := rfl, cfg := rfl, fc := rfl, fctype := rfl, fcparm := rfl, ehdron := rfl, macParm := rfl,
              lenSid := rfl, hdrlen := rfl, payloadLength := rfl, pdulen := rfl, savedFragmented := rfl,
              view := rfl, callers := rfl, fragmented := rfl, proceed := rfl, status := rfl,
              cfgReadValue := rfl, phase := rfl, pending := rfl, isEncrypted := fun _ => rfl,
              scratch := fun _ => ⟨rfl, rfl, rfl, rfl⟩, out := ⟨[], by simp, by simp⟩ }
  trans := by
    intro s t u h h'
    obtain ⟨a, ha, ha'⟩ := h.out
    obtain ⟨b, hb, hb'⟩ := h'.out
    exact {
      mem := h'.mem.trans h.mem, cfg := h'.cfg.trans h.cfg, fc := h'.fc.trans h.fc
      fctype := h'.fctype.trans h.fctype, fcparm := h'.fcparm.trans h.fcparm
      ehdron := h'.ehdron.trans h.ehdron, macParm := h'.macParm.trans h.macParm
      lenSid := h'.lenSid.trans h.lenSid, hdrlen := h'.hdrlen.trans h.hdrlen
      payloadLength := h'.payloadLength.trans h.payloadLength, pdulen := h'.pdulen.trans h.pdulen
      savedFragmented := h'.savedFragmented.trans h.savedFragmented, view := h'.view.trans h.view
      callers := h'.callers.trans h.callers, fragmented := h'.fragmented.trans h.fragmented
      proceed := h'.proceed.trans h.proceed, status := h'.status.trans h.status
      cfgReadValue := h'.cfgReadValue.trans h.cfgReadValue, phase := h'.phase.trans h.phase
      pending := h'.pending.trans h.pending
      isEncrypted := fun e => (h'.isEncrypted e).trans (h.isEncrypted e)
      scratch := fun e => by
        obtain ⟨a1, a2, a3, a4⟩ := h.scratch e
        obtain ⟨b1, b2, b3, b4⟩ := h'.scratch (h.fragmented ▸ e)
        exact ⟨b1.trans a1, b2.trans a2, b3.trans a3, b4.trans a4⟩
      out := ⟨a ++ b, by rw [hb, ha, List.append_assoc], fun r hr =>
        (List.mem_append.1 hr).elim (ha' r) (hb' r)⟩ }

section
variable {F : List Byte} {enc scr : Bool}

theorem arm_emit {r : Record} (h : fineRecord F.length r) :
    Keeps F (ArmKeeps F.length enc scr) (emit r) := by
  refine fun s hs => ⟨?_, hs⟩
  have e := (ArmKeeps.chain F.length enc scr).refl s
  exact { e with out := ⟨[r], rfl, by simpa using h⟩ }

theorem fine_num {cap : Nat} {id : FieldId} {o n v : Nat} (hc : o + n ≤ cap) (hv : v < 256 ^ n)
    (hi : id ≠ .ehVal ∧ id ≠ .encDa ∧ id ≠ .encSa ∧ id ≠ .hcs ∧ id ≠ .fragFcs) :
    fineRecord cap (numField id o n v) := by
  refine ⟨⟨fun _ _ => hc, ⟨hv, hi.1, hi.2.1, hi.2.2.1⟩, ?_⟩, fun o => by simp [numField],
    addressesOk_field ⟨hi.2.1, hi.2.2.1⟩⟩
  simp [hi.2.2.2.1, hi.2.2.2.2]

theorem bits_le (v hi lo : Nat) : bits v hi lo ≤ v :=
  Nat.le_trans (Nat.mod_le _ _) (Nat.div_le_self _ _)

/-- A field cut from a captured value. -/
theorem arm_bits {id : FieldId} {o n v hi lo : Nat} (hc : o + n ≤ F.length) (hv : v < 256 ^ n)
    (hid : id ≠ .ehVal ∧ id ≠ .encDa ∧ id ≠ .encSa ∧ id ≠ .hcs ∧ id ≠ .fragFcs) :
    Keeps F (ArmKeeps F.length enc scr) (emitField id o n (bits v hi lo)) :=
  arm_emit (fine_num hc (Nat.lt_of_le_of_lt (bits_le _ _ _) hv) hid)

theorem arm_readField {id : FieldId} {o n : Nat}
    (hid : id ≠ .ehVal ∧ id ≠ .encDa ∧ id ≠ .encSa ∧ id ≠ .hcs ∧ id ≠ .fragFcs) :
    Keeps F (ArmKeeps F.length enc scr) (readField id o n) :=
  keeps_memRead_bind (ArmKeeps.chain ..) fun _ hc hv => arm_emit (fine_num hc hv hid)

theorem arm_keyseqVersion {p : Nat} : Keeps F (ArmKeeps F.length enc scr) (keyseqVersion p) :=
  keeps_memRead_bind (ArmKeeps.chain ..) fun _ hc hv =>
    keeps_bind (ArmKeeps.chain ..) (arm_bits hc hv (by decide)) fun _ => arm_bits hc hv (by decide)

theorem arm_privacyWord {id : FieldId} {p : Nat}
    (hid : id ≠ .ehVal ∧ id ≠ .encDa ∧ id ≠ .encSa ∧ id ≠ .hcs ∧ id ≠ .fragFcs) :
    Keeps F (ArmKeeps F.length true scr) (privacyWord id p) := by
  have hR := ArmKeeps.chain F.length true scr
  refine keeps_memRead_bind hR fun w hc hv => ?_
  refine keeps_bind hR (arm_bits hc hv (by decide)) fun _ => ?_
  refine keeps_bind hR (keeps_modify (fun s => ?_) (fun _ => rfl)) fun _ => ?_
  · exact { hR.refl s with isEncrypted := fun h => by cases h }
  · refine keeps_bind hR (arm_bits hc hv (by decide)) fun _ => ?_
    exact keeps_bind hR (arm_bits hc hv hid) fun _ => keeps_pure hR _

theorem arm_serviceFlow {p : Nat} {len : BitVec 4} :
    Keeps F (ArmKeeps F.length enc scr) (serviceFlow p len) := by
  have hR := ArmKeeps.chain F.length enc scr
  refine keeps_bind hR (arm_readField (by decide)) fun _ => keeps_ite ?_ (keeps_pure hR _)
  exact keeps_memRead_bind hR fun v hc hv =>
    keeps_bind hR (arm_bits hc hv (by decide)) fun _ => arm_bits hc hv (by decide)

theorem arm_dsid {p : Nat} : Keeps F (ArmKeeps F.length enc scr) (dsid p) :=
  keeps_memRead_bind (ArmKeeps.chain ..) fun _ hc hv => arm_bits hc hv (by decide)

theorem arm_armRequest {len : BitVec 4} {p : Nat} :
    Keeps F (ArmKeeps F.length enc scr) (armRequest len p) := by
  have hR := ArmKeeps.chain F.length enc scr
  refine keeps_ite ?_ (keeps_pure hR _)
  exact keeps_bind hR (arm_readField (by decide)) fun _ =>
    keeps_bind hR (arm_readField (by decide)) fun _ => keeps_pure hR _

theorem arm_armAckReq {len : BitVec 4} {p : Nat} :
    Keeps F (ArmKeeps F.length enc scr) (armAckReq len p) := by
  have hR := ArmKeeps.chain F.length enc scr
  exact keeps_ite (keeps_bind hR (arm_readField (by decide)) fun _ => keeps_pure hR _) (keeps_pure hR _)

theorem arm_armDownPrivacy {p : Nat} : Keeps F (ArmKeeps F.length true scr) (armDownPrivacy p) := by
  have hR := ArmKeeps.chain F.length true scr
  exact keeps_bind hR arm_keyseqVersion fun _ => keeps_bind hR (arm_privacyWord (by decide)) fun _ =>
    keeps_bind hR (arm_readField (by decide)) fun _ => keeps_pure hR _

theorem arm_armUpPrivacy2 {p : Nat} : Keeps F (ArmKeeps F.length true scr) (armUpPrivacy2 p) := by
  have hR := ArmKeeps.chain F.length true scr
  exact keeps_bind hR arm_keyseqVersion fun _ => keeps_bind hR (arm_privacyWord (by decide)) fun _ =>
    keeps_pure hR _

theorem arm_armSfPhs5 {len : BitVec 4} {p : Nat} :
    Keeps F (ArmKeeps F.length enc scr) (armSfPhs5 len p) :=
  keeps_bind (ArmKeeps.chain ..) arm_serviceFlow fun _ => keeps_pure (ArmKeeps.chain ..) _

theorem arm_armSfPhs6 {len : BitVec 4} {p : Nat} :
    Keeps F (ArmKeeps F.length enc scr) (armSfPhs6 len p) := by
  have hR := ArmKeeps.chain F.length enc scr
  rw [armSfPhs6]
  split
  · exact keeps_bind hR (arm_emit ⟨trivial, fun o => by simp, fun _ => trivial⟩) fun _ =>
      keeps_bind hR arm_serviceFlow fun _ => keeps_pure hR _
  · exact keeps_bind hR arm_serviceFlow fun _ => keeps_pure hR _

theorem arm_armDownService {len : BitVec 4} {p : Nat} :
    Keeps F (ArmKeeps F.length enc scr) (armDownService len p) := by
  have hR := ArmKeeps.chain F.length enc scr
  refine keeps_memRead_bind hR fun v hc hv => keeps_bind hR (arm_bits hc hv (by decide)) fun _ => ?_
  dsimp only
  split
  · exact keeps_bind hR arm_dsid fun _ => keeps_pure hR _
  · split
    · exact keeps_bind hR (arm_bits hc hv (by decide)) fun _ => keeps_bind hR arm_dsid fun _ =>
        keeps_bind hR (arm_readField (by decide)) fun _ => keeps_pure hR _
    · exact keeps_bind hR (keeps_pure hR _) fun _ => keeps_pure hR _

theorem arm_armPathVerify {len : BitVec 4} {p : Nat} :
    Keeps F (ArmKeeps F.length enc scr) (armPathVerify len p) := by
  have hR := ArmKeeps.chain F.length enc scr
  rw [armPathVerify]
  split
  · exact keeps_bind hR (arm_readField (by decide)) fun _ =>
      keeps_bind hR (arm_readField (by decide)) fun _ => keeps_pure hR _
  · exact keeps_bind hR (keeps_pure hR _) fun _ => keeps_pure hR _

theorem arm_armDefault {len : BitVec 4} {p : Nat} :
    Keeps F (ArmKeeps F.length enc scr) (armDefault len p) := by
  have hR := ArmKeeps.chain F.length enc scr
  refine keeps_bind hR (keeps_ite (keeps_pure hR _) ?_) fun _ => keeps_pure hR _
  refine keeps_memBytes_bind hR fun l hc hl => arm_emit ⟨⟨fun _ _ => by rw [hl]; exact hc, ⟨rfl, .inl rfl⟩, ?_⟩,
    fun o => by simp, addressesOk_field (by decide)⟩
  simp

theorem arm_fragmentByte {p w : Nat} (s : State) (hs : s.mem.frame = F) (hf : s.fragmented = true) :
    ArmKeeps F.length enc true s (leaves ((fragmentByte p w).run s)) ∧
      (leaves ((fragmentByte p w).run s)).mem.frame = F := by
  have hR := ArmKeeps.chain F.length enc true
  have hb := valueAt_one_lt s (p + 5)
  rw [fragmentByte_run]
  by_cases h : p + 6 ≤ s.caplen
  · rw [if_pos h]
    have hc : p + 5 + 1 ≤ F.length := by rw [← hs]; exact h
    refine ⟨{ hR.refl s with isEncrypted := fun _ => rfl, scratch := fun e => ?_, out := ⟨_, rfl, ?_⟩ }, hs⟩
    · rcases e with e | e
      · cases e
      · rw [hf] at e; cases e
    · intro r hr
      simp only [State.fragmentRecords, List.mem_cons, List.not_mem_nil, or_false] at hr
      rcases hr with rfl | rfl | rfl | rfl <;> exact fine_num hc (by omega) (by decide)
  · rw [if_neg h]
    exact ⟨hR.refl s, hs⟩

theorem arm_armUpPrivacy {p : Nat} : Keeps F (ArmKeeps F.length true true) (armUpPrivacy p) := by
  have hR := ArmKeeps.chain F.length true true
  refine keeps_bind hR arm_keyseqVersion fun _ => keeps_bind hR (arm_privacyWord (by decide)) fun w =>
    keeps_bind hR (arm_readField (by decide)) fun _ => ?_
  intro s hs
  rw [act_get_bind]
  dsimp only
  by_cases hf : s.fragmented = true
  · rw [if_pos hf]
    have h := arm_fragmentByte (enc := true) (p := p) (w := w) s hs hf
    rw [act_bind]
    cases hm : (fragmentByte p w).run s with
    | ok a t => rw [hm] at h; exact h
    | error e t => rw [hm] at h; exact h
  · rw [if_neg hf]
    exact ⟨hR.refl s, hs⟩

end

/-! ## Everything one element can do -/

/-- How an element ends, from its shown state `u`: it goes on behind itself; it leaves its activation; it
opens a nested one; or a `FAULT_BOUNDS` ends the frame. -/
inductive ElementEnds (s : State) (type len : BitVec 4) (enc scr : Bool) : State → Prop
  /-- The element overran its view. -/
  | pastEnd : ¬ s.fits len →
      ElementEnds s type len enc scr
        ((s.setView (s.view.setHead type len)).addRecord (.event .ehPastEnd s.headAt)).leaveView
  /-- It goes on behind itself. -/
  | advance (u : State) : s.fits len → ArmKeeps s.caplen enc scr (s.elementShown type len []) u →
      ElementEnds s type len enc scr u.steppedOver
  /-- It had a wrong length, and its activation is left. -/
  | abort (u : State) : s.fits len → ArmKeeps s.caplen enc scr (s.elementShown type len []) u →
      ElementEnds s type len enc scr u.leaveView
  /-- It opens a nested activation. -/
  | nested : s.fits len → type = 15 → s.headAt + 2 ≤ s.caplen →
      ElementEnds s type len enc scr ((s.elementShown type len []).startView s.headAt
        (BitVec.ofNat 8 (s.valueAt (s.headAt + 1) 1)) ((s.elementShown type len []).view :: s.callers))
  /-- A read ran out of the captured bytes. -/
  | fault (u : State) (o : Nat) : s.fits len → ArmKeeps s.caplen enc scr (s.elementShown type len []) u →
      ElementEnds s type len enc scr (u.takeFault o)

theorem element_ends {type len : BitVec 4} {arm : Nat → Act ArmEnd} {enc scr : Bool} {s : State}
    (hk : Keeps s.mem.frame (ArmKeeps s.caplen enc scr) (arm s.headAt))
    (hn : ∀ t, (arm s.headAt).run (s.elementShown type len []) ≠ .ok .nested t) :
    ∃ t, runAct (element type len arm) s = .next t ∧ ElementEnds s type len enc scr t := by
  by_cases hf : s.fits len
  · have h := (hk (s.elementShown type len []) rfl).1
    cases hm : (arm s.headAt).run (s.elementShown type len []) with
    | ok r t =>
      rw [hm] at h
      have h : ArmKeeps s.caplen enc scr (s.elementShown type len []) t := h
      cases r with
      | advance => exact ⟨_, runAct_ok (element_advance hf hm), .advance t hf h⟩
      | nested => exact absurd hm (hn t)
      | mismatch =>
        have h' : ArmKeeps s.caplen enc scr (s.elementShown type len [])
            (t.addRecord (.event .ehLenMismatch s.headAt)) :=
          (ArmKeeps.chain ..).trans h { (ArmKeeps.chain s.caplen enc scr).refl t with
            out := ⟨[_], rfl, by
              intro r hr
              rw [List.mem_singleton.1 hr]
              exact ⟨trivial, fun o => by simp, fun _ => trivial⟩⟩ }
        refine ⟨_, runAct_ok (element_mismatch hf hm), ?_⟩
        split
        · exact .abort _ hf h'
        · exact .advance _ hf h'
    | error o t =>
      rw [hm] at h
      exact ⟨_, runAct_error (element_fault hf hm), .fault t o hf h⟩
  · exact ⟨_, runAct_ok (element_pastEnd hf), .pastEnd hf⟩

theorem extended_ends (len : BitVec 4) (s : State) (enc scr : Bool) :
    ∃ t, runAct (element 15 len armExtended) s = .next t ∧ ElementEnds s 15 len enc scr t := by
  by_cases hf : s.fits len
  · have h := armExtended_run s.headAt (s.elementShown 15 len [])
    by_cases hc : s.headAt + 2 ≤ s.caplen
    · rw [if_pos (show s.headAt + 2 ≤ State.caplen (s.elementShown 15 len []) from hc)] at h
      exact ⟨_, runAct_ok ((element_fits hf).trans (by rw [h]; rfl)), .nested hf rfl hc⟩
    · rw [if_neg (show ¬ s.headAt + 2 ≤ State.caplen (s.elementShown 15 len []) from hc)] at h
      exact ⟨_, runAct_error (element_fault hf h), .fault _ _ hf ((ArmKeeps.chain ..).refl _)⟩
  · exact ⟨_, runAct_ok (element_pastEnd hf), .pastEnd hf⟩

end Sys2Proof.Machine
end

