-- ==== Sys2Proof/Laws/Ends.lean ====
section
/-! SUPPORT. Everything the end of a frame after its walk can do, said once: the records in order, the
header check, the hand-offs, the body of a fragment frame. -/

namespace Sys2Proof.Machine

/-! ## Records -/

/-- Every record is no fault report, and where `P` holds the records are in order for a frame of `cap`
bytes, whatever was handed off before them. -/
structure FineRecords (P : Prop) (cap : Nat) (rs : List Record) : Prop where
  noFault : ∀ r ∈ rs, ∀ o, r ≠ .event .faultBounds o
  ok : P → ∀ r ∈ rs, recordOk cap r
  addresses : P → ∀ last, addressesOk cap last rs

theorem FineRecords.nil (P : Prop) (cap : Nat) : FineRecords P cap [] :=
  ⟨fun _ h => (by cases h), fun _ _ h => (by cases h), fun _ _ => trivial⟩

theorem FineRecords.append {P : Prop} {cap : Nat} {rs rs' : List Record} (h : FineRecords P cap rs)
    (h' : FineRecords P cap rs') : FineRecords P cap (rs ++ rs') where
  noFault r hr := (List.mem_append.1 hr).elim (h.noFault r) (h'.noFault r)
  ok p r hr := (List.mem_append.1 hr).elim (h.ok p r) (h'.ok p r)
  addresses p last := addressesOk_append (h.addresses p last) (h'.addresses p)

/-- A record that is no address field, in front. -/
theorem FineRecords.cons {P : Prop} {cap : Nat} {r : Record} {rs : List Record}
    (h : ∀ o, r ≠ .event .faultBounds o) (h' : P → recordOk cap r)
    (ha : ∀ last, addressesOk cap last [r]) (hs : FineRecords P cap rs) : FineRecords P cap (r :: rs) :=
  .append (rs := [r]) ⟨by simpa using h, by simpa using h', fun _ => ha⟩ hs

theorem FineRecords.event {P : Prop} {cap : Nat} {c : EventCode} (o : Nat) (hc : c ≠ .faultBounds)
    {rs : List Record} (hs : FineRecords P cap rs) : FineRecords P cap (.event c o :: rs) :=
  .cons (fun o' h => hc (by injection h)) (fun _ => trivial) (fun _ => trivial) hs

theorem FineRecords.num {P : Prop} {cap : Nat} {id : FieldId} {o n v : Nat} {rs : List Record}
    (h : P → o + n ≤ cap ∧ v < 256 ^ n)
    (hi : id ≠ .ehVal ∧ id ≠ .encDa ∧ id ≠ .encSa ∧ id ≠ .hcs ∧ id ≠ .fragFcs)
    (hs : FineRecords P cap rs) : FineRecords P cap (numField id o n v :: rs) :=
  .cons (fun o' => by simp [numField]) (fun p => (fine_num (h p).1 (h p).2 hi).1)
    (addressesOk_field ⟨hi.2.1, hi.2.2.1⟩) hs

theorem FineRecords.check {P : Prop} {cap : Nat} {id : FieldId} {o n v : Nat} {c : CheckStatus}
    {rs : List Record} (h : P → o + n ≤ cap ∧ v < 256 ^ n) (hi : id = .hcs ∨ id = .fragFcs)
    (hs : FineRecords P cap rs) : FineRecords P cap (.field id o n (.num v) (some c) :: rs) := by
  refine .cons (fun o' => by simp) (fun p => ⟨fun _ _ => (h p).1, ⟨(h p).2, ?_⟩, by simpa using hi⟩)
    (addressesOk_field ?_) hs
  · rcases hi with rfl | rfl <;> decide
  · rcases hi with rfl | rfl <;> decide

/-- The records of a hand-off: a slice that ends where its buffer does, which is the frame or a
reassembled buffer. -/
theorem fine_payloadRecords {P : Prop} (s : State) (cont : Cont) (src : Src) (off n : Nat) (buf : List Byte)
    (h : P → off + n = buf.length ∧ match src with
      | .frame => buf.length = s.caplen
      | .reasm => off = 0) : FineRecords P s.caplen (s.payloadRecords cont src off n buf) := by
  have hh : ∀ c, P → recordOk s.caplen (.handoff c src off n) := by
    intro c p
    have := h p
    cases src
    · exact this.1.trans this.2
    · exact this.2
  have hb : ∀ o id, id = FieldId.encDa ∨ id = .encSa → (P → o + 6 ≤ buf.length) → P →
      recordOk s.caplen (.field id o (slice buf o 6).length (.bytes (slice buf o 6)) none) := by
    intro o id hi ho p
    refine ⟨fun h1 h2 => ?_, ⟨rfl, .inr hi⟩, ?_⟩
    · rcases hi with rfl | rfl
      · exact absurd rfl h1
      · exact absurd rfl h2
    · rcases hi with rfl | rfl <;> simp
  rw [State.payloadRecords]
  split
  · split
    · rename_i hn
      refine ⟨by simp, fun p r hr => ?_, fun p last => ?_⟩
      · have hl := (h p).1
        simp only [List.mem_cons, List.not_mem_nil, or_false] at hr
        rcases hr with rfl | rfl | rfl
        · exact hh _ p
        · exact hb _ _ (.inl rfl) (fun _ => by omega) p
        · exact hb _ _ (.inr rfl) (fun _ => by omega) p
      · have hl := (h p).1
        have hf : src = .frame → buf.length = s.caplen := by
          rintro rfl
          exact (h p).2
        refine ⟨fun _ => ⟨_, rfl, rfl, hn, rfl, slice_length _ _ _ (by omega), ?_, fun hs => ?_⟩,
          fun e => (by cases e), fun e => (by cases e),
          fun _ => ⟨_, rfl, rfl, hn, rfl, slice_length _ _ _ (by omega), ?_, fun hs => ?_⟩, trivial⟩
        all_goals rw [slice_length _ _ _ (by omega)]
        · show off + 6 ≤ off + n
          omega
        · have := hf hs
          omega
        · show off + 6 + 6 ≤ off + n
          omega
        · have := hf hs
          omega
    · exact .cons (by simp) (hh _) (fun _ => trivial) (.nil ..)
  · exact .cons (by simp) (hh _) (fun _ => trivial) (.nil ..)

theorem back_fifteen : ∀ q : Seq4, q + 1 + BitVec.ofNat 4 15 = q := by decide

/-- A group that completes has 1 to 16 fragments. -/
theorem complete_length {st : Store} {sid : Sid} {seq : Seq4} {flags : BitVec 2} {data buf : List Byte}
    {n : Nat} {c : Bool} (h : (addFragment st sid seq flags data).1 = .complete buf n c) : 1 ≤ n ∧ n ≤ 16 := by
  rw [addFragment] at h
  split at h
  · cases h
  · split at h
    · injection h with _ hn _
      subst hn
      constructor
      · refine List.length_pos_of_mem (a := (seq, ⟨data, flags.getLsbD 1⟩)) ?_
        rw [presentSlots, List.mem_filterMap]
        refine ⟨seq, ?_, ?_⟩
        · rw [cyclicOrder, List.mem_map]
          exact ⟨15, by simp, back_fifteen seq⟩
        · rw [storeStep, slot_write]
          simp
      · refine Nat.le_trans (List.length_filterMap_le _ _) ?_
        simp [cyclicOrder]
    · cases h

/-! ## The end of a frame -/

/-- What the part of a class from `HcsCheck` on leaves of a state before the frame is over: records,
`proceed`, `fragmented` and the store. -/
def State.partly (s : State) (rs : List Record) (pr fr : Bool) (st : Store) : State :=
  { s with out := s.out ++ rs, proceed := pr, fragmented := fr, mem := { s.mem with store := st } }

/-- What may become of the store: nothing, or one submission to the group of `frag_sid`, with fragment
information. -/
def StoreEnds (s : State) (st : Store) : Prop :=
  st = s.mem.store ∨
    (s.fragValid = true ∧ ∃ data, st = (addFragment s.mem.store s.fragSid s.fragSeq s.fragFlags data).2)

/-- The header registers that `hdrlen` and `payload_length` are in order for the records. -/
def State.lengthsOk (s : State) : Prop := 2 ≤ s.hdrlen ∧ s.payloadLength = s.caplen - s.hdrlen

/-- How an action of the part from `HcsCheck` on ends. -/
def PartEnds (s : State) (fragClass : Prop) (r : EStateM.Result Nat State Unit) : Prop :=
  ∃ rs pr fr st, leaves r = s.partly rs pr fr st ∧ FineRecords s.lengthsOk s.caplen rs ∧
    (st = s.mem.store ∨ (fragClass ∧ StoreEnds s st))

theorem hcsCheck_run (P : Config.Params) (s : State) :
    (hcsCheck P).run s =
      if s.hdrlen - 2 + 2 ≤ s.caplen then .ok () (s.hcsDone P) else .error (s.hdrlen - 2) s := by
  by_cases h3 : s.hdrlen - 2 + 2 ≤ s.caplen
  · have h4 : 0 + (s.hdrlen - 2) ≤ s.caplen := by omega
    have hv : hcsStatus P s.cfg.validateHcs (slice s.mem.frame 0 (s.hdrlen - 2)) (s.valueAt (s.hdrlen - 2) 2)
        = s.hcsVerdict P := by
      rw [hcsStatus, State.hcsVerdict]
      cases s.cfg.validateHcs <;> simp
    rw [if_pos h3, hcsCheck, act_get_bind, memRead_bind_ok _ h3, memBytes_bind_ok _ h4, hv, emitCheck_bind,
      act_ite]
    by_cases hb : s.hcsVerdict P = .bad
    · rw [if_pos hb]
      simp [State.hcsDone, hb, State.addRecord, State.setProceed]
    · rw [if_neg hb]
      simp [State.hcsDone, hb, State.addRecord, State.setProceed]
  · rw [if_neg h3, hcsCheck, act_get_bind, memRead_bind_fault _ (by omega)]

/-- The records of the header check. -/
def State.hcsRecords (s : State) (P : Config.Params) : List Record :=
  .field .hcs (s.hdrlen - 2) 2 (.num (s.valueAt (s.hdrlen - 2) 2)) (some (s.hcsVerdict P)) ::
    (if s.hcsVerdict P = .bad then [.event .badHcs (s.hdrlen - 2)] else [])

theorem hcsDone_eq (P : Config.Params) (s : State) :
    s.hcsDone P = s.partly (s.hcsRecords P) (s.hcsVerdict P != .bad) s.fragmented s.mem.store := by
  simp [State.hcsDone, State.partly, State.hcsRecords]

theorem fine_hcsRecords {P : Config.Params} {s : State} {Q : Prop} (h : s.hdrlen - 2 + 2 ≤ s.caplen) :
    FineRecords Q s.caplen (s.hcsRecords P) := by
  refine .check (fun _ => ⟨h, valueAt_two_lt _ _⟩) (.inl rfl) ?_
  split
  · exact .event _ (by decide) (.nil ..)
  · exact .nil ..

theorem PartEnds.self (s : State) (c : Prop) (o : Nat) : PartEnds s c (.error o s) :=
  ⟨[], s.proceed, s.fragmented, s.mem.store, by simp [leaves, State.partly], .nil .., .inl rfl⟩

theorem PartEnds.hcs {P : Config.Params} {s : State} (c : Prop) {rs : List Record} {fr : Bool} {st : Store}
    {r : EStateM.Result Nat State Unit} (h : s.hdrlen - 2 + 2 ≤ s.caplen)
    (hr : leaves r = s.partly (s.hcsRecords P ++ rs) (s.hcsVerdict P != .bad) fr st)
    (hf : FineRecords s.lengthsOk s.caplen rs) (hs : st = s.mem.store ∨ (c ∧ StoreEnds s st)) :
    PartEnds s c r :=
  ⟨_, _, _, _, hr, (fine_hcsRecords h).append hf, hs⟩

theorem handoff_end {s : State} (hc : s.hdrlen - 2 + 2 ≤ s.caplen) (h : s.lengthsOk) :
    s.hdrlen + s.payloadLength = s.caplen := by
  rw [h.2]
  have := h.1
  omega

theorem partly_withRecords (s : State) (rs rs' : List Record) (pr fr : Bool) (st : Store) :
    (s.partly rs pr fr st).withRecords rs' = s.partly (rs ++ rs') pr fr st := by
  simp [State.partly, State.withRecords]

theorem partly_addRecord (s : State) (rs : List Record) (r : Record) (pr fr : Bool) (st : Store) :
    (s.partly rs pr fr st).addRecord r = s.partly (rs ++ [r]) pr fr st :=
  partly_withRecords s rs [r] pr fr st

/-- A part that is the header check and then at most some records. -/
theorem PartEnds.records {P : Config.Params} {s : State} {c : Prop} {m : Act Unit} {rs : List Record}
    (h : s.hdrlen - 2 + 2 ≤ s.caplen → m.run s = .ok () ((s.hcsDone P).withRecords rs))
    (h' : s.caplen < s.hdrlen - 2 + 2 → m.run s = .error (s.hdrlen - 2) s)
    (hf : s.hdrlen - 2 + 2 ≤ s.caplen → FineRecords s.lengthsOk s.caplen rs) : PartEnds s c (m.run s) := by
  by_cases hc : s.hdrlen - 2 + 2 ≤ s.caplen
  · rw [h hc]
    exact .hcs c hc (by rw [hcsDone_eq, partly_withRecords]; rfl) (hf hc) (.inl rfl)
  · rw [h' (by omega)]
    exact .self s c _

theorem hcs_bind {β : Type} {P : Config.Params} {s : State} (f : Unit → Act β)
    (h : s.hdrlen - 2 + 2 ≤ s.caplen) : (hcsCheck P >>= f).run s = (f ()).run (s.hcsDone P) :=
  act_bind_ok (by rw [hcsCheck_run, if_pos h])

theorem hcs_bind_fault {β : Type} {P : Config.Params} {s : State} (f : Unit → Act β)
    (h : s.caplen < s.hdrlen - 2 + 2) : (hcsCheck P >>= f).run s = .error (s.hdrlen - 2) s :=
  act_bind_error (by rw [hcsCheck_run, if_neg (by omega)])

theorem ethernetTail_part (P : Config.Params) (s : State) (c : Prop) : PartEnds s c ((ethernetTail P).run s) := by
  refine .records (P := P) (rs := if (s.hcsDone P).proceed = true ∧ 0 < s.pdulen then
    (s.hcsDone P).payloadRecords .ethNofcs .frame s.hdrlen s.payloadLength s.mem.frame else [])
    (fun h => ?_) (fun h => hcs_bind_fault _ h) fun h => ?_
  · rw [ethernetTail, hcs_bind _ h, act_get_bind, act_ite, framePayload_run]
    split
    · rw [if_pos (by assumption)]; rfl
    · rw [if_neg (by assumption)]; simp
  · split
    · exact fine_payloadRecords (s.hcsDone P) _ .frame _ _ _ fun hl => ⟨handoff_end h hl, rfl⟩
    · exact .nil ..

theorem managementTail_part (P : Config.Params) (s : State) (c : Prop) :
    PartEnds s c ((managementTail P).run s) := by
  refine .records (P := P) (rs := if (s.hcsDone P).proceed = true then
    (s.hcsDone P).payloadRecords .macMgmt .frame s.hdrlen s.payloadLength s.mem.frame else [])
    (fun h => ?_) (fun h => hcs_bind_fault _ h) fun h => ?_
  · rw [managementTail, hcs_bind _ h, act_get_bind, act_ite, framePayload_run]
    split
    · rfl
    · simp
  · split
    · exact fine_payloadRecords (s.hcsDone P) _ .frame _ _ _ fun hl => ⟨handoff_end h hl, rfl⟩
    · exact .nil ..

theorem rawTail_part (P : Config.Params) (s : State) (c : Prop) : PartEnds s c ((tailRsvd P).run s) := by
  refine .records (P := P) (rs := if (s.hcsDone P).proceed = true ∧ 0 < s.pdulen then
    [.handoff .rawData .frame s.hdrlen s.payloadLength] else [])
    (fun h => ?_) (fun h => hcs_bind_fault _ h) fun h => ?_
  · rw [tailRsvd, hcs_bind _ h, act_get_bind, act_ite, emit_run]
    split
    · rw [if_pos (by assumption)]; rfl
    · rw [if_neg (by assumption)]; simp
  · split
    · exact .cons (fun o => by simp) (fun hl => handoff_end h hl) (fun _ => trivial) (.nil ..)
    · exact .nil ..

/-- Everything the body of a fragment frame can do. -/
theorem fragBody_ends (P : Config.Params) (s : State) :
    ∃ rs fr st, leaves ((fragBody P).run s) = s.partly rs s.proceed fr st ∧
      FineRecords s.lengthsOk s.caplen rs ∧
      (st = s.mem.store ∨ (s.fcsGood P ∧ StoreEnds s st)) := by
  by_cases hs : s.pdulen < 4 ∨ s.payloadLength < 4
  · exact ⟨[.event .fragTooShort s.hdrlen], s.fragmented, s.mem.store, by rw [fragBody_short hs]; rfl,
      .event _ (by decide) (.nil ..), .inl rfl⟩
  by_cases hc : s.hdrlen + s.pdulen.toNat ≤ s.caplen
  · have hcap : s.fcsCaptured := ⟨by omega, by omega, hc⟩
    have h4 := fcsAt_add hcap.1
    have hv : s.valueAt s.fcsAt 4 < 256 ^ 4 := valueAt_lt ..
    have hk : ∀ c rs, FineRecords s.lengthsOk s.caplen rs →
        FineRecords s.lengthsOk s.caplen (s.fcsRecord c :: rs) := fun c rs hr =>
      .check (fun _ => ⟨by omega, hv⟩) (.inr rfl) hr
    by_cases hg : s.fcsGood P
    · rw [fragBody_good hcap hg]
      by_cases hi : s.fragValid = true
      · by_cases hd : s.hdrlen + (s.payloadLength - 4) ≤ s.caplen
        · rw [submitFragment_ok (s := s.addRecord (s.fcsRecord .good)) hi hd, afterAdd_run]
          have hst : StoreEnds s (addFragment s.mem.store s.fragSid s.fragSeq s.fragFlags s.fragmentData).2 :=
            .inr ⟨hi, _, rfl⟩
          have hfd : (s.addRecord (s.fcsRecord .good)).fragmentData = s.fragmentData := rfl
          simp only [State.addRecord_mem, State.addRecord_fragSid, State.addRecord_fragSeq,
            State.addRecord_fragFlags, hfd]
          cases ha : (addFragment s.mem.store s.fragSid s.fragSeq s.fragFlags s.fragmentData).1 with
          | buffered =>
            exact ⟨[s.fcsRecord .good, .note .fragN s.fragSeq.toNat], s.fragmented, _,
              by simp [leaves, State.partly, State.setStore, State.addRecord, State.withRecords],
              hk _ _ (.cons (fun o => by simp) (fun _ => trivial) (fun _ => trivial) (.nil ..)), .inr ⟨hg, hst⟩⟩
          | duplicate =>
            exact ⟨[s.fcsRecord .good, .event .fragDuplicate s.hdrlen, .note .fragN s.fragSeq.toNat],
              s.fragmented, _,
              by simp [leaves, State.partly, State.setStore, State.addRecord, State.withRecords],
              hk _ _ (.event _ (by decide)
                (.cons (fun o => by simp) (fun _ => trivial) (fun _ => trivial) (.nil ..))),
              .inr ⟨hg, hst⟩⟩
          | complete buf n c =>
            refine ⟨s.fcsRecord .good :: .reasm s.fragSid n c buf.length buf ::
              s.payloadRecords (targetCont s.cfg.reasmTarget) .reasm 0 buf.length buf, false, _,
              by simp [leaves, State.partly, State.setStore, State.addRecord, State.withRecords,
                State.clearFragmented, State.payloadRecords],
              hk _ _ (.cons (fun o => by simp) (fun _ => ?_) (fun _ => trivial)
                (fine_payloadRecords s _ .reasm _ _ _ fun _ => ⟨Nat.zero_add _, rfl⟩)),
              .inr ⟨hg, hst⟩⟩
            have := complete_length ha
            exact ⟨this.1, this.2, rfl⟩
        · refine ⟨[s.fcsRecord .good], s.fragmented, s.mem.store, ?_, hk _ _ (.nil ..), .inl rfl⟩
          rw [submitFragment, act_get_bind, if_pos (by exact hi), memBytes_bind_fault]
          · rfl
          · show s.caplen < s.hdrlen + (s.payloadLength - 4)
            omega
      · refine ⟨[s.fcsRecord .good, .event .fragNoInfo s.hdrlen], s.fragmented, s.mem.store, ?_,
          hk _ _ (.event _ (by decide) (.nil ..)), .inl rfl⟩
        rw [submitFragment_noInfo (s := s.addRecord (s.fcsRecord .good)) (by simpa using hi), addRecord_addRecord]
        rfl
    · exact ⟨[s.fcsRecord .bad, .event .badFragFcs s.fcsAt], s.fragmented, s.mem.store,
        by rw [fragBody_bad hcap hg]; rfl, hk _ _ (.event _ (by decide) (.nil ..)), .inl rfl⟩
  · exact ⟨[], s.fragmented, s.mem.store,
      by rw [fragBody_fault (by omega) (by omega) (by omega)]; simp [leaves, State.partly], .nil .., .inl rfl⟩

end Sys2Proof.Machine
end

