-- ==== Sys2Proof/Laws/PerInstr.lean ====
section
/-! SUPPORT. The per-instruction families: `DecodeEncode`, that decoding the opcode byte the encoder
writes gives the instruction back. -/

namespace Sys2Proof.Laws.DecodeEncode

/-- Decoding what the encoder writes for a well-formed instruction gives it back, and leaves the bytes
after it (`30_encoding.md` R96, R103). -/
def Statement (i : Instr) : Prop :=
  i.wellFormed = true → ∀ rest, decode i.space (encode i ++ rest) = .ok (i, rest)

/-- The FC byte keeps its three fields (R91). -/
theorem fcByte_fields : ∀ (t : BitVec 2) (p : BitVec 5) (e : Bool),
    fcType (fcByte t p e) = t ∧ fcParm (fcByte t p e) = p ∧ fcEhdron (fcByte t p e) = e := by
  decide +kernel

/-- The head byte keeps its two fields (R102). -/
theorem headByte_fields : ∀ type len : BitVec 4,
    headType (headByte type len) = type ∧ headLen (headByte type len) = len := by
  decide +kernel

theorem decodeFc_fcByte (t : BitVec 2) (p : BitVec 5) (e : Bool) :
    decodeFc (fcByte t p e) = decodeFcFields t p e := by
  obtain ⟨h1, h2, h3⟩ := fcByte_fields t p e
  rw [decodeFc, h1, h2, h3]

theorem decodeHead_headByte (type len : BitVec 4) :
    decodeHead (headByte type len) = decodeHeadFields type len := by
  obtain ⟨h1, h2⟩ := headByte_fields type len
  rw [decodeHead, h1, h2]

theorem of_frame {i : Instr} {t : BitVec 2} {p : BitVec 5} {e : Bool} (hs : i.space = .frame)
    (ho : opcode i = fcByte t p e) (h : i.wellFormed = true → decodeFcFields t p e = i) : Statement i := by
  intro hw rest
  rw [hs, encode, ho, List.singleton_append, decode, decodeFc_fcByte, h hw]

theorem of_element {i : Instr} {type len : BitVec 4} (hs : i.space = .element)
    (ho : opcode i = headByte type len) (h : decodeHeadFields type len = i) : Statement i := by
  intro _ rest
  rw [hs, encode, ho, List.singleton_append, decode, decodeHead_headByte, h]

theorem pkt (fcparm : BitVec 5) (ehdron : Bool) : Statement (.pkt fcparm ehdron) := of_frame rfl rfl (fun _ => rfl)

theorem rsvd (fcparm : BitVec 5) (ehdron : Bool) : Statement (.rsvd fcparm ehdron) := of_frame rfl rfl (fun _ => rfl)

theorem iso (fcparm : BitVec 5) (ehdron : Bool) : Statement (.iso fcparm ehdron) := of_frame rfl rfl (fun _ => rfl)

theorem timing (ehdron : Bool) : Statement (.timing ehdron) := of_frame rfl rfl (fun _ => rfl)

theorem mgmt (ehdron : Bool) : Statement (.mgmt ehdron) := of_frame rfl rfl (fun _ => rfl)

theorem rqst (ehdron : Bool) : Statement (.rqst ehdron) := of_frame rfl rfl (fun _ => rfl)

theorem frag (ehdron : Bool) : Statement (.frag ehdron) := of_frame rfl rfl (fun _ => rfl)

theorem qdr (ehdron : Bool) : Statement (.qdr ehdron) := of_frame rfl rfl (fun _ => rfl)

theorem concat (ehdron : Bool) : Statement (.concat ehdron) := of_frame rfl rfl (fun _ => rfl)

theorem unknown (fcparm : BitVec 5) (ehdron : Bool) : Statement (.unknown fcparm ehdron) :=
  of_frame rfl rfl (fun h => by revert fcparm ehdron; decide)

theorem ehNull (len : BitVec 4) : Statement (.ehNull len) := of_element rfl rfl rfl

theorem ehRequest (len : BitVec 4) : Statement (.ehRequest len) := of_element rfl rfl rfl

theorem ehAckReq (len : BitVec 4) : Statement (.ehAckReq len) := of_element rfl rfl rfl

theorem ehUpPrivacy (len : BitVec 4) : Statement (.ehUpPrivacy len) := of_element rfl rfl rfl

theorem ehDownPrivacy (len : BitVec 4) : Statement (.ehDownPrivacy len) := of_element rfl rfl rfl

theorem ehSfPhs5 (len : BitVec 4) : Statement (.ehSfPhs5 len) := of_element rfl rfl rfl

theorem ehSfPhs6 (len : BitVec 4) : Statement (.ehSfPhs6 len) := of_element rfl rfl rfl

theorem ehUpPrivacy2 (len : BitVec 4) : Statement (.ehUpPrivacy2 len) := of_element rfl rfl rfl

theorem ehDownService (len : BitVec 4) : Statement (.ehDownService len) := of_element rfl rfl rfl

theorem ehPathVerify (len : BitVec 4) : Statement (.ehPathVerify len) := of_element rfl rfl rfl

theorem ehRsvd10 (len : BitVec 4) : Statement (.ehRsvd10 len) := of_element rfl rfl rfl

theorem ehRsvd11 (len : BitVec 4) : Statement (.ehRsvd11 len) := of_element rfl rfl rfl

theorem ehRsvd12 (len : BitVec 4) : Statement (.ehRsvd12 len) := of_element rfl rfl rfl

theorem ehRsvd13 (len : BitVec 4) : Statement (.ehRsvd13 len) := of_element rfl rfl rfl

theorem ehRsvd14 (len : BitVec 4) : Statement (.ehRsvd14 len) := of_element rfl rfl rfl

theorem ehExtended (len : BitVec 4) : Statement (.ehExtended len) := of_element rfl rfl rfl

end Sys2Proof.Laws.DecodeEncode
end

