-- ==== Sys2Proof/Tests/Slice0.lean ====
section
/-! SUPPORT. The author's tests: the well-formedness smoke, the decoding of words written out bit by bit
from `30_encoding.md` R91, R94, R95, R102 and R103, one or two steps of each instruction with the records
the spec's examples give (`40_frame_classes.md`, `41_ehdr_elements.md`, the ids of
`95_test_vectors.md`), and a witness for the hypotheses of each obligation. -/

open Sys2Proof Sys2Proof.Machine

namespace Sys2Proof.Tests

-- One theorem after another: each kernel evaluation would otherwise hold a thread of its own.
set_option Elab.async false

/-! ## Helpers -/

/-- A frame just submitted to the block after reset. -/
def atFrame (frame : List Byte) : State := State.reset.beginFrame frame

/-- A Packet PDU in the middle of its walk, the cursor at the first of these elements. -/
def atElement (bytes : List Byte) : State := State.reset.atElement bytes

/-- A frame whose extended-header walk is over: its class and the two header fields as read. -/
def atTail (frame : List Byte) (t : BitVec 2) (p : BitVec 5) (mac len : Word16) : State :=
  { ((State.reset.beginFrame frame).setFc t p true).setHeader mac len with phase := .tail }

/-- The state after an outcome. -/
def after (o : Host.Outcome State Fault Refusal) : State :=
  match o with
  | .next t => t
  | .fault _ | .refused _ => State.reset

/-- The last records after an outcome. -/
def lastOut (n : Nat) (o : Host.Outcome State Fault Refusal) : List Record :=
  let out := (after o).out
  out.drop (out.length - n)

/-- A Packet PDU nested one view deep: the frame of `41_ehdr_elements.md` R197's example, the inner
cursor at its type-2 element. -/
def nested : State :=
  after (step (atElement [0xF7, 0x03, 0x00, 0x00, 0x22, 0x00, 0x21, 0x00, 0x61, 0x05]))

/-- The first frame of the example of `43_reassembly.md`, its walk over. -/
def frag1 : State :=
  { atTail [0xC7, 0x06, 0x00, 0x0F, 0x35, 0x01, 0x01, 0x23, 0x00, 0x2E, 0x60, 0x09, 0xA0, 0xA1, 0xA2,
      0xE7, 0xE0, 0xA5, 0x1B] 3 3 6 15 with
    fragmented := true, fragValid := true, fragFlags := 0b10, fragSeq := 14, fragSid := 0x123 }

/-- The third frame of that example, the two fragments before it stored. -/
def frag3 : State :=
  { atTail [0xC7, 0x06, 0x00, 0x10, 0x35, 0x01, 0x01, 0x23, 0x00, 0x10, 0xA0, 0x7D, 0xC0, 0xC1, 0xC2,
      0xC3, 0x63, 0x0C, 0x87, 0x8E] 3 3 6 16 with
    fragmented := true, fragValid := true, fragFlags := 0b01, fragSeq := 0, fragSid := 0x123 }.setStore
    (Store.write (Store.write [] 0x123 14 [0xA0, 0xA1, 0xA2] true) 0x123 15 [0xB0, 0xB1] false)

/-- A fragment frame without an extended header. -/
def plainFrag (bytes : List Byte) : State := atFrame ([0xC6, 0x00, 0x00, 0x06] ++ bytes)

/-- Its state after the header fields, in fragment context. -/
def plainFragShown (s : State) : State :=
  { (s.prologueDone 3 3 false).headerShown with savedFragmented := s.fragmented, fragmented := true }

/-! ## Well-formedness -/

theorem test_wf_unknown_timing : (Instr.unknown 0 false).wellFormed = false := by decide
theorem test_wf_unknown_rqst : (Instr.unknown 2 true).wellFormed = false := by decide
theorem test_wf_unknown_concat : (Instr.unknown 0x1C false).wellFormed = false := by decide
theorem test_wf_unknown_five : (Instr.unknown 5 false).wellFormed = true := by decide

/-! ## Decoding, bit by bit: `tt ppppp e` and `tttt llll` -/

theorem test_decode_pkt : decode .frame [0b00_10110_1] = .ok (.pkt 0b10110 true, []) := by decide
theorem test_decode_rsvd : decode .frame [0b01_00101_0] = .ok (.rsvd 0b00101 false, []) := by decide
theorem test_decode_iso : decode .frame [0b10_11000_1] = .ok (.iso 0b11000 true, []) := by decide
theorem test_decode_timing : decode .frame [0b11_00000_1] = .ok (.timing true, []) := by decide
theorem test_decode_mgmt : decode .frame [0b11_00001_0] = .ok (.mgmt false, []) := by decide
theorem test_decode_rqst : decode .frame [0b11_00010_0] = .ok (.rqst false, []) := by decide
theorem test_decode_frag : decode .frame [0b11_00011_1] = .ok (.frag true, []) := by decide
theorem test_decode_qdr : decode .frame [0b11_00100_0] = .ok (.qdr false, []) := by decide
theorem test_decode_concat : decode .frame [0b11_11100_1] = .ok (.concat true, []) := by decide
theorem test_decode_unknown : decode .frame [0b11_11011_0] = .ok (.unknown 0b11011 false, []) := by decide
theorem test_decode_ehNull : decode .element [0b0000_0110] = .ok (.ehNull 6, []) := by decide
theorem test_decode_ehRequest : decode .element [0b0001_0011] = .ok (.ehRequest 3, []) := by decide
theorem test_decode_ehAckReq : decode .element [0b0010_0010] = .ok (.ehAckReq 2, []) := by decide
theorem test_decode_ehUpPrivacy : decode .element [0b0011_0101] = .ok (.ehUpPrivacy 5, []) := by decide
theorem test_decode_ehDownPrivacy : decode .element [0b0100_0100] = .ok (.ehDownPrivacy 4, []) := by decide
theorem test_decode_ehSfPhs5 : decode .element [0b0101_0010] = .ok (.ehSfPhs5 2, []) := by decide
theorem test_decode_ehSfPhs6 : decode .element [0b0110_0001] = .ok (.ehSfPhs6 1, []) := by decide
theorem test_decode_ehUpPrivacy2 : decode .element [0b0111_0011] = .ok (.ehUpPrivacy2 3, []) := by decide
theorem test_decode_ehDownService : decode .element [0b1000_0101] = .ok (.ehDownService 5, []) := by decide
theorem test_decode_ehPathVerify : decode .element [0b1001_1010] = .ok (.ehPathVerify 10, []) := by decide
theorem test_decode_ehRsvd10 : decode .element [0b1010_1000] = .ok (.ehRsvd10 8, []) := by decide
theorem test_decode_ehRsvd11 : decode .element [0b1011_0111] = .ok (.ehRsvd11 7, []) := by decide
theorem test_decode_ehRsvd12 : decode .element [0b1100_1111] = .ok (.ehRsvd12 15, []) := by decide
theorem test_decode_ehRsvd13 : decode .element [0b1101_0100] = .ok (.ehRsvd13 4, []) := by decide
theorem test_decode_ehRsvd14 : decode .element [0b1110_0001] = .ok (.ehRsvd14 1, []) := by decide
theorem test_decode_ehExtended : decode .element [0b1111_0111] = .ok (.ehExtended 7, []) := by decide
theorem test_decode_noByte : decode .frame [] = .error .noByte := by decide
theorem test_table_word : decodeTableWord 8 0xC4 = some (.rqst false) := by decide
theorem test_probe_frame :
    step (State.reset.withFetchWord 8 0xC4) = exec (.rqst false) (State.reset.withFetchWord 8 0xC4) := rfl

/-! ## One step of each frame class -/

/-- VA1. -/
theorem test_pkt : lastOut 2 (step (atFrame [0x00, 0x00, 0x00, 0x12, 0x4D, 0xCF, 0x00, 0x11, 0x22, 0x33,
    0x44, 0x55, 0x66, 0x77, 0x88, 0x99, 0xAA, 0xBB, 0x08, 0x00, 0xDE, 0xAD])) =
    [.field .hcs 4 2 (.num 0x4DCF) (some .good), .handoff .ethNofcs .frame 6 16] := by decide +kernel

/-- VA25: format B under another class. -/
theorem test_pkt_formatB :
    lastOut 3 (step (atFrame [0x08, 0x00, 0x00, 0x00, 0x20, 0x55, 0xB4, 0x01, 0x02, 0x03, 0x04])) =
      [numField .macParm 1 2 0, numField .len 3 2 0x20,
        .field .hcs 5 2 (.num 0x55B4) (some .good)] := by decide +kernel

/-- VA11. -/
theorem test_rsvd : lastOut 1 (step (atFrame [0x40, 0x00, 0x00, 0x05, 0xC4, 0xBD, 0x01, 0x02, 0x03])) =
    [.handoff .rawData .frame 6 3] := by decide +kernel

/-- VA10. -/
theorem test_iso : lastOut 1 (step (atFrame [0x80, 0x00, 0x00, 0x05, 0x1D, 0x86, 0x01, 0x02, 0x03])) =
    [.handoff .ethNofcs .frame 6 3] := by decide +kernel

/-- VA13. -/
theorem test_timing :
    lastOut 1 (step (atFrame [0xC0, 0x00, 0x00, 0x06, 0x31, 0xA2, 0xAA, 0xBB, 0xCC, 0xDD])) =
      [.handoff .macMgmt .frame 6 4] := by decide +kernel

/-- VA15: the empty slice. -/
theorem test_mgmt : lastOut 1 (step (atFrame [0xC2, 0x00, 0x00, 0x02, 0x63, 0xDD])) =
    [.handoff .macMgmt .frame 6 0] := by decide +kernel

/-- The Request-Frame scenario of the source. -/
theorem test_rqst : lastOut 3 (step (atFrame [0xC4, 0x05, 0x00, 0x10, 0xD7, 0x9C])) =
    [numField .rqMinislots 1 1 5, numField .rqSid 2 2 16,
      .field .hcs 4 2 (.num 0xD79C) (some .good)] := by decide +kernel

/-- VA19: the check at the grown header length, no walk. -/
theorem test_rqst_ext : lastOut 1 (step (atFrame [0xC5, 0x02, 0x00, 0x10, 0x00, 0x00, 0x66, 0x77])) =
    [.field .hcs 6 2 (.num 0x6677) (some .good)] := by decide +kernel

/-- `FRAG` with an extended header goes into fragment context and walks (R262). -/
theorem test_frag : let t := after (step (atFrame [0xC7, 0x06, 0x00, 0x0F]))
    t.fragmented = true ∧ t.phase = .walk ∧ t.view.viewEnd = 10 ∧ t.hdrlen = 12 := by decide +kernel

/-- The example of `42_checksums.md` and `40_frame_classes.md` R148. -/
theorem test_qdr : lastOut 3 (step (atFrame [0xC8, 0x12, 0x34, 0x00, 0x10, 0xB9, 0xD1])) =
    [numField .qdrReqsize 1 2 0x1234, numField .qdrSid 3 2 0x10,
      .field .hcs 5 2 (.num 0xB9D1) (some .good)] := by decide +kernel

/-- VA21. -/
theorem test_concat : lastOut 4 (step (atFrame [0xF8, 0x03, 0x01, 0x00, 0x91, 0x98])) =
    [.event .lenPastEnd 2, numField .concatCnt 1 1 3, numField .concatLen 2 2 0x100,
      .field .hcs 4 2 (.num 0x9198) (some .good)] := by decide +kernel

/-- VA24. -/
theorem test_unknown : lastOut 2 (step (atFrame [0xFF, 0x09, 0x00, 0x04, 0x00, 0x00])) =
    [numField .fcEhdron 0 1 1, .event .lenNegative 2] := by decide +kernel

/-- `40_frame_classes.md` R154: the empty frame and the 4-byte frame. -/
theorem test_empty_frame : let t := after (step (atFrame []))
    t.out = [.event .faultBounds 0] ∧ t.status = some .fault := by decide

theorem test_four_byte_frame : lastOut 2 (step (atFrame [0x00, 0x00, 0x00, 0x02])) =
    [numField .len 2 2 2, .event .faultBounds 4] := by decide +kernel

/-- R132 and `60_exceptions.md` R318: a frame cut in its Length has written `mac_parm`. -/
theorem test_timing_cut : let t := after (step (atFrame [0xC0, 0x05, 0x00]))
    t.macParm = 5 ∧ t.out.getLast? = some (.event .faultBounds 2) := by decide +kernel

/-! ## One step of each element -/

/-- VE0b. -/
theorem test_ehNull : lastOut 1 (step (atElement [0x02, 0xAB, 0xCD])) =
    [.field .ehVal 5 2 (.bytes [0xAB, 0xCD]) none] := by decide +kernel

/-- VE1. -/
theorem test_ehRequest : lastOut 2 (step (atElement [0x13, 0x07, 0x00, 0x21])) =
    [numField .ehRqMinislots 5 1 7, numField .ehSid 6 2 0x21] := by decide +kernel

/-- VE15: a wrong length under the abort policy. -/
theorem test_ehRequest_mismatch :
    let t := after (step (atElement [0x12, 0x07, 0x00, 0x22, 0x00, 0x21]))
    t.out.getLast? = some (.event .ehLenMismatch 4) ∧ t.phase = .tail := by decide +kernel

/-- VE2. -/
theorem test_ehAckReq : lastOut 1 (step (atElement [0x22, 0x00, 0x21])) =
    [numField .ehSid 5 2 0x21] := by decide +kernel

/-- VE3: outside fragment context no fragment byte. -/
theorem test_ehUpPrivacy : lastOut 2 (step (atElement [0x34, 0x21, 0x41, 0x23, 0x09])) =
    [numField .ehSid14 6 2 0x123, numField .ehMinislots 8 1 9] := by decide +kernel

/-- The example of R190 in fragment context. -/
theorem test_ehUpPrivacy_frag :
    let t := after (step { atElement [0x35, 0x01, 0x01, 0x23, 0x00, 0x2E] with fragmented := true })
    t.fragFlags = 0b10 ∧ t.fragSeq = 14 ∧ t.fragSid = 0x123 ∧ t.fragValid = true := by decide +kernel

/-- The example of R191. -/
theorem test_ehDownPrivacy : let t := after (step (atElement [0x44, 0x21, 0x92, 0x34, 0x00]))
    t.isEncrypted = true ∧ t.out.drop 4 = [numField .ehBpiEn 6 2 1, numField .ehToggle 6 2 0,
      numField .ehSaid 6 2 0x1234, numField .ehRsvd8 8 1 0] := by decide +kernel

/-- VE5b. -/
theorem test_ehSfPhs5 : lastOut 3 (step (atElement [0x52, 0x07, 0x85])) =
    [numField .ehPhsi 5 1 7, numField .ehQind 6 1 1, numField .ehGrants 6 1 5] := by decide +kernel

/-- VE6b: the relabel note. -/
theorem test_ehSfPhs6 : lastOut 4 (step (atElement [0x62, 0x09, 0x85])) =
    [.note .ehUgsLabel 4, numField .ehPhsi 5 1 9, numField .ehQind 6 1 1,
      numField .ehGrants 6 1 5] := by decide +kernel

/-- VE7. -/
theorem test_ehUpPrivacy2 : lastOut 5 (step (atElement [0x73, 0x21, 0x01, 0x23])) =
    [numField .ehKeyseq 5 1 2, numField .ehVer 5 1 1, numField .ehBpiEn 6 2 0, numField .ehToggle 6 2 0,
      numField .ehSid14 6 2 0x123] := by decide +kernel

/-- VE8b and VE8c. -/
theorem test_ehDownService_three : lastOut 2 (step (atElement [0x83, 0xAB, 0xCD, 0xEF])) =
    [numField .ehTrafpri 5 1 5, numField .ehDsid 5 3 0xBCDEF] := by decide +kernel

theorem test_ehDownService_five : lastOut 4 (step (atElement [0x85, 0xBB, 0xCD, 0xEF, 0x12, 0x34])) =
    [numField .ehTrafpri 5 1 5, numField .ehSeqchg 5 1 1, numField .ehDsid 5 3 0xBCDEF,
      numField .ehDspsn 8 2 0x1234] := by decide +kernel

/-- VE9. -/
theorem test_ehPathVerify : lastOut 2 (step (atElement [0x95, 0x02, 0x11, 0x22, 0x33, 0x44])) =
    [numField .ehPvStartref 5 1 2, numField .ehPvTs 6 4 0x11223344] := by decide +kernel

/-- VE10. -/
theorem test_ehRsvd10 : lastOut 1 (step (atElement [0xA1, 0x5A])) =
    [.field .ehVal 5 1 (.bytes [0x5A]) none] := by decide +kernel

theorem test_ehRsvd11 : lastOut 1 (step (atElement [0xB1, 0x5A])) =
    [.field .ehVal 5 1 (.bytes [0x5A]) none] := by decide +kernel

theorem test_ehRsvd12 : lastOut 1 (step (atElement [0xC1, 0x5A])) =
    [.field .ehVal 5 1 (.bytes [0x5A]) none] := by decide +kernel

theorem test_ehRsvd13 : lastOut 1 (step (atElement [0xD1, 0x5A])) =
    [.field .ehVal 5 1 (.bytes [0x5A]) none] := by decide +kernel

/-- VE14. -/
theorem test_ehRsvd14 : let t := after (step (atElement [0xE0]))
    t.out = [numField .ehType 4 1 14, numField .ehLen 4 1 0] ∧ t.view.pos = 5 := by decide +kernel

/-- The example of R197: the inner view's registers and the caller that waits. -/
theorem test_ehExtended : nested.view.b = 4 ∧ nested.view.viewEnd = 7 ∧ nested.view.pos = 4 ∧
    nested.callers.map View.pos = [4] ∧ nested.callers.map View.len = [7] := by decide +kernel

/-! ## The end of a fragment frame, and the engine (`43_reassembly.md`, worked example) -/

theorem test_frag_buffered : let t := after (step frag1)
    lastOut 2 (.next t) = [.field .fragFcs 15 4 (.num 0xE7E0A51B) (some .good), .note .fragN 14] ∧
      Store.slot t.mem.store 0x123 14 = some ⟨[0xA0, 0xA1, 0xA2], true⟩ := by decide +kernel

theorem test_frag_complete : let t := after (step frag3)
    t.mem.store = [] ∧ lastOut 2 (.next t) =
      [.reasm 0x123 3 true 9 [0xA0, 0xA1, 0xA2, 0xB0, 0xB1, 0xC0, 0xC1, 0xC2, 0xC3],
        .handoff .ethNofcs .reasm 0 9] := by decide +kernel

/-! ## Host operations (`44_host_operations.md`, worked example) -/

theorem test_cfg_write_illegal :
    (after (step { State.reset with pending := [.cfgWrite 3 7] })).cfg = Cfg.reset := by decide

theorem test_cfg_read :
    (after (step { State.reset with pending := [.cfgRead 0] })).cfgReadValue = some 1 := by decide

/-! ## Witnesses: a state and operands that meet all hypotheses of an obligation, clause by clause, at the
bounds -/

theorem witness_DecodeEncodeAgree : (Instr.unknown 0x1B true).wellFormed = true ∧
    (Instr.unknown 0x1F false).wellFormed = true ∧ (Instr.ehExtended 15).wellFormed = true := by decide

/-- A byte of each row of the frame table, at the ends of its range. -/
theorem witness_DecodeTables :
    (0x3F : Byte) &&& 0xC0 = 0x00 ∧ (0x7F : Byte) &&& 0xC0 = 0x40 ∧ (0xBF : Byte) &&& 0xC0 = 0x80 ∧
      (0xC1 : Byte) &&& 0xFE = 0xC0 ∧ (0xC9 : Byte) &&& 0xFE = 0xC8 ∧ (0xF9 : Byte) &&& 0xFE = 0xF8 ∧
      (0xCA : Byte) &&& 0xC0 = 0xC0 ∧ (5 : BitVec 5) ∉ [0, 1, 2, 3, 4, 0x1C] ∧
      (0xFF : Byte) &&& 0xF0 = 0xF0 := by decide

theorem witness_StepRunsInstruction :
    ((atFrame [0xC4]).phase = .fetch ∧ decode .frame (atFrame [0xC4]).mem.frame = .ok (.rqst false, [])) ∧
    ((atElement [0xE0]).phase = .walk ∧ (atElement [0xE0]).view.pos < (atElement [0xE0]).view.viewEnd ∧
      decode .element ((atElement [0xE0]).mem.frame.drop (atElement [0xE0]).headAt) =
        .ok (.ehRsvd14 0, [0, 0])) := by decide

/-- A walk whose next head byte is not captured: the header says six bytes, four are there. -/
def cutWalk : State := after (step (atFrame [0x01, 0x06, 0x00, 0x08]))

theorem witness_MissingOpcodeFaults :
    ((atFrame []).phase = .fetch ∧ (atFrame []).mem.frame = []) ∧
    (cutWalk.phase = .walk ∧ cutWalk.view.pos < cutWalk.view.viewEnd ∧
      cutWalk.caplen ≤ cutWalk.headAt) := by decide +kernel

/-- A walk that is over: an extended header of no bytes. -/
def emptyWalk : State := after (step (atFrame [0x01, 0x00, 0x00, 0x02]))

/-- A nested walk that is over. -/
def emptyNested : State := after (step (atElement [0xF0, 0x00]))

theorem witness_ActivationReturns :
    (emptyWalk.phase = .walk ∧ emptyWalk.view.viewEnd ≤ emptyWalk.view.pos ∧ emptyWalk.callers = []) ∧
    (emptyNested.phase = .walk ∧ emptyNested.view.viewEnd ≤ emptyNested.view.pos ∧
      emptyNested.callers.length = 1) := by decide +kernel

/-- The idle block with these operations issued. -/
def issued (ops : List HostOp) : State := { State.reset with pending := ops }

theorem witness_HostFrameIn :
    ((issued [.frameIn []]).phase = .idle ∧ (issued [.frameIn []]).pending = [.frameIn []]) ∧
    ((issued []).phase = .idle ∧ (issued []).pending = []) := by decide

theorem witness_HostResets :
    ((issued [.reset]).phase = .idle ∧ (issued [.reset]).pending = [.reset]) ∧
    (issued [.sessionReset]).pending = [.sessionReset] := by decide

/-- The largest index and value, and the first ones that do not exist. -/
theorem witness_HostConfigAccess :
    ((issued [.cfgWrite 3 2]).phase = .idle ∧ (issued [.cfgWrite 3 2]).pending = [.cfgWrite 3 2]) ∧
    (issued [.cfgWrite 4 3]).pending = [.cfgWrite 4 3] ∧ (issued [.cfgRead 3]).pending = [.cfgRead 3] ∧
    (issued [.cfgRead 4]).pending = [.cfgRead 4] := by decide

/-- The last access that fits, the empty one at the end, and the first that does not fit
(`20_memory.md`, worked example). -/
theorem witness_FrameReads : let s := atFrame [0xC8, 0x12, 0x34, 0x00, 0x10, 0xB9, 0xD1]
    5 + 2 ≤ s.caplen ∧ 7 + 0 ≤ s.caplen ∧ s.caplen < 6 + 2 ∧ s.caplen < 8 + 0 := by decide

theorem witness_StoreOperations :
    ((1 : Sid) ≠ 0 ∨ (0 : Seq4) ≠ 0) ∧ ((0 : Sid) ≠ 0 ∨ (15 : Seq4) ≠ 0) ∧ (16383 : Sid) ≠ 0 := by decide

/-- The first byte of each field that is missing, in both formats. -/
theorem witness_HeaderFieldsMissing :
    (∀ frame ∈ [[0x00], ([0x00, 0x05] : List Byte), [0x00, 0x05, 0x00]],
      (Instr.pkt 0 false).space = .frame ∧
        ¬ (atFrame frame).fieldsCaptured (fcParm (opcode (.pkt 0 false)))) ∧
    (atFrame [0x00]).caplen < 2 + 0 ∧ 2 + 0 ≤ (atFrame [0x00, 0x05]).caplen ∧
    (∀ frame ∈ [[0xC8], ([0xC8, 0x12] : List Byte), [0xC8, 0x12, 0x34], [0xC8, 0x12, 0x34, 0x00]],
      (Instr.qdr false).space = .frame ∧
        ¬ (atFrame frame).fieldsCaptured (fcParm (opcode (.qdr false)))) ∧
    (atFrame [0xC8, 0x12]).caplen < 2 + 1 ∧ 2 + 1 ≤ (atFrame [0xC8, 0x12, 0x34]).caplen := by
  unfold State.fieldsCaptured
  decide

theorem witness_PlainPayloadClasses :
    (if (4 : BitVec 5) = 4 then 7 else 6) ≤ (atFrame [0x08, 0, 0, 0, 0, 0, 0]).caplen ∧
    (if (0 : BitVec 5) = 4 then 7 else 6) ≤ (atFrame [0, 0, 0, 2, 0, 0]).caplen ∧
    6 ≤ (atFrame [0xC0, 0, 0, 2, 0, 0]).caplen := by decide

/-- The shortest frame of each class, with the ext bit and without. -/
theorem witness_FixedHeaderClasses :
    let r := atFrame [0xC4, 0x05, 0x00, 0x10, 0xD7, 0x9C]
    let q := atFrame [0xC9, 0x00, 0x01, 0x00, 0x10, 0xAA, 0xF5, 0x56]
    let c := atFrame [0xF8, 0x03, 0x01, 0x00, 0x91, 0x98]
    (r.fieldsCaptured 2 ∧ (r.prologueDone 3 2 false).hdrlen ≤ r.caplen) ∧
    (q.fieldsCaptured 4 ∧ (q.prologueDone 3 4 true).hdrlen ≤ q.caplen) ∧
    (c.fieldsCaptured 0x1C ∧ (c.prologueDone 3 0x1C false).hdrlen ≤ c.caplen) := by
  unfold State.fieldsCaptured
  decide +kernel

theorem witness_UnknownSubtype : (Instr.unknown 5 false).wellFormed = true ∧
    (atFrame [0xCA, 0, 0, 2]).fieldsCaptured 5 := by
  unfold State.fieldsCaptured
  decide

theorem witness_WalkBegins : (atFrame [0x01, 0, 0, 2]).fieldsCaptured 0 ∧
    (atFrame [0x09, 0, 0, 0, 0]).fieldsCaptured 4 ∧ 4 ≤ (atFrame [0xC7, 0, 0, 2]).caplen := by
  unfold State.fieldsCaptured
  decide

/-- The header just captured, for each class that has a tail. -/
theorem witness_TailPayloadClasses : let t := atTail [0x01, 0, 0, 2, 0, 0] 0 0 0 2
    (t.phase = .tail ∧ 6 ≤ t.hdrlen ∧ t.hdrlen ≤ t.caplen ∧ (t.fctype = 0 ∨ t.fctype = 2)) ∧
    (atTail [0x41, 0, 0, 2, 0, 0] 1 0 0 2).fctype = 1 ∧ (atTail [0xC3, 0, 0, 2, 0, 0] 3 1 0 2).fcparm = 1 ∧
    (atTail [0xC3, 0, 0, 2, 0, 0] 3 1 0 2).fctype = 3 := by decide +kernel

/-- One byte short of the header, in each clause. -/
theorem witness_TruncatedHeaderFaults :
    (let t := atTail [0xC7, 0, 0, 2, 0] 3 3 0 2;
      t.phase = .tail ∧ 6 ≤ t.hdrlen ∧ t.caplen < t.hdrlen ∧
        (t.fctype ≠ 3 ∨ t.fcparm = 0 ∨ t.fcparm = 1 ∨ t.fcparm = 3)) ∧
    (let s := atFrame [0x08, 0, 0, 0, 0, 0];
      s.fieldsCaptured 4 ∧ s.caplen < (if (4 : BitVec 5) = 4 then 7 else 6)) ∧
    (4 ≤ (atFrame [0xC6, 0, 0, 2, 0]).caplen ∧ (atFrame [0xC6, 0, 0, 2, 0]).caplen < 6) ∧
    (let s := atFrame [0xC5, 0x02, 0x00, 0x10, 0x00, 0x00, 0x66];
      s.fieldsCaptured 2 ∧ s.caplen < (s.prologueDone 3 2 true).hdrlen) := by
  unfold State.fieldsCaptured
  decide +kernel

/-- The four cases of the header check, on the Request-Frame example. -/
theorem witness_HeaderCheck :
    let s := { atFrame [0xC4, 0x05, 0x00, 0x10, 0xD7, 0x9C] with hdrlen := 6 }
    let comp := (defaultParams.crc16Field (slice s.mem.frame 0 (s.hdrlen - 2))).toNat
    (2 ≤ s.hdrlen ∧ s.hdrlen ≤ s.caplen ∧ s.cfg.validateHcs = true ∧ comp = s.valueAt 4 2) ∧
    (comp ≠ ({ atFrame [0xC4, 0x05, 0x00, 0x10, 0xD7, 0x9D] with hdrlen := 6 } : State).valueAt 4 2) ∧
    (after (step (issued [.cfgWrite 0 0]))).cfg.validateHcs = false ∧
    ({ s with hdrlen := 7 } : State).caplen < 7 := by decide +kernel

theorem witness_BadHcsEndsFrame : let t := atTail [0x01, 0, 0, 2, 0, 0] 0 0 0 2
    t.phase = .tail ∧ 6 ≤ t.hdrlen ∧ t.hdrlen ≤ t.caplen ∧
      (t.fctype ≠ 3 ∨ t.fcparm = 0 ∨ t.fcparm = 1 ∨ t.fcparm = 3) ∧
      t.hcsVerdict defaultParams = .bad := by decide +kernel

theorem witness_ClassFrame : (Instr.frag true).space = .frame ∧
    exec (.frag true) (atFrame [0xC7, 0, 0, 2]) = .next (after (exec (.frag true) (atFrame [0xC7, 0, 0, 2]))) ∧
    (∀ e, Instr.pkt 0 true ≠ .frag e) ∧ (1 : Sid) ≠ (atFrame [0xC7, 0, 0, 2]).fragSid :=
  ⟨rfl, rfl, by decide, by decide⟩

/-- The elements of types 1 and 2 that end where their view and the frame do, and short ones. -/
theorem witness_ElementRequestAck :
    (let s := { atElement [0x13, 0x07, 0x00, 0x21] with
        mem := { frame := [0x01, 0x04, 0x00, 0x06, 0x13, 0x07, 0x00, 0x21], store := [] } };
      s.fits 3 ∧ s.headAt + 4 ≤ s.caplen) ∧
    (let s := { atElement [0x22, 0x00, 0x21] with
        mem := { frame := [0x01, 0x03, 0x00, 0x05, 0x22, 0x00, 0x21], store := [] } };
      s.fits 2 ∧ s.headAt + 3 ≤ s.caplen) ∧
    (let s := { atElement [0x13, 0x07, 0x00, 0x21] with
        mem := { frame := [0x01, 0x04, 0x00, 0x06, 0x13], store := [] } };
      s.fits 3 ∧ s.caplen < s.headAt + 2 ∧ s.fits 2 ∧ s.caplen < s.headAt + 3) ∧
    (let s := { atElement [0x13, 0x07, 0x00, 0x21] with
        mem := { frame := [0x01, 0x04, 0x00, 0x06, 0x13, 0x07, 0x00], store := [] } };
      s.fits 3 ∧ s.headAt + 2 ≤ s.caplen ∧ s.caplen < s.headAt + 4) ∧
    (let s := atElement [0x12, 0x07, 0x00];
      (2 : BitVec 4) ≠ 3 ∧ s.fits 2 ∧ s.cfg.abortViewOnElementError = true ∧ s.callers = []) ∧
    (nested.fits 1 ∧ (1 : BitVec 4) ≠ 2 ∧ nested.cfg.abortViewOnElementError = true ∧
      nested.callers.length = 1) ∧
    (after (step (issued [.cfgWrite 2 0]))).cfg.abortViewOnElementError = false := by
  unfold State.fits
  decide +kernel

/-- A view of six bytes whose captured bytes are these, outside fragment context or in it. -/
def cutElement (bytes : List Byte) (frag : Bool) : State :=
  { atElement bytes with
    view := View.entered 0 6
    mem := { frame := [0x01, 0x06, 0x00, 0x08] ++ bytes, store := [] }
    fragmented := frag }

theorem witness_ElementUpPrivacy :
    (let s := cutElement [0x34, 0x21, 0x41, 0x23, 0x09] false;
      s.fits 4 ∧ s.fragmented = false ∧ s.headAt + 5 ≤ s.caplen) ∧
    (let s := cutElement [0x35, 0x01, 0x01, 0x23, 0x00, 0x2E] true;
      s.fits 5 ∧ s.fragmented = true ∧ s.headAt + 6 ≤ s.caplen) := by
  unfold State.fits
  decide +kernel

theorem witness_ElementOtherPrivacy :
    (let s := cutElement [0x44, 0x21, 0x92, 0x34, 0x00] false;
      s.fits 4 ∧ s.headAt + 5 ≤ s.caplen) ∧
    (let s := cutElement [0x73, 0x21, 0x01, 0x23] true;
      s.fits 3 ∧ s.headAt + 4 ≤ s.caplen) := by
  unfold State.fits
  decide +kernel

theorem witness_ElementServiceFlow :
    (let s := cutElement [0x52, 0x07, 0x85] false;
      s.fits 2 ∧ s.headAt + (if (2 : BitVec 4) = 2 then 3 else 2) ≤ s.caplen) ∧
    (let s := cutElement [0x60, 0x09] false;
      s.fits 0 ∧ s.headAt + (if (0 : BitVec 4) = 2 then 3 else 2) ≤ s.caplen) := by
  unfold State.fits
  decide +kernel

theorem witness_ElementServicePath :
    (let s := cutElement [0x83, 0xAB, 0xCD, 0xEF] false;
      s.fits 3 ∧ s.headAt + (if (3 : BitVec 4) = 3 then 4 else if (3 : BitVec 4) = 5 then 6 else 2) ≤
        s.caplen) ∧
    (let s := cutElement [0x95, 0x02, 0x11, 0x22, 0x33, 0x44] false;
      s.fits 5 ∧ s.headAt + 6 ≤ s.caplen) ∧
    ((cutElement [0x94, 0x02, 0x11, 0x22, 0x33] false).fits 4 ∧ (4 : BitVec 4) ≠ 5) := by
  unfold State.fits
  decide +kernel

theorem witness_ElementDefault :
    (cutElement [0xE0] false).fits 0 ∧
    (let s := cutElement [0x02, 0xAB, 0xCD] false;
      s.fits 2 ∧ s.headAt + 1 + (2 : BitVec 4).toNat ≤ s.caplen) ∧
    (let s := cutElement [0x02, 0xAB] false;
      s.fits 2 ∧ (2 : BitVec 4) ≠ 0 ∧ s.caplen < s.headAt + 1 + (2 : BitVec 4).toNat) := by
  unfold State.fits
  decide +kernel

theorem witness_ElementExtended : let s := cutElement [0xF0, 0x00] false
    s.fits 0 ∧ s.headAt + 2 ≤ s.caplen := by
  unfold State.fits
  decide +kernel

/-- An element one byte longer than its view, at top level and nested (VE21). -/
theorem witness_PastEndLeavesView :
    ((Instr.ehUpPrivacy 5).space = .element ∧ opcode (.ehUpPrivacy 5) = (3 : BitVec 4) ++ (5 : BitVec 4) ∧
      ¬ (atElement [0x35, 0x01, 0x01, 0x23, 0x00]).fits 5 ∧
      (atElement [0x35, 0x01, 0x01, 0x23, 0x00]).callers = []) ∧
    (¬ nested.fits 3 ∧ nested.callers.length = 1) := by
  unfold State.fits
  decide +kernel

/-- One byte short of each read. -/
theorem witness_ElementReadFaults :
    (let s := cutElement [0x31] false;
      s.fits 1 ∧ s.fits 2 ∧ s.fits 5 ∧ s.caplen < s.headAt + 2) ∧
    (let s := cutElement [0x31, 0x21, 0x00] false;
      s.fits 1 ∧ s.headAt + 2 ≤ s.caplen ∧ s.caplen < s.headAt + 4) ∧
    (let s := cutElement [0x31, 0x21, 0xBC, 0x19] false;
      s.fits 1 ∧ (3 : BitVec 4) ≠ 7 ∧ s.headAt + 4 ≤ s.caplen ∧ s.caplen < s.headAt + 5) ∧
    (let s := cutElement [0x34, 0x21, 0x00, 0x19, 0x00] true;
      s.fits 4 ∧ s.fragmented = true ∧ s.headAt + 5 ≤ s.caplen ∧ s.caplen < s.headAt + 6) ∧
    (let s := cutElement [0x52, 0x07] false;
      s.fits 2 ∧ s.headAt + 2 ≤ s.caplen ∧ s.caplen < s.headAt + 3) ∧
    (let s := cutElement [0x83, 0xAB, 0xCD] false;
      s.fits 3 ∧ s.fits 5 ∧ s.headAt + 2 ≤ s.caplen ∧ s.caplen < s.headAt + 4) ∧
    (let s := cutElement [0x85, 0xBB, 0xCD, 0xEF, 0x12] false;
      s.fits 5 ∧ s.headAt + 4 ≤ s.caplen ∧ s.caplen < s.headAt + 6) ∧
    (let s := cutElement [0x95, 0x02, 0x11, 0x22, 0x33] false;
      s.fits 5 ∧ s.headAt + 2 ≤ s.caplen ∧ s.caplen < s.headAt + 6) := by
  unfold State.fits
  decide +kernel

theorem witness_ElementFrame :
    ((Instr.ehRequest 3).space = .element ∧ exec (.ehRequest 3) (atElement [0x13, 0x07, 0x00, 0x21]) =
      .next (after (exec (.ehRequest 3) (atElement [0x13, 0x07, 0x00, 0x21])))) ∧
    (∀ n, Instr.ehRequest 3 ≠ .ehUpPrivacy n ∧ Instr.ehRequest 3 ≠ .ehDownPrivacy n ∧
      Instr.ehRequest 3 ≠ .ehUpPrivacy2 n) ∧ (atElement [0x34]).fragmented = false :=
  ⟨⟨rfl, rfl⟩, by decide, rfl⟩

/-! ### The fragment path -/

/-- `FRAG` without an extended header: a bad check, no body, a check field that is not captured, a bad
one, and a good one. -/
theorem witness_FragWithoutWalk_gates :
    (let s := plainFrag [0, 0];
      6 ≤ s.caplen ∧ s.fragValid = false ∧ (plainFragShown s).hcsVerdict defaultParams = .bad) ∧
    (let s := { plainFrag [0, 0] with cfg := { Cfg.reset with validateHcs := false } };
      (plainFragShown s).hcsVerdict defaultParams ≠ .bad ∧ (plainFragShown s).payloadLength < 4) ∧
    (let s := { atFrame [0xC6, 0, 0, 7, 0, 0, 0, 0, 0, 0] with cfg := { Cfg.reset with validateHcs := false } };
      (plainFragShown s).hcsVerdict defaultParams ≠ .bad ∧ 4 ≤ (plainFragShown s).pdulen ∧
        4 ≤ (plainFragShown s).payloadLength ∧
        (plainFragShown s).caplen < (plainFragShown s).hdrlen + (plainFragShown s).pdulen.toNat) := by
  decide +kernel

theorem witness_FragWithoutWalk_bad :
    let t := plainFragShown { plainFrag [0, 0, 0, 0, 0, 0] with cfg := { Cfg.reset with validateHcs := false } }
    t.hcsVerdict defaultParams ≠ .bad ∧ t.fcsCaptured ∧ ¬ t.fcsGood defaultParams := by
  unfold State.fcsCaptured State.fcsGood
  decide +kernel

theorem witness_FragWithoutWalk_good :
    let t := plainFragShown { plainFrag [0, 0, 0xB8, 0x20, 0xFE, 0x72] with
      cfg := { Cfg.reset with validateHcs := false } }
    t.hcsVerdict defaultParams ≠ .bad ∧ t.fcsCaptured ∧ t.fcsGood defaultParams := by
  unfold State.fcsCaptured State.fcsGood
  decide +kernel

theorem witness_fragReady : frag1.fragReady defaultParams := by
  unfold State.fragReady
  decide +kernel

theorem witness_FragTooShort :
    (let s := { frag1 with pdulen := 3 };
      s.fragReady defaultParams ∧ s.pdulen < 4) ∧
    (let s := { frag1 with pdulen := 8 };
      s.fragReady defaultParams ∧ 4 ≤ s.pdulen ∧ 4 ≤ s.payloadLength ∧
        s.caplen < s.hdrlen + s.pdulen.toNat) := by
  unfold State.fragReady
  decide +kernel

theorem witness_FragNotSubmitted :
    (let s := { frag1 with pdulen := 6 };
      s.fragReady defaultParams ∧ s.fcsCaptured ∧ ¬ s.fcsGood defaultParams) ∧
    (let s := { frag1 with fragValid := false };
      s.fragReady defaultParams ∧ s.fcsCaptured ∧ s.fcsGood defaultParams ∧ s.fragValid = false) := by
  unfold State.fragReady State.fcsCaptured State.fcsGood
  decide +kernel

theorem witness_FragBuffered : frag1.fragReady defaultParams ∧ frag1.fcsCaptured ∧
    frag1.fcsGood defaultParams ∧ frag1.fragValid = true ∧ frag1.fragFlags ≠ 0b01 ∧
    Store.slot frag1.mem.store frag1.fragSid frag1.fragSeq = none := by
  unfold State.fragReady State.fcsCaptured State.fcsGood
  decide +kernel

theorem witness_FragDuplicate :
    let s := frag1.setStore (Store.write [] 0x123 14 [] false)
    s.fragReady defaultParams ∧ s.fcsCaptured ∧ s.fcsGood defaultParams ∧ s.fragValid = true ∧
      Store.slot s.mem.store s.fragSid s.fragSeq ≠ none := by
  unfold State.fragReady State.fcsCaptured State.fcsGood
  decide +kernel

theorem witness_FragComplete : frag3.fragReady defaultParams ∧ frag3.fcsCaptured ∧
    frag3.fcsGood defaultParams ∧ frag3.fragValid = true ∧ frag3.fragFlags = 0b01 ∧
    Store.slot frag3.mem.store frag3.fragSid frag3.fragSeq = none := by
  unfold State.fragReady State.fcsCaptured State.fcsGood
  decide +kernel

theorem witness_BadFragmentNeverStored : ¬ ({ frag1 with pdulen := 6 } : State).fcsGood defaultParams := by
  unfold State.fcsGood
  decide +kernel

theorem witness_FragStoreFrame :
    (frag1.phase = .tail ∧ step frag1 = .next (after (step frag1))) ∧
    ((0 : Sid) ≠ frag1.fragSid ∧ frag1.fragFlags ≠ 0b01 ∧ (15 : Seq4) ≠ frag1.fragSeq) ∧
    Store.slot (frag1.setStore (Store.write [] 0x123 14 [] false)).mem.store 0x123 14 ≠ none ∧
    ¬ (atTail [0x01, 0, 0, 2, 0, 0] 0 0 0 2).isFrag := by
  unfold State.isFrag
  exact ⟨⟨rfl, rfl⟩, by decide, by decide, by decide⟩

theorem witness_AddFragmentResults : Store.slot frag3.mem.store 0x123 14 ≠ none ∧
    Store.slot frag3.mem.store 0x123 0 = none ∧ (0b11 : BitVec 2) ≠ 0b01 := by decide

/-- The shortest and the longest message. -/
theorem witness_MessageReassembles : Store.groupEmpty [] 0x123 ∧ 1 ≤ [([0xAA] : List Byte)].length ∧
    (List.replicate 15 ([0xAA] : List Byte)).length ≤ 15 := by
  unfold Store.groupEmpty
  decide

theorem witness_OrderIndependence :
    let a : Submission := ⟨14, 0b10, [0xA0]⟩
    let b : Submission := ⟨15, 0b00, [0xB0]⟩
    State.reset.mem.wf ∧ [a, b].Perm [b, a] ∧ ([a, b].map Submission.seq).Nodup ∧
      ∀ f ∈ [a, b], f.flags ≠ 0b01 := by decide

/-- The last offset whose four bytes are captured, and the first that is not. -/
theorem witness_FragmentCheck : 15 + 4 ≤ frag1.caplen ∧ frag1.caplen < 16 + 4 := by decide

theorem witness_ChecksumRoundTrip :
    (let s := { atFrame [0xC4, 0x05, 0x00, 0x10, 0xD7, 0x9C] with hdrlen := 6 };
      let hdr : List Byte := [0xC4, 0x05, 0x00, 0x10];
      s.mem.frame = hdr ++ [(defaultParams.crc16Field hdr).extractLsb' 8 8,
        (defaultParams.crc16Field hdr).extractLsb' 0 8] ++ [] ∧
        s.hdrlen = hdr.length + 2 ∧ s.cfg.validateHcs = true) ∧
    (let hdr : List Byte := [0xC7, 0x06, 0x00, 0x0F, 0x35, 0x01, 0x01, 0x23, 0x00, 0x2E, 0x60, 0x09, 0xA0,
        0xA1, 0xA2];
      frag1.mem.frame = hdr ++ [(defaultParams.crc32Field hdr).extractLsb' 24 8,
        (defaultParams.crc32Field hdr).extractLsb' 16 8, (defaultParams.crc32Field hdr).extractLsb' 8 8,
        (defaultParams.crc32Field hdr).extractLsb' 0 8]) := by decide +kernel

/-! ### Invariants, on a nested walk and at the end of a fragment frame -/

theorem witness_StoreCanonicalKept :
    frag3.mem.wf ∧ step frag3 = .next (after (step frag3)) := ⟨by decide, rfl⟩

theorem witness_WalkBoundsKept : nested.walkOk ∧ step nested = .next (after (step nested)) := by
  refine ⟨⟨fun _ => ?_, fun h => absurd rfl h⟩, rfl⟩
  exact ⟨by unfold View.inBounds; decide, rfl, rfl, by decide, by unfold View.inBounds; decide, rfl⟩

theorem witness_HeaderRegistersKept : frag1.headerOk ∧ step frag1 = .next (after (step frag1)) :=
  ⟨fun _ => by decide +kernel, rfl⟩

theorem witness_FragContextKept : frag1.fragContextOk ∧ step frag1 = .next (after (step frag1)) :=
  ⟨⟨fun _ => ⟨.inr rfl, rfl, rfl⟩, fun _ _ => ⟨rfl, rfl⟩⟩, rfl⟩

theorem witness_RecordsKept :
    let s := frag1.withRecords [numField .fcType 0 1 3, .event .lenPastEnd 2]
    s.recordsOk ∧ step s = .next (after (step s)) := by
  refine ⟨⟨fun _ => by decide +kernel, fun r hr => ?_, fun h => (by cases h), fun h => (by cases h),
    trivial⟩, rfl⟩
  rcases List.mem_pair.1 (show r ∈ [numField .fcType 0 1 3, .event .lenPastEnd 2] from hr) with rfl | rfl
  · refine ⟨fun _ _ => by decide, by decide, by decide⟩
  · trivial

theorem witness_StatusKept :
    let s := frag1.withRecords [.event .lenPastEnd 2]
    s.statusOk ∧ step s = .next (after (step s)) := by
  refine ⟨⟨fun _ => rfl, fun off h => ?_, fun h => ?_⟩, rfl⟩
  · rcases List.mem_singleton.1 (show Record.event .faultBounds off ∈ [.event .lenPastEnd 2] from h)
  · cases h

theorem witness_FrameChangesLittle :
    frag1.phase ≠ .idle ∧ step frag1 = .next (after (step frag1)) ∧ (0 : Sid) ≠ frag1.fragSid :=
  ⟨by decide, rfl, by decide⟩

theorem witness_EveryFrameEnds : nested.walkOk := witness_WalkBoundsKept.1

/-- Two states between frames with different scratch registers. -/
theorem witness_DeadStateUnobservable :
    State.reset.live = ({ State.reset with fragSeq := 5, hdrlen := 9 } : State).live := by decide

theorem witness_RedissectionIdempotent :
    let s := { frag3 with phase := .idle, pending := .sessionReset :: [[0xC4]].map .frameIn }
    let t := { State.reset with pending := .sessionReset :: [[0xC4]].map .frameIn }
    s.phase = .idle ∧ t.phase = .idle ∧ s.cfg = t.cfg ∧ s.pending = t.pending := by decide

end Sys2Proof.Tests
end

section
/-! The elements: each is the shared loop body around its own part. What an element keeps follows from
`element_ends`; where a `FAULT_BOUNDS` of its own part may lie is said by `Yields`. -/

namespace Sys2Proof.Machine

/-! ## Which element an instruction is -/

/-- The own part of an element (`41_ehdr_elements.md` R188 to R198). A frame class has none. -/
def ownPart : Instr → Nat → Act ArmEnd
  | .ehRequest len => armRequest len
  | .ehAckReq len => armAckReq len
  | .ehUpPrivacy _ => armUpPrivacy
  | .ehDownPrivacy _ => armDownPrivacy
  | .ehSfPhs5 len => armSfPhs5 len
  | .ehSfPhs6 len => armSfPhs6 len
  | .ehUpPrivacy2 _ => armUpPrivacy2
  | .ehDownService len => armDownService len
  | .ehPathVerify len => armPathVerify len
  | .ehNull len | .ehRsvd10 len | .ehRsvd11 len | .ehRsvd12 len | .ehRsvd13 len | .ehRsvd14 len =>
    armDefault len
  | .ehExtended _ => armExtended
  | _ => fun _ => pure .advance

/-- The loop body around an element's own part (R181). -/
def elementBody (i : Instr) : Act Unit := element (headType (opcode i)) (headLen (opcode i)) (ownPart i)

theorem exec_element {i : Instr} (h : i.space = .element) (s : State) :
    exec i s = runAct (elementBody i) s := by
  have hb := Laws.DecodeEncode.headByte_fields
  cases i with
  | pkt | rsvd | iso | timing | mgmt | rqst | frag | qdr | concat | unknown => cases h
  | _ => simp only [elementBody, opcode, hb]; rfl

/-- The types whose own part writes `is_encrypted` (`10_state.md` R28). -/
def writesEncrypted : Instr → Bool
  | .ehUpPrivacy _ | .ehDownPrivacy _ | .ehUpPrivacy2 _ => true
  | _ => false

/-- The type whose own part writes the scratch registers, in fragment context (R34 to R36). -/
def writesScratch : Instr → Bool
  | .ehUpPrivacy _ => true
  | _ => false

/-- The type whose own part opens a nested activation (`41_ehdr_elements.md` R197). -/
def opensView : Instr → Bool
  | .ehExtended _ => true
  | _ => false

theorem ownPart_keeps {F : List Byte} {i : Instr} (h : opensView i = false) (p : Nat) :
    Keeps F (ArmKeeps F.length (writesEncrypted i) (writesScratch i)) (ownPart i p) := by
  cases i with
  | ehRequest => exact arm_armRequest
  | ehAckReq => exact arm_armAckReq
  | ehUpPrivacy => exact arm_armUpPrivacy
  | ehDownPrivacy => exact arm_armDownPrivacy
  | ehSfPhs5 => exact arm_armSfPhs5
  | ehSfPhs6 => exact arm_armSfPhs6
  | ehUpPrivacy2 => exact arm_armUpPrivacy2
  | ehDownService => exact arm_armDownService
  | ehPathVerify => exact arm_armPathVerify
  | ehNull | ehRsvd10 | ehRsvd11 | ehRsvd12 | ehRsvd13 | ehRsvd14 => exact arm_armDefault
  | ehExtended => cases h
  | _ => exact keeps_pure (ArmKeeps.chain ..) _

/-! ## What an action answers, and where it may fault -/

/-- Where an action goes on its answer satisfies `Q`, and where a `FAULT_BOUNDS` cuts it short the offset
is below `b`. -/
def Yields {α : Type} (Q : α → Prop) (b : Nat) (m : Act α) : Prop :=
  ∀ s, (∀ a t, m.run s = .ok a t → Q a) ∧ ∀ o t, m.run s = .error o t → o < b

section
variable {α β : Type} {Q : β → Prop} {b : Nat}

theorem yields_pure {a : β} (h : Q a) : Yields Q b (pure a : Act β) := fun _ =>
  ⟨fun _ _ e => (by injection e with e; exact e ▸ h), fun _ _ e => (by cases e)⟩

theorem yields_emit (r : Record) : Yields (fun _ => True) b (emit r) := fun _ =>
  ⟨fun _ _ _ => trivial, fun _ _ e => (by cases e)⟩

theorem yields_modify (f : State → State) : Yields (fun _ => True) b (modify f : Act Unit) := fun _ =>
  ⟨fun _ _ _ => trivial, fun _ _ e => (by cases e)⟩

theorem yields_bind {m : Act α} {f : α → Act β} (hm : Yields (fun _ => True) b m)
    (hf : ∀ a, Yields Q b (f a)) : Yields Q b (m >>= f) := by
  intro s
  rw [act_bind]
  cases h : m.run s with
  | ok a t => exact hf a t
  | error o t =>
    refine ⟨fun _ _ e => (by cases e), fun o' t' e => ?_⟩
    injection e with e
    exact e ▸ (hm s).2 o t h

theorem yields_get_bind {f : State → Act β} (hf : ∀ s, Yields Q b (f s)) :
    Yields Q b ((get : Act State) >>= f) := fun s => hf s s

theorem yields_ite {c : Prop} [Decidable c] {m n : Act β} (hm : Yields Q b m) (hn : Yields Q b n) :
    Yields Q b (if c then m else n) := by
  split
  · exact hm
  · exact hn

theorem yields_memBytes {o n : Nat} (h : o < b) : Yields (fun _ => True) b (memBytes o n) := by
  refine fun s => ⟨fun _ _ _ => trivial, fun o' t e => ?_⟩
  rw [memBytes_run] at e
  split at e
  · cases e
  · injection e with e
    exact e ▸ h

theorem yields_memRead {o n : Nat} (h : o < b) : Yields (fun _ => True) b (memRead o n) :=
  yields_bind (yields_memBytes h) fun _ => yields_pure trivial

theorem yields_readField {id : FieldId} {o n : Nat} (h : o < b) :
    Yields (fun _ => True) b (readField id o n) :=
  yields_bind (yields_memRead h) fun _ => yields_emit _

theorem yields_keyseqVersion {p : Nat} (h : p + 1 < b) : Yields (fun _ => True) b (keyseqVersion p) :=
  yields_bind (yields_memRead h) fun _ => yields_bind (yields_emit _) fun _ => yields_emit _

theorem yields_privacyWord {id : FieldId} {p : Nat} (h : p + 2 < b) :
    Yields (fun _ => True) b (privacyWord id p) :=
  yields_bind (yields_memRead h) fun _ => yields_bind (yields_emit _) fun _ =>
    yields_bind (yields_modify _) fun _ => yields_bind (yields_emit _) fun _ =>
      yields_bind (yields_emit _) fun _ => yields_pure trivial

theorem yields_fragmentByte {p w : Nat} (h : p + 5 < b) : Yields (fun _ => True) b (fragmentByte p w) :=
  yields_bind (yields_memRead h) fun _ => yields_bind (yields_emit _) fun _ =>
    yields_bind (yields_emit _) fun _ => yields_bind (yields_emit _) fun _ =>
      yields_bind (yields_emit _) fun _ => yields_modify _

theorem yields_serviceFlow {p : Nat} {len : BitVec 4} (h : p + 2 < b) :
    Yields (fun _ => True) b (serviceFlow p len) :=
  yields_bind (yields_readField (by omega)) fun _ => yields_ite
    (yields_bind (yields_memRead h) fun _ => yields_bind (yields_emit _) fun _ => yields_emit _)
    (yields_pure trivial)

theorem yields_dsid {p : Nat} (h : p + 1 < b) : Yields (fun _ => True) b (dsid p) :=
  yields_bind (yields_memRead h) fun _ => yields_emit _

theorem yields_opaqueValue {p : Nat} {len : BitVec 4} (h : p + 1 < b) :
    Yields (fun _ => True) b (opaqueValue p len) :=
  yields_ite (yields_pure trivial) (yields_bind (yields_memBytes h) fun _ => yields_emit _)

theorem yields_enterView {v : Nat} {cs : List View} (h : v + 1 < b) :
    Yields (fun _ => True) b (enterView v cs) :=
  yields_bind (yields_memRead h) fun _ => yields_modify _

end

/-- The own part of an element reads nothing six bytes or more beyond its head byte, and only type 15
opens an activation. -/
theorem ownPart_yields (i : Instr) (p : Nat) :
    Yields (fun r => r = .nested → opensView i = true) (p + 6) (ownPart i p) := by
  cases i with
  | ehRequest =>
    exact yields_ite (yields_bind (yields_readField (by omega)) fun _ =>
      yields_bind (yields_readField (by omega)) fun _ => yields_pure (by simp)) (yields_pure (by simp))
  | ehAckReq =>
    exact yields_ite (yields_bind (yields_readField (by omega)) fun _ => yields_pure (by simp))
      (yields_pure (by simp))
  | ehUpPrivacy =>
    refine yields_bind (yields_keyseqVersion (by omega)) fun _ =>
      yields_bind (yields_privacyWord (by omega)) fun _ =>
        yields_bind (yields_readField (by omega)) fun _ => yields_get_bind fun _ => ?_
    exact yields_ite (yields_bind (yields_fragmentByte (by omega)) fun _ => yields_pure (by simp))
      (yields_pure (by simp))
  | ehDownPrivacy =>
    exact yields_bind (yields_keyseqVersion (by omega)) fun _ =>
      yields_bind (yields_privacyWord (by omega)) fun _ =>
        yields_bind (yields_readField (by omega)) fun _ => yields_pure (by simp)
  | ehUpPrivacy2 =>
    exact yields_bind (yields_keyseqVersion (by omega)) fun _ =>
      yields_bind (yields_privacyWord (by omega)) fun _ => yields_pure (by simp)
  | ehSfPhs5 =>
    exact yields_bind (yields_serviceFlow (by omega)) fun _ => yields_pure (by simp)
  | ehSfPhs6 =>
    exact yields_ite
      (yields_bind (yields_emit _) fun _ =>
        yields_bind (yields_serviceFlow (by omega)) fun _ => yields_pure (by simp))
      (yields_bind (yields_serviceFlow (by omega)) fun _ => yields_pure (by simp))
  | ehDownService =>
    refine yields_bind (yields_memRead (by omega)) fun _ => yields_bind (yields_emit _) fun _ => ?_
    refine yields_ite (yields_bind (yields_dsid (by omega)) fun _ => yields_pure (by simp)) ?_
    exact yields_ite
      (yields_bind (yields_emit _) fun _ => yields_bind (yields_dsid (by omega)) fun _ =>
        yields_bind (yields_readField (by omega)) fun _ => yields_pure (by simp))
      (yields_pure (by simp))
  | ehPathVerify =>
    exact yields_ite
      (yields_bind (yields_readField (by omega)) fun _ =>
        yields_bind (yields_readField (by omega)) fun _ => yields_pure (by simp))
      (yields_pure (by simp))
  | ehNull | ehRsvd10 | ehRsvd11 | ehRsvd12 | ehRsvd13 | ehRsvd14 =>
    exact yields_bind (yields_opaqueValue (by omega)) fun _ => yields_pure (by simp)
  | ehExtended =>
    exact yields_get_bind fun _ => yields_bind (yields_enterView (by omega)) fun _ =>
      yields_pure (fun _ => rfl)
  | _ => exact yields_pure (by simp)

/-! ## Everything an element does -/

theorem elementBody_ends (i : Instr) (s : State) (h : i.space = .element) :
    ∃ t, runAct (elementBody i) s = .next t ∧
      ElementEnds s (headType (opcode i)) (headLen (opcode i)) (writesEncrypted i) (writesScratch i) t := by
  by_cases hv : opensView i = true
  · cases i with
    | ehExtended len =>
      simp only [elementBody, opcode, Laws.DecodeEncode.headByte_fields]
      exact extended_ends ..
    | _ => cases hv
  · refine element_ends (ownPart_keeps (by simpa using hv) _) fun t ht => hv ?_
    exact (ownPart_yields i _ _).1 _ _ ht rfl

/-- An element that is cut short is cut short in its own part. -/
theorem element_error {type len : BitVec 4} {arm : Nat → Act ArmEnd} {s u : State} {o : Nat}
    (h : (element type len arm).run s = .error o u) :
    (arm s.headAt).run (s.elementShown type len []) = .error o u := by
  by_cases hf : s.fits len
  · rw [element_fits hf] at h
    cases ha : (arm s.headAt).run (s.elementShown type len []) with
    | ok r t =>
      rw [ha] at h
      dsimp only at h
      rw [afterArm_run] at h
      cases h
    | error o' t =>
      rw [ha] at h
      injection h with ho ht
      rw [ho, ht]
  · rw [element_pastEnd hf] at h
    cases h

/-- Nothing has ended: `status` and `fragmented` are as before. -/
def Unended (s t : State) : Prop := t.status = s.status ∧ t.fragmented = s.fragmented

theorem unended_chain : IsChain Unended where
  refl _ := ⟨rfl, rfl⟩
  trans h h' := ⟨h'.1.trans h.1, h'.2.trans h.2⟩

theorem leaveView_unended (s : State) : Unended s s.leaveView := by
  cases h : s.callers with
  | nil => rw [leaveView_top h]; exact ⟨rfl, rfl⟩
  | cons => rw [leaveView_nested h]; exact ⟨rfl, rfl⟩

theorem ownPart_unended (i : Instr) (s : State) :
    Unended s (leaves ((ownPart i s.headAt).run (s.elementShown (headType (opcode i)) (headLen (opcode i)) []))) := by
  by_cases hv : opensView i = true
  · cases i with
    | ehExtended =>
      rw [ownPart, armExtended_run]
      split <;> exact ⟨rfl, rfl⟩
    | _ => cases hv
  · have h := (ownPart_keeps (i := i) (by simpa using hv) s.headAt
      (s.elementShown (headType (opcode i)) (headLen (opcode i)) []) rfl).1
    exact ⟨h.status, h.fragmented⟩

theorem elementBody_unended {i : Instr} {s t : State} (h : (elementBody i).run s = .ok () t) :
    Unended s t := by
  have hu := ownPart_unended i s
  rw [elementBody] at h
  by_cases hf : s.fits (headLen (opcode i))
  · rw [element_fits hf] at h
    cases ha : (ownPart i s.headAt).run (s.elementShown (headType (opcode i)) (headLen (opcode i)) []) with
    | ok r u =>
      rw [ha] at h hu
      dsimp only at h
      rw [afterArm_run] at h
      injection h with _ h
      subst h
      have hu : Unended s u := hu
      refine unended_chain.trans hu ?_
      cases r with
      | advance | nested => exact ⟨rfl, rfl⟩
      | mismatch =>
        dsimp only
        split
        · exact unended_chain.trans (t := u.addRecord (.event .ehLenMismatch s.headAt)) ⟨rfl, rfl⟩
            (leaveView_unended _)
        · exact ⟨rfl, rfl⟩
    | error o u =>
      rw [ha] at h
      cases h
  · rw [element_pastEnd hf] at h
    injection h with _ h
    subst h
    exact leaveView_unended (State.addRecord _ _)

/-- The end of a frame inside an element is a bounds fault close behind the head byte. -/
theorem exec_element_unended {i : Instr} {s t : State} (hi : i.space = .element)
    (h : exec i s = .next t) :
    Unended s t ∨ ∃ u off, t = State.faulted u off ∧ off < s.headAt + 6 := by
  rw [exec_element hi] at h
  cases hm : (elementBody i).run s with
  | ok a u =>
    rw [runAct_ok hm] at h
    injection h with h
    exact .inl (h ▸ elementBody_unended hm)
  | error o u =>
    rw [runAct_error hm] at h
    injection h with h
    exact .inr ⟨u, o, h.symm, (ownPart_yields i _ _).2 _ _ (element_error hm)⟩

/-- What an element keeps of the frame, whatever way it ends. -/
structure ElementKeeps (enc scr : Bool) (s t : State) : Prop where
  mem : t.mem = s.mem
  cfg : t.cfg = s.cfg
  fc : t.fc = s.fc
  fctype : t.fctype = s.fctype
  fcparm : t.fcparm = s.fcparm
  ehdron : t.ehdron = s.ehdron
  macParm : t.macParm = s.macParm
  lenSid : t.lenSid = s.lenSid
  hdrlen : t.hdrlen = s.hdrlen
  payloadLength : t.payloadLength = s.payloadLength
  pdulen : t.pdulen = s.pdulen
  savedFragmented : t.savedFragmented = s.savedFragmented
  proceed : t.proceed = s.proceed
  cfgReadValue : t.cfgReadValue = s.cfgReadValue
  pending : t.pending = s.pending
  isEncrypted : enc = false → t.isEncrypted = s.isEncrypted
  scratch : scr = false ∨ s.fragmented = false →
    t.fragFlags = s.fragFlags ∧ t.fragSeq = s.fragSeq ∧ t.fragSid = s.fragSid ∧ t.fragValid = s.fragValid

theorem ArmKeeps.elementKeeps {cap : Nat} {enc scr : Bool} {type len : BitVec 4} {s u : State}
    (h : ArmKeeps cap enc scr (s.elementShown type len []) u) : ElementKeeps enc scr s u := { h with }

/-- The activation that is left changes the decoder's registers and the phase alone. -/
theorem leaveView_eq (s : State) : ∃ v cs ph, s.leaveView = { s with view := v, callers := cs, phase := ph } ∧
    (ph = s.phase ∨ ph = .tail) := by
  cases h : s.callers with
  | nil => exact ⟨s.view, [], .tail, by rw [leaveView_top h, ← h], .inr rfl⟩
  | cons c cs => exact ⟨c.advanced, cs, s.phase, leaveView_nested h, .inl rfl⟩

theorem ElementKeeps.leaveView {enc scr : Bool} {s u : State} (h : ElementKeeps enc scr s u) :
    ElementKeeps enc scr s u.leaveView := by
  obtain ⟨v, cs, ph, e, -⟩ := leaveView_eq u
  rw [e]
  exact { h with }

/-- Records have been added, in order where `P` holds, and nothing has ended. -/
structure Adds (P : Prop) (s t : State) : Prop where
  frame : t.mem.frame = s.mem.frame
  status : t.status = s.status
  out : ∃ rs, t.out = s.out ++ rs ∧ FineRecords P s.caplen rs

theorem FineRecords.of_fine {P : Prop} {cap : Nat} {rs : List Record} (h : ∀ r ∈ rs, fineRecord cap r) :
    FineRecords P cap rs :=
  ⟨fun r hr => (h r hr).2.1, fun _ r hr => (h r hr).1, fun _ => fineRecord_addresses h⟩

theorem FineRecords.mono {P Q : Prop} {cap : Nat} {rs : List Record} (h : FineRecords P cap rs)
    (hq : Q → P) : FineRecords Q cap rs := ⟨h.noFault, fun q => h.ok (hq q), fun q => h.addresses (hq q)⟩

theorem Adds.mono {P Q : Prop} {s t : State} (h : Adds P s t) (hq : Q → P) : Adds Q s t where
  frame := h.frame
  status := h.status
  out := by
    obtain ⟨rs, ho, hf⟩ := h.out
    exact ⟨rs, ho, hf.mono hq⟩

theorem Adds.leaveView {P : Prop} {s u : State} (h : Adds P s u) : Adds P s u.leaveView := by
  obtain ⟨v, cs, ph, e, -⟩ := leaveView_eq u
  rw [e]
  exact { h with }

/-- The head fields of an element whose head byte is captured, and then what its own part adds. -/
theorem ArmKeeps.adds {enc scr : Bool} {type len : BitVec 4} {s u : State}
    (h : ArmKeeps s.caplen enc scr (s.elementShown type len []) u) : Adds (s.headAt < s.caplen) s u := by
  obtain ⟨rs, ho, hf⟩ := h.out
  refine ⟨congrArg Memory.frame h.mem, h.status,
    [numField .ehType s.headAt 1 type.toNat, numField .ehLen s.headAt 1 len.toNat] ++ rs, ?_, ?_⟩
  · rw [ho]
    simp [State.elementShown]
  · have ht := type.isLt
    have hl := len.isLt
    exact .num (fun p => ⟨p, by omega⟩) (by decide) (.num (fun p => ⟨p, by omega⟩) (by decide) (.of_fine hf))

/-- What an element keeps and adds: where it does not end the frame the walk goes on or is over; else a
`FAULT_BOUNDS` is taken. -/
theorem ElementEnds.keeps {type len : BitVec 4} {enc scr : Bool} {s t : State}
    (h : ElementEnds s type len enc scr t) : ElementKeeps enc scr s t ∧
      ((Adds (s.headAt < s.caplen) s t ∧ t.fragmented = s.fragmented ∧
          (t.phase = s.phase ∨ t.phase = .walk ∨ t.phase = .tail)) ∨
        ∃ u o, t = u.takeFault o ∧ Adds (s.headAt < s.caplen) s u) := by
  have left : ∀ u : State, u.phase = s.phase →
      u.leaveView.phase = s.phase ∨ u.leaveView.phase = .walk ∨ u.leaveView.phase = .tail := by
    intro u hu
    obtain ⟨v, cs, ph, e, hp⟩ := leaveView_eq u
    rw [e]
    exact hp.elim (fun hp => .inl (hp.trans hu)) (fun hp => .inr (.inr hp))
  cases h with
  | pastEnd hf =>
    have hk : ElementKeeps enc scr s ((s.setView (s.view.setHead type len)).addRecord (.event .ehPastEnd s.headAt)) :=
      { (ArmKeeps.chain s.caplen enc scr).refl s with }
    have ha : Adds (s.headAt < s.caplen) s
        ((s.setView (s.view.setHead type len)).addRecord (.event .ehPastEnd s.headAt)) :=
      ⟨rfl, rfl, _, rfl, .event _ (by decide) (.nil ..)⟩
    exact ⟨hk.leaveView, .inl ⟨ha.leaveView, (leaveView_unended _).2, left _ rfl⟩⟩
  | advance u hf h => exact ⟨{ h with }, .inl ⟨{ h.adds with }, h.fragmented, .inl h.phase⟩⟩
  | abort u hf h =>
    exact ⟨h.elementKeeps.leaveView,
      .inl ⟨h.adds.leaveView, (leaveView_unended u).2.trans h.fragmented, left u h.phase⟩⟩
  | nested hf ht hc =>
    have h := (ArmKeeps.chain s.caplen enc scr).refl (s.elementShown type len [])
    exact ⟨{ h with }, .inl ⟨{ h.adds with }, rfl, .inr (.inl rfl)⟩⟩
  | fault u o hf h => exact ⟨{ h with }, .inr ⟨u, o, rfl, h.adds⟩⟩

/-- Settles O34: what an element keeps is in `ElementKeeps`, and its only end of the frame is a fault
of its own part, which reads nothing beyond its sixth byte (`ownPart_yields`). -/
theorem elementFrame : Obligations.ElementFrame := by
  unfold Obligations.ElementFrame
  intro i s t hi ht
  obtain ⟨t', hx, he⟩ := elementBody_ends i s hi
  rw [exec_element hi, hx] at ht
  injection ht with ht
  subst ht
  obtain ⟨k, ha⟩ := he.keeps
  have hout : ∃ rs, t'.out = s.out ++ rs := by
    rcases ha with ⟨ha, -⟩ | ⟨u, o, rfl, ha⟩
    · obtain ⟨rs, h, -⟩ := ha.out
      exact ⟨rs, h⟩
    · obtain ⟨rs, h, -⟩ := ha.out
      exact ⟨rs ++ [.event .faultBounds o], by simp [State.takeFault, h]⟩
  refine ⟨k.mem, k.cfg, k.fc, k.fctype, k.fcparm, k.ehdron, k.macParm, k.lenSid, k.hdrlen, k.payloadLength,
    k.pdulen, k.savedFragmented, k.proceed, k.cfgReadValue, k.pending, hout, fun h => k.isEncrypted ?_,
    fun h => k.scratch (h.symm.imp_left ?_), exec_element_unended hi (by rw [exec_element hi, hx])⟩
  · cases i with
    | ehUpPrivacy n => exact absurd rfl (h n).1
    | ehDownPrivacy n => exact absurd rfl (h n).2.1
    | ehUpPrivacy2 n => exact absurd rfl (h n).2.2
    | _ => rfl
  · cases i with
    | ehUpPrivacy n => exact fun h => absurd rfl (h n)
    | _ => exact fun _ => rfl

end Sys2Proof.Machine
end

section
/-! The frame classes: each is the prologue and then its own part. Everything a class can do is one of
three ends: it is cut short in the prologue, it begins the walk, or its part from `HcsCheck` on ends the
frame. -/

namespace Sys2Proof.Machine

/-! ## Which class an instruction is -/

/-- The part of a class after the prologue (`40_frame_classes.md` R141 to R151). -/
def afterPrologue (P : Config.Params) : Instr → Act Unit
  | .pkt _ _ => withHeader (tailPkt P)
  | .rsvd _ _ => withHeader (tailRsvd P)
  | .iso _ _ => withHeader (tailIso P)
  | .timing _ => withHeader (tailTiming P)
  | .mgmt _ => withHeader (tailMgmt P)
  | .rqst _ => fixedHeader P .rqMinislots .rqSid
  | .frag _ => do
    modify State.enterFragment
    withHeader (tailFrag P)
  | .qdr _ => fixedHeader P .qdrReqsize .qdrSid
  | .concat _ => fixedHeader P .concatCnt .concatLen
  | _ => endFrame

/-- The prologue of the class with opcode byte `b`. -/
def prologueOf (b : Byte) : Act Unit := prologue (fcType b) (fcParm b) (fcEhdron b)

theorem exec_class {i : Instr} (h : i.space = .frame) (s : State) :
    exec i s = runAct (prologueOf (opcode i) >>= fun _ => afterPrologue defaultParams i) s := by
  have hb := Laws.DecodeEncode.fcByte_fields
  cases i with
  | pkt | rsvd | iso | timing | mgmt | rqst | frag | qdr | concat | unknown =>
    simp only [prologueOf, opcode, hb]
    rfl
  | _ => cases h

/-- The class that enters fragment context (`43_reassembly.md` R262). -/
def entersFragment : Instr → Bool
  | .frag _ => true
  | _ => false

/-- The classes that walk an extended header (`40_frame_classes.md` R139, R149, R151). -/
def hasWalk : Instr → Bool
  | .pkt _ _ | .rsvd _ _ | .iso _ _ | .timing _ | .mgmt _ | .frag _ => true
  | _ => false

theorem fcByte_split : ∀ b : Byte, fcByte (fcType b) (fcParm b) (fcEhdron b) = b := by decide +kernel

/-- The state in which a class's own part begins: the prologue done, and for `FRAG` the fragment context
entered. -/
def classStart (i : Instr) (s : State) : State :=
  { s.prologueDone (fcType (opcode i)) (fcParm (opcode i)) (fcEhdron (opcode i)) with
    savedFragmented := if entersFragment i then s.fragmented else s.savedFragmented
    fragmented := entersFragment i || s.fragmented }

theorem fcRecords_fine (t : BitVec 2) (p : BitVec 5) (e : Bool) (cap : Nat) :
    FineRecords (0 < cap) cap (fcRecords t p e) := by
  have ht := t.isLt
  have hp := p.isLt
  have he : (if e then 1 else 0) < 256 ^ 1 := by split <;> omega
  exact .num (fun h => ⟨h, by omega⟩) (by decide) (.num (fun h => ⟨h, by omega⟩) (by decide)
    (.num (fun h => ⟨h, he⟩) (by decide) (.nil ..)))

theorem lengthRecords_fine (P : Prop) (cap : Nat) (d : Int) (n : Nat) :
    FineRecords P cap (lengthRecords d n) := by
  rw [lengthRecords]
  split
  · exact .event _ (by decide) (.nil ..)
  · split
    · exact .event _ (by decide) (.nil ..)
    · exact .nil ..

theorem classStart_adds (i : Instr) (s : State) : Adds (0 < s.caplen) s (classStart i s) where
  frame := rfl
  status := rfl
  out := ⟨_, List.append_assoc .., (fcRecords_fine ..).append (lengthRecords_fine ..)⟩

theorem classStart_lengthsOk (i : Instr) (s : State) : (classStart i s).lengthsOk := by
  refine ⟨?_, rfl⟩
  simp only [classStart, State.prologueDone]
  omega

theorem fieldsCaptured_format {s : State} {p : BitVec 5} (h : s.fieldsCaptured p) :
    4 + formatB p ≤ s.caplen := by
  rw [State.fieldsCaptured] at h
  rw [formatB_eq]
  split at h <;> simp_all

/-! ## The end of a frame -/

/-- The frame of `u` has ended, normally or by a `FAULT_BOUNDS` (`60_exceptions.md` R318). -/
def Finished (u v : State) : Prop := v = u.endFrame ∨ ∃ o, v = u.takeFault o

/-- The frame has ended after a part from `HcsCheck` on. -/
def Over (s : State) (fragClass : Prop) (v : State) : Prop :=
  ∃ rs pr fr st, Finished (s.partly rs pr fr st) v ∧ FineRecords s.lengthsOk s.caplen rs ∧
    (st = s.mem.store ∨ (fragClass ∧ StoreEnds s st))

theorem settle_endFrame (m : Act Unit) (s : State) :
    Finished (leaves (m.run s)) (settle ((m >>= fun _ => endFrame).run s)) := by
  rw [act_bind]
  cases m.run s with
  | ok a t => exact .inl rfl
  | error o t => exact .inr ⟨o, rfl⟩

theorem PartEnds.isOver {s : State} {c : Prop} {m : Act Unit} (h : PartEnds s c (m.run s)) :
    Over s c (settle ((m >>= fun _ => endFrame).run s)) := by
  obtain ⟨rs, pr, fr, st, hl, hf, hs⟩ := h
  exact ⟨rs, pr, fr, st, hl ▸ settle_endFrame m s, hf, hs⟩

theorem partly_partly (s : State) (rs rs' : List Record) (pr pr' fr fr' : Bool) (st st' : Store) :
    (s.partly rs pr fr st).partly rs' pr' fr' st' = s.partly (rs ++ rs') pr' fr' st' := by
  simp [State.partly]

theorem partly_self (s : State) : s.partly [] s.proceed s.fragmented s.mem.store = s := by
  simp [State.partly]

/-- The part after `s` has emitted records is a part after `s`. -/
theorem Over.records {s : State} {c : Prop} {rs : List Record} {v : State}
    (hf : FineRecords s.lengthsOk s.caplen rs) (h : Over (s.withRecords rs) c v) : Over s c v := by
  obtain ⟨rs', pr, fr, st, hv, hf', hs⟩ := h
  refine ⟨rs ++ rs', pr, fr, st, ?_, hf.append hf', hs⟩
  rwa [← partly_partly s rs rs' s.proceed pr s.fragmented fr s.mem.store st]

/-! ## The parts from `HcsCheck` on -/

theorem hcsCheck_part (P : Config.Params) (s : State) (c : Prop) : PartEnds s c ((hcsCheck P).run s) := by
  refine .records (P := P) (rs := []) (fun h => ?_) (fun h => ?_) fun _ => .nil ..
  · rw [hcsCheck_run, if_pos h, withRecords_nil]
  · rw [hcsCheck_run, if_neg (by omega)]

theorem tailFrag_part (P : Config.Params) (s : State) (c : Prop) (hc : c) :
    PartEnds s c ((tailFrag P).run s) := by
  by_cases h : s.hdrlen - 2 + 2 ≤ s.caplen
  · rw [tailFrag, hcs_bind _ h, act_get_bind]
    by_cases hp : (s.hcsDone P).proceed = true
    · rw [if_pos hp]
      obtain ⟨rs, fr, st, hl, hf, hs⟩ := fragBody_ends P (s.hcsDone P)
      have hst : st = s.mem.store ∨ (c ∧ StoreEnds s st) := hs.imp_right fun hs => ⟨hc, hs.2⟩
      rw [hcsDone_eq, partly_partly] at hl
      rw [← hcsDone_eq] at hl
      rw [act_bind]
      cases hm : (fragBody P).run (s.hcsDone P) with
      | ok a t =>
        rw [hm] at hl
        exact .hcs c h (fr := s.savedFragmented) (by rw [show t = _ from hl]; rfl) hf hst
      | error o t =>
        rw [hm] at hl
        exact .hcs c h hl hf hst
    · rw [if_neg hp]
      refine .hcs (P := P) c h (rs := []) (fr := s.savedFragmented) ?_ (.nil ..) (.inl rfl)
      rw [List.append_nil, hcsDone_eq]
      rfl
  · rw [tailFrag, hcs_bind_fault _ (by omega)]
    exact .self ..

theorem classTail_cases (P : Config.Params) (t : BitVec 2) (p : BitVec 5) :
    classTail P t p = ethernetTail P ∨ classTail P t p = managementTail P ∨ classTail P t p = tailRsvd P ∨
      (t = 3 ∧ p = 3 ∧ classTail P t p = tailFrag P) ∨ classTail P t p = pure () := by
  have h : t = 0 ∨ t = 1 ∨ t = 2 ∨ t = 3 := by revert t; decide
  rcases h with rfl | rfl | rfl | rfl
  · exact .inl rfl
  · exact .inr (.inr (.inl rfl))
  · exact .inl rfl
  · by_cases h0 : p = 0
    · exact .inr (.inl (h0 ▸ rfl))
    by_cases h1 : p = 1
    · exact .inr (.inl (h1 ▸ rfl))
    by_cases h3 : p = 3
    · exact .inr (.inr (.inr (.inl ⟨rfl, h3, h3 ▸ rfl⟩)))
    refine .inr (.inr (.inr (.inr ?_)))
    simp only [classTail, decodeFcFields, decodeMacspc]
    rw [if_neg (by decide), if_neg (by decide), if_neg (by decide), if_neg h0, if_neg h1, if_neg h3]
    split_ifs <;> rfl

theorem classTail_part (P : Config.Params) (s : State) :
    PartEnds s s.isFrag ((classTail P s.fctype s.fcparm).run s) := by
  rcases classTail_cases P s.fctype s.fcparm with h | h | h | ⟨ht, hp, h⟩ | h
  · rw [h]; exact ethernetTail_part ..
  · rw [h]; exact managementTail_part ..
  · rw [h]; exact rawTail_part ..
  · rw [h]; exact tailFrag_part _ _ _ ⟨ht, hp⟩
  · rw [h]
    exact ⟨[], s.proceed, s.fragmented, s.mem.store, (partly_self s).symm, .nil .., .inl rfl⟩

/-! ## Everything a class does -/

/-- The two fields after the prologue, where their bytes are captured. -/
def State.headerPairOk (s : State) : Prop :=
  4 + formatB s.fcparm ≤ s.caplen ∧ s.macParm.toNat < 256 ^ (1 + formatB s.fcparm)

theorem classStart_headerPairOk {i : Instr} {s : State} (h : s.fieldsCaptured (fcParm (opcode i))) :
    (classStart i s).headerPairOk := by
  refine ⟨fieldsCaptured_format h, ?_⟩
  refine Nat.lt_of_le_of_lt ?_ (valueAt_lt s 1 (1 + formatB (fcParm (opcode i))))
  simp only [classStart, State.prologueDone, BitVec.toNat_ofNat, formatB_eq]
  exact Nat.mod_le _ _

theorem headerPair_fine {Q : Prop} {s : State} {id1 id2 : FieldId} (h : s.headerPairOk)
    (h1 : id1 ≠ .ehVal ∧ id1 ≠ .encDa ∧ id1 ≠ .encSa ∧ id1 ≠ .hcs ∧ id1 ≠ .fragFcs)
    (h2 : id2 ≠ .ehVal ∧ id2 ≠ .encDa ∧ id2 ≠ .encSa ∧ id2 ≠ .hcs ∧ id2 ≠ .fragFcs) :
    FineRecords Q s.caplen [numField id1 1 (1 + formatB s.fcparm) s.macParm.toNat,
      numField id2 (2 + formatB s.fcparm) 2 s.lenSid.toNat] := by
  obtain ⟨hc, hm⟩ := h
  have hl := s.lenSid.isLt
  exact .num (fun _ => ⟨by omega, hm⟩) h1 (.num (fun _ => ⟨by omega, by omega⟩) h2 (.nil ..))

/-- The header fields of `HdrCommon` are the pair of a class that walks. -/
theorem headerShown_eq (s : State) :
    s.headerShown = s.twoFields (if s.ehdron then .ehdrLen else .macParm) .len := rfl

theorem headerShown_fine {Q : Prop} {s : State} (h : s.headerPairOk) :
    FineRecords Q s.caplen [numField (if s.ehdron then .ehdrLen else .macParm) 1 (1 + formatB s.fcparm)
      s.macParm.toNat, numField .len (2 + formatB s.fcparm) 2 s.lenSid.toNat] :=
  headerPair_fine h (by split <;> decide) (by decide)

/-- A class with `HdrCommon`: with the ext bit the walk begins, without it the frame ends. -/
theorem withHeader_ends {tail : Act Unit} {s : State} {c : Prop} (h : s.headerPairOk)
    (hp : PartEnds s.headerShown c (tail.run s.headerShown)) :
    (s.ehdron = true ∧ settle ((withHeader tail).run s) =
        s.headerShown.startView 0 (BitVec.ofNat 8 (s.valueAt 1 1)) []) ∨
      Over s c (settle ((withHeader tail).run s)) := by
  cases he : s.ehdron with
  | true =>
    refine .inl ⟨rfl, ?_⟩
    rw [withHeader_walk he (by have := h.1; omega)]
    rfl
  | false =>
    refine .inr (.records (headerShown_fine h) ?_)
    rw [withHeader, act_bind_ok (headerFields_run s), act_get_bind,
      if_neg (show ¬ s.headerShown.ehdron = true by simpa [State.headerShown] using he)]
    exact hp.isOver

theorem fixedHeader_over {P : Config.Params} {id1 id2 : FieldId} {s : State} {c : Prop} (h : s.headerPairOk)
    (h1 : id1 ≠ .ehVal ∧ id1 ≠ .encDa ∧ id1 ≠ .encSa ∧ id1 ≠ .hcs ∧ id1 ≠ .fragFcs)
    (h2 : id2 ≠ .ehVal ∧ id2 ≠ .encDa ∧ id2 ≠ .encSa ∧ id2 ≠ .hcs ∧ id2 ≠ .fragFcs) :
    Over s c (settle ((fixedHeader P id1 id2).run s)) := by
  refine .records (headerPair_fine h h1 h2) ?_
  rw [fixedHeader, act_get_bind, emitField_bind, emitField_bind, addRecord_addRecord]
  exact (hcsCheck_part ..).isOver

theorem endFrame_over (s : State) (c : Prop) : Over s c (settle (endFrame.run s)) :=
  ⟨[], s.proceed, s.fragmented, s.mem.store, .inl (by rw [partly_self]; rfl), .nil .., .inl rfl⟩

/-- How a frame class ends. -/
inductive ClassEnds (i : Instr) (s : State) : State → Prop
  /-- A header field is not captured; `m` is the MAC-parameter, where it was read. -/
  | cut (m : Word16) (o : Nat) : ClassEnds i s
      ((((s.setFc (fcType (opcode i)) (fcParm (opcode i)) (fcEhdron (opcode i))).withRecords
        (fcRecords (fcType (opcode i)) (fcParm (opcode i)) (fcEhdron (opcode i)))).setMacParm m).takeFault o)
  /-- The walk of the extended header begins. -/
  | walk : s.fieldsCaptured (fcParm (opcode i)) → fcEhdron (opcode i) = true → hasWalk i = true →
      ClassEnds i s ((classStart i s).headerShown.startView 0 (BitVec.ofNat 8 (s.valueAt 1 1)) [])
  /-- The frame ends. -/
  | ends (v : State) : s.fieldsCaptured (fcParm (opcode i)) →
      Over (classStart i s) (entersFragment i = true) v → ClassEnds i s v

theorem prologue_cut {t : BitVec 2} {p : BitVec 5} {e : Bool} {s : State} (h : ¬ s.fieldsCaptured p) :
    ∃ m o, (prologue t p e).run s =
      .error o (((s.setFc t p e).withRecords (fcRecords t p e)).setMacParm m) := by
  rw [prologue_fault h]
  split
  · exact ⟨s.macParm, 1, rfl⟩
  · exact ⟨_, _, rfl⟩

/-- The own part of a class that walks, or of one that does not. -/
theorem afterPrologue_ends {i : Instr} {s : State} (P : Config.Params)
    (h : s.fieldsCaptured (fcParm (opcode i))) :
    ClassEnds i s (settle ((afterPrologue P i).run
      (s.prologueDone (fcType (opcode i)) (fcParm (opcode i)) (fcEhdron (opcode i))))) := by
  have hk : (classStart i s).headerPairOk := classStart_headerPairOk h
  have walks : ∀ tail, hasWalk i = true →
      (∀ u, PartEnds u (entersFragment i = true) (tail.run u)) →
      ClassEnds i s (settle ((withHeader tail).run (classStart i s))) := by
    intro tail hw hp
    rcases withHeader_ends hk (hp _) with ⟨he, hx⟩ | hx
    · rw [hx]
      exact .walk h he hw
    · exact .ends _ h hx
  cases i with
  | pkt | iso => exact walks _ rfl fun u => ethernetTail_part P u _
  | timing | mgmt => exact walks _ rfl fun u => managementTail_part P u _
  | rsvd => exact walks _ rfl fun u => rawTail_part P u _
  | frag => exact walks _ rfl fun u => tailFrag_part P u _ rfl
  | rqst | qdr | concat => exact .ends _ h (fixedHeader_over hk (by decide) (by decide))
  | _ => exact .ends _ h (endFrame_over _ _)

theorem exec_class_ends {i : Instr} (hi : i.space = .frame) (s : State) :
    ∃ t, exec i s = .next t ∧ ClassEnds i s t := by
  rw [exec_class hi]
  by_cases h : s.fieldsCaptured (fcParm (opcode i))
  · refine ⟨_, rfl, ?_⟩
    rw [act_bind_ok (show (prologueOf (opcode i)).run s = _ from prologue_ok h)]
    exact afterPrologue_ends _ h
  · obtain ⟨m, o, hm⟩ := prologue_cut (t := fcType (opcode i)) (e := fcEhdron (opcode i)) h
    exact ⟨_, runAct_error (act_bind_error hm), .cut m o⟩

/-- A store that a part may leave differs in the group of `frag_sid` alone. -/
theorem storeEnds_slot {s : State} {st : Store} (h : StoreEnds s st) {sid : Sid} (hs : sid ≠ s.fragSid)
    (seq : Seq4) : Store.slot st sid seq = Store.slot s.mem.store sid seq := by
  rcases h with rfl | ⟨-, data, rfl⟩
  · rfl
  · exact slot_addFragment_other hs ..

theorem Adds.trans {P : Prop} {s t u : State} (h : Adds P s t) (h' : Adds P t u) : Adds P s u where
  frame := h'.frame.trans h.frame
  status := h'.status.trans h.status
  out := by
    obtain ⟨rs, ho, hf⟩ := h.out
    obtain ⟨rs', ho', hf'⟩ := h'.out
    rw [show t.caplen = s.caplen from congrArg List.length h.frame] at hf'
    exact ⟨rs ++ rs', by rw [ho', ho, List.append_assoc], hf.append hf'⟩

theorem Finished.out {u v : State} (h : Finished u v) : ∃ rs, v.out = u.out ++ rs := by
  rcases h with rfl | ⟨o, rfl⟩
  · exact ⟨[], (List.append_nil _).symm⟩
  · exact ⟨[.event .faultBounds o], rfl⟩

theorem Over.adds {s v : State} {c : Prop} (h : Over s c v) :
    ∃ u, Finished u v ∧ Adds s.lengthsOk s u := by
  obtain ⟨rs, pr, fr, st, hv, hf, -⟩ := h
  exact ⟨_, hv, rfl, rfl, rs, rfl, hf⟩

/-- The records of a class: those of a begun walk, or those before the end of the frame. -/
theorem ClassEnds.adds {i : Instr} {s t : State} (h : ClassEnds i s t) :
    Adds (0 < s.caplen) s t ∨ ∃ u, Finished u t ∧ Adds (0 < s.caplen) s u := by
  have hs := classStart_adds i s
  cases h with
  | cut m o => exact .inr ⟨_, .inr ⟨o, rfl⟩, rfl, rfl, _, rfl, fcRecords_fine ..⟩
  | walk hc =>
    exact .inl (hs.trans ⟨rfl, rfl, _, rfl, headerShown_fine (classStart_headerPairOk hc)⟩)
  | ends _ hc hv =>
    obtain ⟨u, hf, ha⟩ := hv.adds
    exact .inr ⟨u, hf, hs.trans (ha.mono fun _ => classStart_lengthsOk i s)⟩

/-- Settles O24, by the three ways a class ends (`ClassEnds`). -/
theorem classFrame : Obligations.ClassFrame := by
  unfold Obligations.ClassFrame
  intro i s t hi ht
  obtain ⟨t', hx, he⟩ := exec_class_ends hi s
  rw [hx] at ht
  injection ht with ht
  subst ht
  have hfc : fcByte (fcType (opcode i)) (fcParm (opcode i)) (fcEhdron (opcode i)) = opcode i := fcByte_split _
  have hout : ∃ rs, t'.out = s.out ++ rs := by
    rcases he.adds with ha | ⟨u, hf, ha⟩
    · obtain ⟨rs, ho, -⟩ := ha.out
      exact ⟨rs, ho⟩
    · obtain ⟨rs, ho, -⟩ := ha.out
      obtain ⟨rs', ho'⟩ := hf.out
      exact ⟨rs ++ rs', by rw [ho', ho, List.append_assoc]⟩
  have hsaved : (∀ e, i ≠ .frag e) → entersFragment i = false ∧
      (classStart i s).savedFragmented = s.savedFragmented := by
    intro h
    cases i with
    | frag e => exact absurd rfl (h e)
    | _ => exact ⟨rfl, rfl⟩
  cases he with
  | cut m o =>
    exact ⟨rfl, rfl, rfl, rfl, rfl, rfl, rfl, rfl, rfl, hfc, hout, fun _ => ⟨rfl, rfl⟩, fun _ _ _ => rfl⟩
  | walk hc hw =>
    exact ⟨rfl, rfl, rfl, rfl, rfl, rfl, rfl, rfl, rfl, hfc, hout, fun h => ⟨rfl, (hsaved h).2⟩,
      fun _ _ _ => rfl⟩
  | ends v hc hv =>
    obtain ⟨rs, pr, fr, st, hf, -, hs⟩ := hv
    have hst : (∀ e, i ≠ .frag e) → st = s.mem.store := fun h =>
      hs.elim id fun hs => by simp [(hsaved h).1] at hs
    have hslot : ∀ sid seq, sid ≠ s.fragSid → Store.slot st sid seq = Store.slot s.mem.store sid seq :=
      fun sid seq hne => hs.elim (fun hs => hs ▸ rfl) fun hs => storeEnds_slot hs.2 hne seq
    rcases hf with rfl | ⟨o, rfl⟩
    all_goals
      exact ⟨rfl, rfl, rfl, rfl, rfl, rfl, rfl, rfl, rfl, hfc, hout, fun h => ⟨hst h, (hsaved h).2⟩, hslot⟩

end Sys2Proof.Machine
end

section
/-! The whole step: everything it can do, said once (`step_next`), and from it the invariants. -/

namespace Sys2Proof.Machine

/-! ## The fetch -/

theorem decodeFcFields_space (t : BitVec 2) (p : BitVec 5) (e : Bool) :
    (decodeFcFields t p e).space = .frame := by
  simp only [decodeFcFields, decodeMacspc]
  split_ifs <;> rfl

theorem decodeHeadFields_space (type len : BitVec 4) : (decodeHeadFields type len).space = .element := by
  rw [decodeHeadFields]
  split <;> rfl

/-- A fetch that answers an instruction has read a captured byte, and the instruction is of its space. -/
theorem fetchAt_ok {sp : Space} {s : State} {o : Nat} {i : Instr} (h : fetchAt sp s o = .ok i) :
    o < s.caplen ∧ i.space = sp := by
  rw [fetchAt] at h
  cases hd : s.mem.frame.drop o with
  | nil => rw [hd] at h; cases h
  | cons b rest =>
    refine ⟨?_, ?_⟩
    · by_contra hc
      rw [List.drop_eq_nil_of_le (Nat.le_of_not_lt hc)] at hd
      cases hd
    · rw [hd] at h
      cases sp with
      | frame => injection h with h; exact h ▸ decodeFcFields_space ..
      | element => injection h with h; exact h ▸ decodeHeadFields_space ..

/-! ## Everything a step does -/

/-- What a step of the idle block leaves: a frame just begun, a reset block, or the outputs as they
were. -/
inductive HostEnds (s : State) : State → Prop
  | begun (u : State) (frame : List Byte) : HostEnds s (u.beginFrame frame)
  | cleared (t : State) : t.phase = .idle → t.out = [] → t.status = none → t.fragmented = false →
      HostEnds s t
  | held (t : State) : t.phase = .idle → t.out = s.out → t.status = s.status → t.mem = s.mem →
      t.fragmented = s.fragmented → HostEnds s t

theorem hostStep_ends {s : State} (hp : s.phase = .idle) : HostEnds s s.hostStep := by
  rw [State.hostStep]
  split
  · exact .held s hp rfl rfl rfl rfl
  · rename_i op rest _
    cases op with
    | reset | sessionReset => exact .cleared _ rfl rfl rfl rfl
    | cfgWrite | cfgRead => exact .held _ hp rfl rfl rfl rfl
    | frameIn frame => exact .begun _ frame

/-- How a step ends. -/
inductive StepEnds (s : State) : State → Prop
  /-- The idle block begins a host operation, or holds. -/
  | host (t : State) : s.phase = .idle → HostEnds s t → StepEnds s t
  /-- A class begins its walk. -/
  | begins (i : Instr) : s.phase = .fetch → s.fieldsCaptured (fcParm (opcode i)) →
      fcEhdron (opcode i) = true → hasWalk i = true →
      StepEnds s ((classStart i s).headerShown.startView 0 (BitVec.ofNat 8 (s.valueAt 1 1)) [])
  /-- The walk goes on, or is over. -/
  | goesOn (t : State) (enc scr : Bool) : s.phase = .walk → ElementKeeps enc scr s t → Adds True s t →
      t.fragmented = s.fragmented → t.phase = .walk ∨ t.phase = .tail → StepEnds s t
  /-- The frame ends, behind the records of `u`. -/
  | ends (u t : State) : s.phase ≠ .idle → Adds s.headerOk s u → Finished u t → StepEnds s t

theorem adds_self (P : Prop) (s : State) : Adds P s s := ⟨rfl, rfl, [], (List.append_nil _).symm, .nil ..⟩

/-- The records of a class up to its walk. -/
theorem begins_adds {i : Instr} {s : State} (hc : s.fieldsCaptured (fcParm (opcode i))) (n : Byte) :
    Adds True s ((classStart i s).headerShown.startView 0 n []) := by
  have hcap : 0 < s.caplen := by have := fieldsCaptured_format hc; omega
  exact ((classStart_adds i s).mono fun _ => hcap).trans
    ⟨rfl, rfl, _, rfl, headerShown_fine (classStart_headerPairOk hc)⟩

/-- A class begins with its FC byte captured. -/
theorem class_step {i : Instr} {s t : State} (hp : s.phase = .fetch) (hc : 0 < s.caplen)
    (h : ClassEnds i s t) : StepEnds s t := by
  have hn : s.phase ≠ .idle := by rw [hp]; decide
  have hadd := (classStart_adds i s).mono fun (_ : s.headerOk) => hc
  cases h with
  | cut m o =>
    refine .ends (State.setMacParm _ m) _ hn ?_ (.inr ⟨o, rfl⟩)
    exact ⟨rfl, rfl, _, rfl, (fcRecords_fine ..).mono fun _ => hc⟩
  | walk hcap he hw => exact .begins i hp hcap he hw
  | ends v hcap hv =>
    obtain ⟨u, hf, hu⟩ := hv.adds
    exact .ends u t hn (hadd.trans (hu.mono fun _ => classStart_lengthsOk i s)) hf

/-- An element begins with its head byte captured. -/
theorem element_step {type len : BitVec 4} {enc scr : Bool} {s t : State} (hp : s.phase = .walk)
    (hc : s.headAt < s.caplen) (h : ElementEnds s type len enc scr t) : StepEnds s t := by
  obtain ⟨hk, ⟨ha, hf, hph⟩ | ⟨u, o, rfl, ha⟩⟩ := h.keeps
  · refine .goesOn t enc scr hp hk (ha.mono fun _ => hc) hf ?_
    rcases hph with h | h
    · exact .inl (h.trans hp)
    · exact h
  · exact .ends u _ (by rw [hp]; decide) (ha.mono fun _ => hc) (.inr ⟨o, rfl⟩)

theorem leave_step {s : State} (hp : s.phase = .walk) : StepEnds s s.leaveView := by
  have hk : ElementKeeps false false s s := { (ArmKeeps.chain 0 false false).refl s with }
  obtain ⟨v, cs, ph, e, hph⟩ := leaveView_eq s
  refine .goesOn _ false false hp hk.leaveView (adds_self _ s).leaveView (leaveView_unended s).2 ?_
  rw [e]
  exact hph.imp_left fun h => h.trans hp

/-- The header registers in order are in order for the records made of them. -/
theorem lengthsOk_of_headerOk {s : State} (hf : s.inFrame) (h : s.headerOk) : s.lengthsOk := by
  obtain ⟨-, -, hh, hl, -⟩ := h hf
  refine ⟨?_, hl⟩
  rw [hh]
  split <;> omega

theorem tail_step {s : State} (hp : s.phase = .tail) : StepEnds s s.finishFrame := by
  obtain ⟨u, hf, ha⟩ := (classTail_part defaultParams s).isOver.adds
  exact .ends u _ (by rw [hp]; decide) (ha.mono (lengthsOk_of_headerOk (.inr hp))) hf

theorem step_next (s : State) : ∃ t, step s = .next t ∧ StepEnds s t := by
  rw [step]
  cases hp : s.phase with
  | idle => exact ⟨_, rfl, .host _ hp (hostStep_ends hp)⟩
  | fetch =>
    dsimp only
    cases hi : fetchFrame s with
    | ok i =>
      obtain ⟨hc, hs⟩ := fetchAt_ok hi
      obtain ⟨t, hx, ht⟩ := exec_class_ends hs s
      exact ⟨t, hx, class_step hp hc ht⟩
    | error o => exact ⟨_, rfl, .ends s _ (by rw [hp]; decide) (adds_self ..) (.inr ⟨o, rfl⟩)⟩
  | walk =>
    dsimp only
    split
    · cases hi : fetchElement s with
      | ok i =>
        obtain ⟨hc, hs⟩ := fetchAt_ok hi
        obtain ⟨t, hx, ht⟩ := elementBody_ends i s hs
        exact ⟨t, (exec_element hs s).trans hx, element_step hp hc ht⟩
      | error o => exact ⟨_, rfl, .ends s _ (by rw [hp]; decide) (adds_self ..) (.inr ⟨o, rfl⟩)⟩
    · exact ⟨_, rfl, leave_step hp⟩
  | tail => exact ⟨_, rfl, tail_step hp⟩

theorem step_ends {s t : State} (h : step s = .next t) : StepEnds s t := by
  obtain ⟨t', hx, ht⟩ := step_next s
  rw [hx] at h
  injection h with h
  exact h ▸ ht

/-! ## After a frame -/

theorem Finished.idle {u v : State} (h : Finished u v) : v.phase = .idle := by
  rcases h with rfl | ⟨o, rfl⟩ <;> rfl

theorem Finished.fragmented {u v : State} (h : Finished u v) : v.fragmented = false := by
  rcases h with rfl | ⟨o, rfl⟩ <;> rfl

theorem not_inFrame_of_idle {s : State} (h : s.phase = .idle) : ¬ s.inFrame := by
  rintro (h' | h') <;> rw [h] at h' <;> cases h'

theorem not_inFrame_of_fetch {s : State} (h : s.phase = .fetch) : ¬ s.inFrame := by
  rintro (h' | h') <;> rw [h] at h' <;> cases h'

theorem HostEnds.not_inFrame {s t : State} (h : HostEnds s t) : ¬ t.inFrame := by
  cases h with
  | begun u frame => exact not_inFrame_of_fetch rfl
  | cleared _ hp | held _ hp => exact not_inFrame_of_idle hp

/-! ## The header registers -/

/-- The MAC-parameter is as wide as its format (R22). -/
theorem macParm_bound (s : State) (p : BitVec 5) :
    s.valueAt 1 (1 + if p = 4 then 1 else 0) < 65536 ∧
      (p ≠ 4 → s.valueAt 1 (1 + if p = 4 then 1 else 0) < 256) := by
  have h1 := valueAt_one_lt s 1
  have h2 := valueAt_two_lt s 1
  split
  · exact ⟨h2, fun h => absurd ‹p = 4› h⟩
  · exact ⟨Nat.lt_trans h1 (by decide), fun _ => h1⟩

/-- The declared length lies in its range (R24, `70_reset_and_hazards.md` R366). -/
theorem declared_range {len mac : Nat} (hl : len < 65536) (c : Prop) [Decidable c] :
    max (if c then 0 else (len : Int) - (mac + 2)) 0 ≤ 65533 ∧
      (c → max (if c then 0 else (len : Int) - (mac + 2)) 0 = 0) := by
  split
  · exact ⟨by omega, fun _ => rfl⟩
  · exact ⟨by omega, fun h => absurd h ‹¬ c›⟩

/-- The header registers at the start of a walk (R21 to R24). -/
theorem begins_headerOk {i : Instr} {s : State} (he : fcEhdron (opcode i) = true) (n : Byte) :
    ((classStart i s).headerShown.startView 0 n []).headerOk := by
  intro _
  obtain ⟨hm, hm4⟩ := macParm_bound s (fcParm (opcode i))
  obtain ⟨hd, hd0⟩ := declared_range (mac := s.valueAt 1 (1 + if fcParm (opcode i) = 4 then 1 else 0))
    (valueAt_two_lt s (2 + if fcParm (opcode i) = 4 then 1 else 0))
    (fcParm (opcode i) = 2 ∨ fcParm (opcode i) = 4)
  have hmac : ((classStart i s).headerShown.startView 0 n []).macParm.toNat =
      s.valueAt 1 (1 + if fcParm (opcode i) = 4 then 1 else 0) := Nat.mod_eq_of_lt hm
  refine ⟨he, congrArg (fun e => fcType (opcode i) ++ fcParm (opcode i) ++ BitVec.ofBool e) he, ?_, rfl,
    fun h4 => ?_, Int.le_max_right .., hd, hd0⟩
  · rw [hmac]
    simp only [classStart, State.prologueDone, State.headerShown, State.startView_hdrlen,
      State.startView_fcparm, he, if_true]
    split <;> rfl
  · rw [hmac]
    exact Nat.le_of_lt_succ (hm4 h4)

theorem headerOk_step {s t : State} (h : s.headerOk) (ht : StepEnds s t) : t.headerOk := by
  cases ht with
  | host t hp he => exact fun hf => absurd hf he.not_inFrame
  | begins i hp hc he hw => exact begins_headerOk he _
  | goesOn t enc scr hp hk ha hf hph =>
    intro _
    have hs := h (.inl hp)
    rwa [State.caplen, hk.ehdron, hk.fc, hk.fctype, hk.fcparm, hk.hdrlen, hk.macParm, hk.payloadLength,
      hk.pdulen, hk.mem]
  | ends u t hp ha hf => exact fun h' => absurd h' (not_inFrame_of_idle hf.idle)

/-- Settles O52, by the ends of a step. -/
theorem headerRegistersKept : Obligations.HeaderRegistersKept := fun _ _ h ht =>
  headerOk_step h (step_ends ht)

/-! ## Fragment context -/

/-- A class that walks is the Fragmentation-Header frame exactly when it enters fragment context. -/
theorem entersFragment_iff {i : Instr} (hw : hasWalk i = true) :
    entersFragment i = true ↔ fcType (opcode i) = 3 ∧ fcParm (opcode i) = 3 := by
  have hb := Laws.DecodeEncode.fcByte_fields
  cases i with
  | pkt | rsvd | iso | timing | mgmt | frag =>
    simp only [opcode, hb, entersFragment]
    decide +revert
  | _ => cases hw

theorem fragContextOk_of_ended {t : State} (hn : ¬ t.inFrame) (hf : t.fragmented = false) :
    t.fragContextOk :=
  ⟨fun h => absurd (hf.symm.trans h) (by decide), fun h => absurd h hn⟩

/-- Outside a frame the flag is 0. -/
theorem fragmented_of_not_inFrame {s : State} (h : s.fragContextOk) (hn : ¬ s.inFrame) :
    s.fragmented = false := by
  by_contra hf
  exact hn (h.1 (by simpa using hf)).1

/-- Settles O53, by the ends of a step. -/
theorem fragContextKept : Obligations.FragContextKept := by
  unfold Obligations.FragContextKept
  intro s t h ht
  cases step_ends ht with
  | host t hp he =>
    have hs := fragmented_of_not_inFrame h (not_inFrame_of_idle hp)
    refine fragContextOk_of_ended he.not_inFrame ?_
    cases he with
    | begun => rfl
    | cleared _ _ _ _ hf => exact hf
    | held _ _ _ _ _ hf => exact hf.trans hs
  | begins i hp hc he hw =>
    have hs := fragmented_of_not_inFrame h (not_inFrame_of_fetch hp)
    have hi := entersFragment_iff hw
    refine ⟨fun hf => ⟨.inl rfl, hi.1 ?_⟩, fun _ hf => ⟨?_, ?_⟩⟩
    · simpa [classStart, State.headerShown, hs] using hf
    · simp [classStart, State.headerShown, hi.2 hf]
    · simp [classStart, State.headerShown, hi.2 hf, hs]
  | goesOn t enc scr hp hk ha hf hph =>
    have hi : t.isFrag ↔ s.isFrag := by rw [State.isFrag, State.isFrag, hk.fctype, hk.fcparm]
    rw [State.fragContextOk, hf, hk.savedFragmented, hi]
    exact ⟨fun hs => ⟨hph, (h.1 hs).2⟩, fun _ => h.2 (.inl hp)⟩
  | ends u t hp ha hf => exact fragContextOk_of_ended (not_inFrame_of_idle hf.idle) hf.fragmented

/-! ## Status and fault report -/

/-- Nothing has faulted: the status is DONE and no fault report stands in the stream. -/
def State.unfaulted (s : State) : Prop := s.status = some .done ∧ ∀ o, Record.event .faultBounds o ∉ s.out

theorem unfaulted_of_busy {s : State} (h : s.statusOk) (hp : s.phase ≠ .idle) : s.unfaulted := by
  refine ⟨h.1 hp, fun o ho => ?_⟩
  have := (h.1 hp).symm.trans (h.2.1 o ho)
  cases this

theorem Adds.unfaulted {P : Prop} {s t : State} (h : Adds P s t) (hs : s.unfaulted) : t.unfaulted := by
  obtain ⟨rs, ho, hf⟩ := h.out
  refine ⟨h.status.trans hs.1, fun o hm => ?_⟩
  rw [ho] at hm
  exact (List.mem_append.1 hm).elim (hs.2 o) fun hm => hf.noFault _ hm o rfl

theorem statusOk_of_unfaulted {s : State} (h : s.unfaulted) : s.statusOk :=
  ⟨fun _ => h.1, fun o ho => absurd ho (h.2 o), fun hf => absurd (h.1.symm.trans hf) (by decide)⟩

theorem Finished.statusOk {u t : State} (h : Finished u t) (hu : u.unfaulted) : t.statusOk := by
  rcases h with rfl | ⟨o, rfl⟩
  · exact statusOk_of_unfaulted hu
  · exact ⟨fun h => absurd rfl h, fun _ _ => rfl, fun _ => ⟨u.out, o, rfl, hu.2⟩⟩

/-- Settles O55, by the ends of a step. -/
theorem statusKept : Obligations.StatusKept := by
  unfold Obligations.StatusKept
  intro s t h ht
  cases step_ends ht with
  | host t hp he =>
    cases he with
    | begun u frame => exact statusOk_of_unfaulted ⟨rfl, fun _ => List.not_mem_nil⟩
    | cleared t hi ho hs =>
      rw [State.statusOk, ho, hs]
      exact ⟨fun hn => absurd hi hn, fun _ hm => absurd hm List.not_mem_nil, fun hf => (by cases hf)⟩
    | held t hi ho hs =>
      rw [State.statusOk, ho, hs]
      exact ⟨fun hn => absurd hi hn, h.2⟩
  | begins i hp hc he hw =>
    have hs := unfaulted_of_busy h (by rw [hp]; decide)
    exact statusOk_of_unfaulted ((begins_adds hc _).unfaulted hs)
  | goesOn t enc scr hp hk ha =>
    exact statusOk_of_unfaulted (ha.unfaulted (unfaulted_of_busy h (by rw [hp]; decide)))
  | ends u t hp ha hf => exact hf.statusOk (ha.unfaulted (unfaulted_of_busy h hp))

/-! ## Records -/

/-- The records of the frame are in order. -/
def State.streamOk (s : State) : Prop :=
  (∀ r ∈ s.out, recordOk s.caplen r) ∧ addressesOk s.caplen none s.out

theorem Adds.streamOk {P : Prop} {s t : State} (h : Adds P s t) (hp : P) (hs : s.streamOk) : t.streamOk := by
  obtain ⟨rs, ho, hf⟩ := h.out
  rw [State.streamOk, ho, State.caplen, h.frame]
  exact ⟨fun r hr => (List.mem_append.1 hr).elim (hs.1 r) (hf.ok hp r),
    addressesOk_append hs.2 (hf.addresses hp)⟩

theorem Finished.streamOk {u t : State} (h : Finished u t) (hu : u.streamOk) : t.streamOk := by
  rcases h with rfl | ⟨o, rfl⟩
  · exact hu
  · refine ⟨fun r hr => (List.mem_append.1 hr).elim (hu.1 r) fun hr => ?_,
      addressesOk_append hu.2 fun _ => trivial⟩
    rw [List.mem_singleton.1 hr]
    trivial

theorem streamOk_of_nil {s : State} (h : s.out = []) : s.streamOk := by
  rw [State.streamOk, h]
  exact ⟨fun _ hr => absurd hr List.not_mem_nil, trivial⟩

/-- Settles O54: the header registers are kept in order (`headerOk_step`), and with them in order a step
adds records in order (`Adds`). -/
theorem recordsKept : Obligations.RecordsKept := by
  unfold Obligations.RecordsKept
  rintro s t ⟨hh, hs⟩ ht
  have he := step_ends ht
  refine ⟨headerOk_step hh he, show t.streamOk from ?_⟩
  have hs : s.streamOk := hs
  cases he with
  | host t hp he =>
    cases he with
    | begun u frame => exact streamOk_of_nil rfl
    | cleared t _ ho => exact streamOk_of_nil ho
    | held t _ ho _ hm =>
      rw [State.streamOk, ho, State.caplen, hm]
      exact hs
  | begins i hp hc he hw => exact (begins_adds hc _).streamOk trivial hs
  | goesOn t enc scr hp hk ha => exact ha.streamOk trivial hs
  | ends u t hp ha hf => exact hf.streamOk (ha.streamOk hh hs)

/-! ## Reset -/

/-- Settles O11: each value stands in `State.reset`. -/
theorem resetState : Obligations.ResetState :=
  ⟨rfl, fun _ _ => at_nil _, rfl, rfl, rfl, rfl, rfl, rfl, rfl, rfl, rfl⟩

/-- Settles O56: no frame is in progress, nothing is stored and nothing has been emitted. -/
theorem resetMeetsInvariants : Obligations.ResetMeetsInvariants := by
  have hn : ¬ State.reset.inFrame := not_inFrame_of_idle rfl
  have hh : State.reset.headerOk := fun h => absurd h hn
  refine ⟨reset_canonical, ⟨fun h => (by cases h), fun _ => rfl⟩, hh, fragContextOk_of_ended hn rfl,
    ⟨hh, streamOk_of_nil rfl⟩, fun h => absurd rfl h, fun _ ho => absurd ho List.not_mem_nil,
    fun h => (by cases h)⟩

end Sys2Proof.Machine
end

section
/-! Dead registers cannot be observed. What a state's phase leaves live is a view of the state; each
piece of the frame procedure commutes with erasing the registers it does not read, so a step from a state
and a step from its live part lead to states with the same live part. -/

namespace Sys2Proof.Machine

/-! ## The live part of a state, phase by phase -/

/-- The scratch registers erased unless `frag_valid` says that they were loaded (`10_state.md` R34 to
R36). -/
def State.dropScratch (s : State) : State :=
  { s with
    fragFlags := if s.fragValid then s.fragFlags else 0
    fragSeq := if s.fragValid then s.fragSeq else 0
    fragSid := if s.fragValid then s.fragSid else 0 }

/-- What is live between frames: the store, the configuration, the outputs and the host's queue. -/
def State.idleView (s : State) : State :=
  { State.reset with
    mem := { frame := [], store := s.mem.store }
    cfg := s.cfg
    out := s.out
    status := s.status
    cfgReadValue := s.cfgReadValue
    phase := s.phase
    pending := s.pending }

/-- What is live before the FC byte is fetched. -/
def State.fetchView (s : State) : State := s.dropScratch.eraseViews.eraseHeader

/-- What is live in a walk. -/
def State.walkView (s : State) : State :=
  { s.dropScratch with
    proceed := false
    savedFragmented := if s.fctype = 3 ∧ s.fcparm = 3 then s.savedFragmented else false }

theorem dropScratch_eq (s : State) : (if s.fragValid then s else s.eraseScratch) = s.dropScratch := by
  split
  · simp only [State.dropScratch, if_pos ‹s.fragValid = true›]
  · simp only [State.dropScratch, State.eraseScratch, if_neg ‹¬ s.fragValid = true›]

theorem live_idle {s : State} (h : s.phase = .idle) : s.live = s.idleView := by
  simp only [State.live, h]
  rfl

theorem live_fetch {s : State} (h : s.phase = .fetch) : s.live = s.fetchView := by
  simp only [State.live, h, State.fetchView, ← dropScratch_eq s]
  split <;> rfl

theorem live_walk {s : State} (h : s.phase = .walk) : s.live = s.walkView := by
  simp only [State.live, h, dropScratch_eq]
  rfl

theorem live_tail {s : State} (h : s.phase = .tail) : s.live = s.walkView.eraseViews := by
  simp only [State.live, h, dropScratch_eq]
  rfl

theorem live_eq_of_idle {s t : State} (hs : s.phase = .idle) (h : s.idleView = t.idleView) :
    s.live = t.live := by
  rw [live_idle hs, live_idle (s := t) ((congrArg State.phase h).symm.trans hs), h]

theorem live_eq_of_fetch {s t : State} (hs : s.phase = .fetch) (h : s.fetchView = t.fetchView) :
    s.live = t.live := by
  rw [live_fetch hs, live_fetch (s := t) ((congrArg State.phase h).symm.trans hs), h]

theorem live_eq_of_walk {s t : State} (hs : s.phase = .walk) (h : s.walkView = t.walkView) :
    s.live = t.live := by
  rw [live_walk hs, live_walk (s := t) ((congrArg State.phase h).symm.trans hs), h]

theorem live_outputs (s : State) : s.live.out = s.out ∧ s.live.status = s.status ∧
    s.live.cfgReadValue = s.cfgReadValue ∧ s.live.phase = s.phase := by
  cases h : s.phase with
  | idle => rw [live_idle h]; exact ⟨rfl, rfl, rfl, h⟩
  | fetch => rw [live_fetch h]; exact ⟨rfl, rfl, rfl, h⟩
  | walk => rw [live_walk h]; exact ⟨rfl, rfl, rfl, h⟩
  | tail => rw [live_tail h]; exact ⟨rfl, rfl, rfl, h⟩

theorem dropScratch_dropScratch (s : State) : s.dropScratch.dropScratch = s.dropScratch := by
  simp only [State.dropScratch]
  split_ifs <;> rfl

/-- The registers dead in a walk are dead in every phase. -/
theorem live_walkView (s : State) : s.walkView.live = s.live := by
  have hw : s.walkView.walkView = s.walkView := by
    simp only [State.walkView, State.dropScratch]
    split_ifs <;> rfl
  cases hp : s.phase with
  | idle => exact live_eq_of_idle hp rfl
  | fetch =>
    rw [live_fetch hp, live_fetch (s := s.walkView) hp, State.fetchView, State.fetchView,
      ← dropScratch_dropScratch s]
    rfl
  | walk => rw [live_walk hp, live_walk (s := s.walkView) hp, hw]
  | tail => rw [live_tail hp, live_tail (s := s.walkView) hp, hw]

/-! ## Actions that commute with an erasure -/

/-- A result with its state mapped. -/
def mapState {α : Type} (E : State → State) : EStateM.Result Nat State α → EStateM.Result Nat State α
  | .ok a s => .ok a (E s)
  | .error o s => .error o (E s)

/-- To erase first and to erase afterwards is the same. -/
def Commutes {α : Type} (E : State → State) (m : Act α) : Prop := ∀ s, m.run (E s) = mapState E (m.run s)

/-- An erasure that touches neither the frame buffer nor the record stream. -/
structure Inert (E : State → State) : Prop where
  frame : ∀ s, (E s).mem.frame = s.mem.frame
  addRecord : ∀ s r, (E s).addRecord r = E (s.addRecord r)

section
variable {E : State → State} {α β : Type}

theorem commutes_pure (a : α) : Commutes E (pure a : Act α) := fun _ => rfl

theorem commutes_modify {f : State → State} (h : ∀ s, f (E s) = E (f s)) :
    Commutes E (modify f : Act Unit) := fun s => by
  rw [act_modify, act_modify, h]
  rfl

theorem commutes_bind {m : Act α} {f : α → Act β} (hm : Commutes E m) (hf : ∀ a, Commutes E (f a)) :
    Commutes E (m >>= f) := by
  intro s
  rw [act_bind, act_bind, hm s]
  cases m.run s with
  | ok a t => exact hf a t
  | error o t => rfl

/-- What follows a look at the state may depend on what the erasure keeps. -/
theorem commutes_get_bind {f : State → Act β} (hk : ∀ s, f (E s) = f s) (hf : ∀ s, Commutes E (f s)) :
    Commutes E ((get : Act State) >>= f) := fun s => by
  rw [act_get_bind, act_get_bind, hk s]
  exact hf s s

theorem commutes_ite {c : Prop} [Decidable c] {m n : Act α} (hm : Commutes E m) (hn : Commutes E n) :
    Commutes E (if c then m else n) := by
  split
  · exact hm
  · exact hn

theorem commutes_emit (hE : Inert E) (r : Record) : Commutes E (emit r) :=
  commutes_modify fun s => hE.addRecord s r

theorem commutes_memBytes (hE : Inert E) (o n : Nat) : Commutes E (memBytes o n) := by
  intro s
  rw [memBytes_run, memBytes_run, State.caplen, hE.frame]
  split <;> rfl

theorem commutes_memRead (hE : Inert E) (o n : Nat) : Commutes E (memRead o n) :=
  commutes_bind (commutes_memBytes hE o n) fun _ => commutes_pure _

theorem commutes_readField (hE : Inert E) (id : FieldId) (o n : Nat) : Commutes E (readField id o n) :=
  commutes_bind (commutes_memRead hE o n) fun _ => commutes_emit hE _

end

/-! ## Elements -/

theorem walkView_inert : Inert State.walkView := ⟨fun _ => rfl, fun _ _ => rfl⟩

theorem walkView_leaveView (s : State) : s.walkView.leaveView = s.leaveView.walkView := by
  cases h : s.callers with
  | nil => rw [leaveView_top h, leaveView_top (s := s.walkView) h]; rfl
  | cons => rw [leaveView_nested h, leaveView_nested (s := s.walkView) h]; rfl

theorem commutes_keyseqVersion (p : Nat) : Commutes State.walkView (keyseqVersion p) :=
  commutes_bind (commutes_memRead walkView_inert _ _) fun _ =>
    commutes_bind (commutes_emit walkView_inert _) fun _ => commutes_emit walkView_inert _

theorem commutes_privacyWord (id : FieldId) (p : Nat) : Commutes State.walkView (privacyWord id p) :=
  commutes_bind (commutes_memRead walkView_inert _ _) fun _ =>
    commutes_bind (commutes_emit walkView_inert _) fun _ =>
      commutes_bind (commutes_modify fun _ => rfl) fun _ =>
        commutes_bind (commutes_emit walkView_inert _) fun _ =>
          commutes_bind (commutes_emit walkView_inert _) fun _ => commutes_pure _

theorem commutes_fragmentByte (p w : Nat) : Commutes State.walkView (fragmentByte p w) :=
  commutes_bind (commutes_memRead walkView_inert _ _) fun _ =>
    commutes_bind (commutes_emit walkView_inert _) fun _ =>
      commutes_bind (commutes_emit walkView_inert _) fun _ =>
        commutes_bind (commutes_emit walkView_inert _) fun _ =>
          commutes_bind (commutes_emit walkView_inert _) fun _ => commutes_modify fun _ => rfl

theorem commutes_serviceFlow (p : Nat) (len : BitVec 4) : Commutes State.walkView (serviceFlow p len) :=
  commutes_bind (commutes_readField walkView_inert _ _ _) fun _ => commutes_ite
    (commutes_bind (commutes_memRead walkView_inert _ _) fun _ =>
      commutes_bind (commutes_emit walkView_inert _) fun _ => commutes_emit walkView_inert _)
    (commutes_pure _)

theorem commutes_dsid (p : Nat) : Commutes State.walkView (dsid p) :=
  commutes_bind (commutes_memRead walkView_inert _ _) fun _ => commutes_emit walkView_inert _

theorem commutes_opaqueValue (p : Nat) (len : BitVec 4) : Commutes State.walkView (opaqueValue p len) :=
  commutes_ite (commutes_pure _)
    (commutes_bind (commutes_memBytes walkView_inert _ _) fun _ => commutes_emit walkView_inert _)

theorem commutes_enterView (b : Nat) (cs : List View) : Commutes State.walkView (enterView b cs) :=
  commutes_bind (commutes_memRead walkView_inert _ _) fun _ => commutes_modify fun _ => rfl

theorem ownPart_commutes (i : Instr) (p : Nat) : Commutes State.walkView (ownPart i p) := by
  have hr := commutes_readField walkView_inert
  have he := commutes_emit walkView_inert
  cases i with
  | ehRequest =>
    exact commutes_ite (commutes_bind (hr _ _ _) fun _ => commutes_bind (hr _ _ _) fun _ => commutes_pure _)
      (commutes_pure _)
  | ehAckReq => exact commutes_ite (commutes_bind (hr _ _ _) fun _ => commutes_pure _) (commutes_pure _)
  | ehUpPrivacy =>
    refine commutes_bind (commutes_keyseqVersion p) fun _ => commutes_bind (commutes_privacyWord _ p) fun w =>
      commutes_bind (hr _ _ _) fun _ => commutes_get_bind (fun _ => rfl) fun _ => ?_
    exact commutes_ite (commutes_bind (commutes_fragmentByte p w) fun _ => commutes_pure _) (commutes_pure _)
  | ehDownPrivacy =>
    exact commutes_bind (commutes_keyseqVersion p) fun _ => commutes_bind (commutes_privacyWord _ p) fun _ =>
      commutes_bind (hr _ _ _) fun _ => commutes_pure _
  | ehUpPrivacy2 =>
    exact commutes_bind (commutes_keyseqVersion p) fun _ => commutes_bind (commutes_privacyWord _ p) fun _ =>
      commutes_pure _
  | ehSfPhs5 => exact commutes_bind (commutes_serviceFlow p _) fun _ => commutes_pure _
  | ehSfPhs6 =>
    exact commutes_ite
      (commutes_bind (he _) fun _ => commutes_bind (commutes_serviceFlow p _) fun _ => commutes_pure _)
      (commutes_bind (commutes_serviceFlow p _) fun _ => commutes_pure _)
  | ehDownService =>
    refine commutes_bind (commutes_memRead walkView_inert _ _) fun _ => commutes_bind (he _) fun _ => ?_
    refine commutes_ite (commutes_bind (commutes_dsid p) fun _ => commutes_pure _) ?_
    exact commutes_ite
      (commutes_bind (he _) fun _ => commutes_bind (commutes_dsid p) fun _ =>
        commutes_bind (hr _ _ _) fun _ => commutes_pure _)
      (commutes_pure _)
  | ehPathVerify =>
    exact commutes_ite (commutes_bind (hr _ _ _) fun _ => commutes_bind (hr _ _ _) fun _ => commutes_pure _)
      (commutes_pure _)
  | ehNull | ehRsvd10 | ehRsvd11 | ehRsvd12 | ehRsvd13 | ehRsvd14 =>
    exact commutes_bind (commutes_opaqueValue p _) fun _ => commutes_pure _
  | ehExtended =>
    exact commutes_get_bind (fun _ => rfl) fun _ => commutes_bind (commutes_enterView _ _) fun _ =>
      commutes_pure _
  | _ => exact commutes_pure _

theorem commutes_afterArm (p : Nat) (r : ArmEnd) : Commutes State.walkView (afterArm p r) := by
  refine commutes_get_bind (fun _ => rfl) fun s => ?_
  cases r with
  | advance => exact commutes_modify fun _ => rfl
  | nested => exact commutes_pure _
  | mismatch =>
    exact commutes_bind (commutes_emit walkView_inert _) fun _ =>
      commutes_ite (commutes_modify walkView_leaveView) (commutes_modify fun _ => rfl)

theorem elementBody_commutes (i : Instr) : Commutes State.walkView (elementBody i) := by
  refine commutes_bind (commutes_modify fun _ => rfl) fun _ => commutes_get_bind (fun _ => rfl) fun s => ?_
  refine commutes_ite ?_ ?_
  · exact commutes_bind (commutes_emit walkView_inert _) fun _ => commutes_modify walkView_leaveView
  · exact commutes_bind (commutes_emit walkView_inert _) fun _ =>
      commutes_bind (commutes_emit walkView_inert _) fun _ =>
        commutes_bind (ownPart_commutes i _) fun _ => commutes_afterArm _ _

theorem settle_mapState_walkView (r : EStateM.Result Nat State Unit) :
    (settle (mapState State.walkView r)).live = (settle r).walkView.live := by
  cases r with
  | ok a s => rfl
  | error o s => exact live_eq_of_idle rfl rfl

/-! ## The parts from `HcsCheck` on -/

/-- A part from `HcsCheck` on and the end of the frame. -/
def finish (m : Act Unit) (s : State) : State := settle ((m >>= fun _ => endFrame).run s)

theorem finish_idle (m : Act Unit) (s : State) : (finish m s).phase = .idle := (settle_endFrame m s).idle

/-- The registers erased that a part from `HcsCheck` on does not read, but for `proceed`, which it writes
first (`42_checksums.md` R231). -/
def State.tailView (s : State) : State :=
  { s.dropScratch.eraseViews with fragmented := false, savedFragmented := false }

theorem tailView_dropScratch (s : State) : s.dropScratch.tailView = s.tailView := by
  rw [State.tailView, State.tailView, dropScratch_dropScratch]

/-- A part from `HcsCheck` on sees no register that is dead behind the walk. -/
theorem tailView_walkView (s : State) :
    (s.walkView.eraseViews.setProceed false).tailView = (s.setProceed false).tailView := by
  rw [← tailView_dropScratch (s.setProceed false)]
  simp only [State.walkView, State.tailView, State.eraseViews, State.setProceed, State.dropScratch]
  rfl

theorem twoFields_tailView (s : State) (id1 id2 : FieldId) :
    ((s.twoFields id1 id2).setProceed false).tailView = (s.setProceed false).tailView.twoFields id1 id2 := by
  simp only [State.twoFields, State.withRecords, State.tailView, State.eraseViews, State.setProceed,
    State.dropScratch]
  rfl

theorem tailView_inert : Inert State.tailView := ⟨fun _ => rfl, fun _ _ => rfl⟩

theorem commutes_hcsCheck (P : Config.Params) : Commutes State.tailView (hcsCheck P) := by
  refine commutes_get_bind (fun _ => rfl) fun s => ?_
  refine commutes_bind (commutes_memRead tailView_inert _ _) fun _ =>
    commutes_bind (commutes_memBytes tailView_inert _ _) fun _ =>
      commutes_bind (commutes_emit tailView_inert _) fun _ => commutes_ite ?_ (commutes_modify fun _ => rfl)
  exact commutes_bind (commutes_emit tailView_inert _) fun _ => commutes_modify fun _ => rfl

theorem commutes_payload (c : Cont) (src : Src) (off n : Nat) (buf : List Byte) :
    Commutes State.tailView (payload c src off n buf) := by
  intro s
  rw [payload_run, payload_run]
  rfl

theorem commutes_framePayload (c : Cont) : Commutes State.tailView (framePayload c) :=
  commutes_get_bind (fun _ => rfl) fun _ => commutes_payload _ _ _ _ _

theorem commutes_ethernetTail (P : Config.Params) : Commutes State.tailView (ethernetTail P) :=
  commutes_bind (commutes_hcsCheck P) fun _ => commutes_get_bind (fun _ => rfl) fun _ =>
    commutes_ite (commutes_framePayload _) (commutes_pure _)

theorem commutes_managementTail (P : Config.Params) : Commutes State.tailView (managementTail P) :=
  commutes_bind (commutes_hcsCheck P) fun _ => commutes_get_bind (fun _ => rfl) fun _ =>
    commutes_ite (commutes_framePayload _) (commutes_pure _)

theorem commutes_rawTail (P : Config.Params) : Commutes State.tailView (tailRsvd P) :=
  commutes_bind (commutes_hcsCheck P) fun _ => commutes_get_bind (fun _ => rfl) fun _ =>
    commutes_ite (commutes_emit tailView_inert _) (commutes_pure _)

/-- With fragment information the scratch registers are live, so what follows `add_fragment` may show
them. -/
theorem afterAdd_tailView {r : AddResult} {s : State} (h : s.fragValid = true) :
    (afterAdd r).run s.tailView = mapState State.tailView ((afterAdd r).run s) := by
  rw [afterAdd_run, afterAdd_run]
  cases r <;> simp [mapState, State.tailView, State.dropScratch, State.eraseViews, h, State.withRecords,
    State.payloadRecords, State.clearFragmented]

theorem submitFragment_fault {s : State} (h : s.fragValid = true)
    (hc : s.caplen < s.hdrlen + (s.payloadLength - 4)) : submitFragment.run s = .error s.hdrlen s := by
  rw [submitFragment, act_get_bind, if_pos h, memBytes_bind_fault _ hc]

theorem commutes_submitFragment : Commutes State.tailView submitFragment := by
  intro s
  cases h : s.fragValid with
  | false => rw [submitFragment_noInfo h, submitFragment_noInfo (s := s.tailView) h]; rfl
  | true =>
    have hs : s.tailView.fragSid = s.fragSid ∧ s.tailView.fragSeq = s.fragSeq ∧
        s.tailView.fragFlags = s.fragFlags := by
      simp [State.tailView, State.dropScratch, State.eraseViews, h]
    obtain ⟨h1, h2, h3⟩ := hs
    by_cases hc : s.hdrlen + (s.payloadLength - 4) ≤ s.caplen
    · rw [submitFragment_ok h hc, submitFragment_ok (s := s.tailView) h hc, h1, h2, h3]
      exact afterAdd_tailView (s := s.setStore _) h
    · have hc := Nat.lt_of_not_le hc
      rw [submitFragment_fault h hc, submitFragment_fault (s := s.tailView) h hc]
      rfl

theorem commutes_fragFcs (P : Config.Params) (o : Nat) : Commutes State.tailView (fragFcs P o) :=
  commutes_bind (commutes_memRead tailView_inert _ _) fun _ => commutes_get_bind (fun _ => rfl) fun _ =>
    commutes_bind (commutes_memBytes tailView_inert _ _) fun _ => commutes_pure _

theorem commutes_fragBody (P : Config.Params) : Commutes State.tailView (fragBody P) := by
  have he := commutes_emit tailView_inert
  refine commutes_get_bind (fun _ => rfl) fun s => commutes_ite (he _) ?_
  exact commutes_bind (commutes_fragFcs P _) fun _ => commutes_ite
    (commutes_bind (he _) fun _ => commutes_submitFragment) (commutes_bind (he _) fun _ => he _)

theorem commutes_tailFrag (P : Config.Params) : Commutes State.tailView (tailFrag P) :=
  commutes_bind (commutes_hcsCheck P) fun _ => commutes_get_bind (fun _ => rfl) fun _ =>
    commutes_ite (commutes_bind (commutes_fragBody P) fun _ => commutes_modify fun _ => rfl)
      (commutes_modify fun _ => rfl)

/-- A part whose outcome no dead register can change. -/
def Blind (m : Act Unit) : Prop :=
  ∀ s t : State, (s.setProceed false).tailView = (t.setProceed false).tailView →
    (finish m s).live = (finish m t).live

theorem idleView_tailView (s : State) : s.tailView.idleView = s.idleView := rfl

theorem settle_mapState_tailView (r : EStateM.Result Nat State Unit) :
    (settle (mapState State.tailView r)).idleView = (settle r).idleView := by
  cases r with
  | ok a s => exact idleView_tailView s
  | error o s => exact idleView_tailView (s.takeFault o)

theorem finish_tailView {m : Act Unit} (hm : Commutes State.tailView m) (s : State) :
    (finish m s.tailView).live = (finish m s).live := by
  have he : Commutes State.tailView (m >>= fun _ => endFrame) :=
    commutes_bind hm fun _ => commutes_modify fun _ => rfl
  rw [live_idle (finish_idle m _), live_idle (finish_idle m _)]
  simp only [finish, he s, settle_mapState_tailView]

/-- `HcsCheck` writes `proceed` before anything reads it. -/
theorem hcsCheck_proceed {P : Config.Params} (k : Unit → Act Unit) (s : State) (f : Bool) :
    (finish (hcsCheck P >>= k) (s.setProceed f)).live = (finish (hcsCheck P >>= k) s).live := by
  rw [live_idle (finish_idle ..), live_idle (finish_idle ..), finish, finish, bind_assoc]
  by_cases h : s.hdrlen - 2 + 2 ≤ s.caplen
  · rw [hcs_bind _ h, hcs_bind (s := s.setProceed f) _ h]
    rfl
  · have h := Nat.lt_of_not_le h
    rw [hcs_bind_fault _ h, hcs_bind_fault (s := s.setProceed f) _ h]
    rfl

theorem blind_of_commutes {m : Act Unit} (hc : Commutes State.tailView m)
    (hp : ∀ s f, (finish m (s.setProceed f)).live = (finish m s).live) : Blind m := by
  intro s t h
  rw [← hp s false, ← hp t false, ← finish_tailView hc (s.setProceed false), h, finish_tailView hc]

theorem blind_of_hcsCheck {P : Config.Params} {m : Act Unit} (hc : Commutes State.tailView m)
    (k : Unit → Act Unit) (hm : m = hcsCheck P >>= k) : Blind m :=
  blind_of_commutes hc (hm ▸ hcsCheck_proceed k)

theorem blind_ethernetTail (P : Config.Params) : Blind (ethernetTail P) :=
  blind_of_hcsCheck (commutes_ethernetTail P) _ rfl

theorem blind_managementTail (P : Config.Params) : Blind (managementTail P) :=
  blind_of_hcsCheck (commutes_managementTail P) _ rfl

theorem blind_rawTail (P : Config.Params) : Blind (tailRsvd P) :=
  blind_of_hcsCheck (commutes_rawTail P) _ rfl

theorem blind_tailFrag (P : Config.Params) : Blind (tailFrag P) :=
  blind_of_hcsCheck (commutes_tailFrag P) _ rfl

theorem blind_hcsCheck (P : Config.Params) : Blind (hcsCheck P) :=
  blind_of_hcsCheck (commutes_hcsCheck P) (fun _ => pure ()) (bind_pure _).symm

theorem finish_pure (s : State) : finish (pure ()) s = s.endFrame := rfl

theorem blind_pure : Blind (pure ()) :=
  blind_of_commutes (commutes_pure _) fun s f => by
    rw [finish_pure, finish_pure]
    exact live_eq_of_idle rfl rfl

theorem blind_classTail (P : Config.Params) (t : BitVec 2) (p : BitVec 5) : Blind (classTail P t p) := by
  rcases classTail_cases P t p with h | h | h | ⟨-, -, h⟩ | h <;> rw [h]
  · exact blind_ethernetTail P
  · exact blind_managementTail P
  · exact blind_rawTail P
  · exact blind_tailFrag P
  · exact blind_pure

/-! ## A step from a state and from its live part -/

/-- Two outcomes are next states with the same live part. -/
def Alike (o o' : Host.Outcome State Fault Refusal) : Prop :=
  ∃ t t', o = .next t ∧ o' = .next t' ∧ t.live = t'.live

theorem alike_next {t t' : State} (h : t.live = t'.live) : Alike (.next t) (.next t') := ⟨t, t', rfl, rfl, h⟩

theorem alike_idle {s : State} (hp : s.phase = .idle) : Alike (step s.idleView) (step s) := by
  simp only [step, hp, show s.idleView.phase = .idle from hp]
  refine alike_next ?_
  rw [State.hostStep, State.hostStep, show s.idleView.pending = s.pending from rfl]
  split
  · exact live_eq_of_idle hp rfl
  · rename_i op rest _
    cases op with
    | reset | sessionReset => rfl
    | cfgWrite | cfgRead => exact live_eq_of_idle hp rfl
    | frameIn frame => exact live_eq_of_fetch rfl rfl

theorem alike_walk {s : State} (hp : s.phase = .walk) : Alike (step s.walkView) (step s) := by
  simp only [step, hp, show s.walkView.phase = .walk from hp,
    show s.walkView.walking = s.walking from rfl, show fetchElement s.walkView = fetchElement s from rfl]
  split
  · split
    · rename_i i hi
      rw [exec_element (fetchAt_ok hi).2, exec_element (fetchAt_ok hi).2, runAct, runAct,
        elementBody_commutes i s]
      exact alike_next ((settle_mapState_walkView _).trans (live_walkView _))
    · exact alike_next (live_eq_of_idle rfl rfl)
  · rw [walkView_leaveView]
    exact alike_next (live_walkView _)

theorem alike_tail {s : State} (hp : s.phase = .tail) : Alike (step s.walkView.eraseViews) (step s) := by
  simp only [step, hp, show s.walkView.eraseViews.phase = .tail from hp]
  exact alike_next (blind_classTail defaultParams s.fctype s.fcparm _ _ (tailView_walkView s))

/-! ## The frame classes -/

/-- Two states at the start of a class's own part with nothing between them that the class can show:
neither a part from `HcsCheck` on nor, for a class that walks, the walk. -/
structure SameStart (i : Instr) (s t : State) : Prop where
  tail : (s.setProceed false).tailView = (t.setProceed false).tailView
  walk : hasWalk i = true → ∀ n, (s.headerShown.startView 0 n []).walkView = (t.headerShown.startView 0 n []).walkView
  pair : s.headerPairOk ∧ t.headerPairOk

theorem settle_withHeader {m : Act Unit} {s : State} (h : s.headerPairOk) :
    settle ((withHeader m).run s) =
      if s.ehdron then s.headerShown.startView 0 (BitVec.ofNat 8 (s.valueAt 1 1)) []
      else finish m s.headerShown := by
  cases he : s.ehdron with
  | true =>
    rw [withHeader_walk he (by have := h.1; omega)]
    rfl
  | false =>
    rw [withHeader, act_bind_ok (headerFields_run s), act_get_bind,
      if_neg (show ¬ s.headerShown.ehdron = true by simpa [State.headerShown] using he)]
    rfl

theorem withHeader_alike {i : Instr} {m : Act Unit} {s t : State} (hm : Blind m) (hw : hasWalk i = true)
    (h : SameStart i s t) : (settle ((withHeader m).run s)).live = (settle ((withHeader m).run t)).live := by
  have he := congrArg State.ehdron h.tail
  replace he : s.ehdron = t.ehdron := he
  have hf := congrArg (fun u => u.mem.frame) h.tail
  rw [settle_withHeader h.pair.1, settle_withHeader h.pair.2, he, valueAt_congr (s := s) (t := t) hf]
  split
  · exact live_eq_of_walk rfl (h.walk hw _)
  · exact hm _ _ (by rw [headerShown_eq, headerShown_eq, he, twoFields_tailView, twoFields_tailView, h.tail])

theorem fixedHeader_alike {P : Config.Params} {id1 id2 : FieldId} {s t : State}
    (h : (s.setProceed false).tailView = (t.setProceed false).tailView) :
    (settle ((fixedHeader P id1 id2).run s)).live = (settle ((fixedHeader P id1 id2).run t)).live := by
  have e : ∀ u : State, settle ((fixedHeader P id1 id2).run u) = finish (hcsCheck P) (u.twoFields id1 id2) := by
    intro u
    rw [fixedHeader, act_get_bind, emitField_bind, emitField_bind, addRecord_addRecord]
    rfl
  rw [e, e]
  exact blind_hcsCheck P _ _ (by rw [twoFields_tailView, twoFields_tailView, h])

/-- At the start of a walk `saved_fragmented` is live in a fragment frame, where the class has written
it. -/
theorem walkBegun_savedFragmented {i : Instr} (hw : hasWalk i = true) (s : State) (n : Byte) :
    ((classStart i s).headerShown.startView 0 n []).walkView.savedFragmented =
      if entersFragment i then s.fragmented else false := by
  have hi := entersFragment_iff hw
  show (if fcType (opcode i) = 3 ∧ fcParm (opcode i) = 3 then
    (if entersFragment i then s.fragmented else s.savedFragmented) else false) = _
  cases he : entersFragment i with
  | true => rw [if_pos (hi.1 he)]; rfl
  | false => rw [if_neg fun h => by rw [hi.2 h] at he; cases he]; rfl

theorem walkView_eq (s : State) : s.walkView =
    { s.dropScratch.dropScratch with proceed := false, savedFragmented := s.walkView.savedFragmented } := by
  rw [dropScratch_dropScratch]
  rfl

theorem sameStart_fetchView {i : Instr} {s : State} (h : s.fieldsCaptured (fcParm (opcode i))) :
    SameStart i (classStart i s.fetchView) (classStart i s) where
  tail := by
    rw [← tailView_dropScratch ((classStart i s).setProceed false)]
    simp only [classStart, State.prologueDone, State.fetchView, State.tailView, State.eraseViews,
      State.eraseHeader, State.setProceed, State.dropScratch, State.valueAt, State.caplen]
    rfl
  walk hw n := by
    rw [walkView_eq (State.startView (classStart i s).headerShown 0 n []), walkBegun_savedFragmented hw s,
      State.walkView]
    exact congrArg (fun f => { State.dropScratch _ with proceed := false, savedFragmented := f })
      (walkBegun_savedFragmented hw s.fetchView n)
  pair := ⟨classStart_headerPairOk (s := s.fetchView) h, classStart_headerPairOk h⟩

theorem afterPrologue_alike (P : Config.Params) (i : Instr) (s : State)
    (h : s.fieldsCaptured (fcParm (opcode i))) (hi : i.space = .frame) :
    (settle ((prologueOf (opcode i) >>= fun _ => afterPrologue P i).run s.fetchView)).live =
      (settle ((prologueOf (opcode i) >>= fun _ => afterPrologue P i).run s)).live := by
  have hs := sameStart_fetchView h
  have hp : ∀ u : State, u.fieldsCaptured (fcParm (opcode i)) →
      (prologueOf (opcode i) >>= fun _ => afterPrologue P i).run u = (afterPrologue P i).run
        (u.prologueDone (fcType (opcode i)) (fcParm (opcode i)) (fcEhdron (opcode i))) := fun u hu =>
    act_bind_ok (prologue_ok hu)
  rw [hp s h, hp s.fetchView h]
  cases i with
  | pkt | iso => exact withHeader_alike (blind_ethernetTail P) rfl hs
  | timing | mgmt => exact withHeader_alike (blind_managementTail P) rfl hs
  | rsvd => exact withHeader_alike (blind_rawTail P) rfl hs
  | frag => exact withHeader_alike (blind_tailFrag P) rfl hs
  | rqst | qdr | concat => exact fixedHeader_alike hs.tail
  | unknown => exact blind_pure _ _ hs.tail
  | _ => cases hi

theorem prologue_fault_alike {i : Instr} {s : State} (h : ¬ s.fieldsCaptured (fcParm (opcode i))) :
    ∃ o t t', (prologueOf (opcode i)).run s.fetchView = .error o t ∧ (prologueOf (opcode i)).run s = .error o t' ∧
      t.idleView = t'.idleView := by
  have hs := prologue_fault (t := fcType (opcode i)) (e := fcEhdron (opcode i)) h
  have hv := prologue_fault (t := fcType (opcode i)) (e := fcEhdron (opcode i)) (s := s.fetchView) h
  by_cases hc : s.caplen < 2 + formatB (fcParm (opcode i))
  · rw [if_pos hc] at hs
    rw [if_pos (show s.fetchView.caplen < _ from hc)] at hv
    exact ⟨_, _, _, hv, hs, rfl⟩
  · rw [if_neg hc] at hs
    rw [if_neg (show ¬ s.fetchView.caplen < _ from hc)] at hv
    exact ⟨_, _, _, hv, hs, rfl⟩

theorem live_takeFault {s t : State} (h : s.idleView = t.idleView) (o : Nat) :
    (s.takeFault o).live = (t.takeFault o).live := by
  have e := congrArg (fun u => (State.takeFault u o).idleView) h
  exact live_eq_of_idle rfl e

theorem exec_class_alike {i : Instr} (hi : i.space = .frame) (s : State) :
    Alike (exec i s.fetchView) (exec i s) := by
  rw [exec_class hi, exec_class hi]
  by_cases h : s.fieldsCaptured (fcParm (opcode i))
  · exact alike_next (afterPrologue_alike _ i s h hi)
  · obtain ⟨o, t, t', hv, hs, he⟩ := prologue_fault_alike h
    rw [runAct_error (act_bind_error hv), runAct_error (act_bind_error hs)]
    exact alike_next (live_takeFault he o)

theorem alike_fetch {s : State} (hp : s.phase = .fetch) : Alike (step s.fetchView) (step s) := by
  simp only [step, hp, show s.fetchView.phase = .fetch from hp,
    show fetchFrame s.fetchView = fetchFrame s from rfl]
  split
  · rename_i i hi
    exact exec_class_alike (fetchAt_ok hi).2 s
  · exact alike_next (live_eq_of_idle rfl rfl)

/-! ## Runs -/

/-- A step sees of a state its live part alone. -/
theorem step_live (s : State) : Alike (step s.live) (step s) := by
  cases hp : s.phase with
  | idle => rw [live_idle hp]; exact alike_idle hp
  | fetch => rw [live_fetch hp]; exact alike_fetch hp
  | walk => rw [live_walk hp]; exact alike_walk hp
  | tail => rw [live_tail hp]; exact alike_tail hp

theorem step_alike {s t : State} (h : s.live = t.live) : Alike (step s) (step t) := by
  obtain ⟨a, s', ha, hs, has⟩ := step_live s
  obtain ⟨b, t', hb, ht, hbt⟩ := step_live t
  rw [h, hb] at ha
  injection ha with ha
  exact ⟨s', t', hs, ht, by rw [← has, ← ha, hbt]⟩

theorem run_alike (n : Nat) {s t : State} (h : s.live = t.live) : Alike (run n s) (run n t) := by
  induction n generalizing s t with
  | zero => exact alike_next h
  | succ n ih =>
    obtain ⟨s', t', hs, ht, h'⟩ := step_alike h
    rw [run, run, hs, ht]
    exact ih h'

/-- Settles O59, by induction on the number of steps: a step sees the live part alone (`step_live`), and
the outputs are live. -/
theorem deadStateUnobservable : Obligations.DeadStateUnobservable := by
  unfold Obligations.DeadStateUnobservable
  intro s t n h
  obtain ⟨s', t', hs, ht, h'⟩ := run_alike n h
  obtain ⟨ho, hst, hc, hp⟩ := live_outputs s'
  obtain ⟨ho', hst', hc', hp'⟩ := live_outputs t'
  rw [h'] at ho hst hc hp
  exact ⟨s', t', hs, ht, h', ho.symm.trans ho', hst.symm.trans hst', hc.symm.trans hc', hp.symm.trans hp'⟩

end Sys2Proof.Machine
end

section
/-! The two memories. A read of the frame buffer weighs each byte by its place (`20_memory.md` R61, R62);
the store's operations act slot by slot (R66, R67); and all a step may do to the store is to submit one
fragment or to clear it. -/

namespace Sys2Proof.Machine

/-! ## Reads of the frame buffer -/

/-- A big-endian value is the sum of its bytes, each weighed by its place (R61). -/
theorem beNat_eq_sum (l : List Byte) :
    beNat l = ∑ i ∈ Finset.range l.length, ((l[i]?).getD 0).toNat * 256 ^ (l.length - 1 - i) := by
  induction l using List.reverseRecOn with
  | nil => rfl
  | append_singleton l x ih =>
    have hterm : ∀ i ∈ Finset.range l.length,
        (((l ++ [x])[i]?).getD 0).toNat * 256 ^ (l.length - i) =
          ((l[i]?).getD 0).toNat * 256 ^ (l.length - 1 - i) * 256 := by
      intro i hi
      have hlt : i < l.length := Finset.mem_range.1 hi
      rw [List.getElem?_append_left hlt, Nat.mul_assoc, ← Nat.pow_succ,
        show l.length - i = l.length - 1 - i + 1 by omega]
    rw [beNat_append_one, List.length_append, List.length_singleton, Finset.sum_range_succ,
      Nat.add_sub_cancel, Finset.sum_congr rfl hterm, ← Finset.sum_mul, ← ih]
    simp

/-- The bytes of a slice are those of its buffer, in order (R62). -/
theorem slice_getElem? (buf : List Byte) (o : Nat) {n k : Nat} (h : k < n) :
    (slice buf o n)[k]? = buf[o + k]? := by
  rw [slice, List.getElem?_take_of_lt h, List.getElem?_drop]

/-- The value read at an offset, byte by byte of the frame (R61). -/
theorem valueAt_eq_sum {s : State} {o n : Nat} (h : o + n ≤ s.caplen) :
    s.valueAt o n =
      ∑ i ∈ Finset.range n, ((s.frameByte (o + i)).getD 0).toNat * 256 ^ (n - 1 - i) := by
  rw [State.valueAt, beNat_eq_sum, slice_length _ _ _ h]
  refine Finset.sum_congr rfl fun i hi => ?_
  rw [slice_getElem? _ _ (Finset.mem_range.1 hi), State.frameByte]

/-- Settles O13, by what the two reads do (`memRead_run`, `memBytes_run`). -/
theorem frameReads : Obligations.FrameReads := by
  unfold Obligations.FrameReads
  refine fun s o n => ⟨fun h => ⟨?_, ?_⟩, fun h => ⟨memRead_fault h, memBytes_fault h⟩⟩
  · rw [memRead_ok h, valueAt_eq_sum h]
  · exact ⟨_, memBytes_ok h, slice_length _ _ _ h, fun k hk => slice_getElem? _ _ hk⟩

/-! ## The reassembly store -/

/-- Settles O14, by what each operation does to one slot. -/
theorem storeOperations : Obligations.StoreOperations := by
  unfold Obligations.StoreOperations
  intro st sid sid' seq seq' data first
  refine ⟨?_, fun h => ?_, ?_, fun h => ?_, at_nil _⟩
  · rw [slot_write, if_pos ⟨rfl, rfl⟩]
  · rw [slot_write, if_neg (not_and_or.2 h)]
  · rw [slot_release, if_pos rfl]
  · rw [slot_release, if_neg h]

/-! ## The store after a step -/

theorem Finished.mem {u v : State} (h : Finished u v) : v.mem = u.mem := by
  rcases h with rfl | ⟨o, rfl⟩ <;> rfl

theorem Over.storeEnds {s v : State} {c : Prop} (h : Over s c v) : StoreEnds s v.mem.store := by
  obtain ⟨rs, pr, fr, st, hv, -, hs⟩ := h
  rw [hv.mem]
  exact hs.elim .inl And.right

/-- The prologue leaves the store and the scratch registers, so a class submits what `s` holds. -/
theorem ClassEnds.storeEnds {i : Instr} {s t : State} (h : ClassEnds i s t) : StoreEnds s t.mem.store := by
  cases h with
  | cut | walk => exact .inl rfl
  | ends _ _ hv => exact hv.storeEnds

/-- A host operation leaves the store, or clears it (`70_reset_and_hazards.md` R350, R351). -/
theorem hostStep_store (s : State) :
    s.hostStep.mem.store = s.mem.store ∨ s.hostStep.mem.store = Store.clearAll s.mem.store := by
  rw [State.hostStep]
  split
  · exact .inl rfl
  · rename_i op rest _
    cases op with
    | reset | sessionReset => exact .inr rfl
    | cfgWrite | cfgRead | frameIn => exact .inl rfl

/-- Everything a step can do to the store: nothing, one submission to the group of `frag_sid`, or
`ClearAll`. -/
theorem step_store {s t : State} (h : step s = .next t) :
    StoreEnds s t.mem.store ∨ t.mem.store = Store.clearAll s.mem.store := by
  rw [step] at h
  cases hp : s.phase with
  | idle =>
    rw [hp] at h
    injection h with h
    subst h
    exact (hostStep_store s).imp_left .inl
  | fetch =>
    rw [hp] at h
    dsimp only at h
    cases hi : fetchFrame s with
    | ok i =>
      obtain ⟨t', hx, he⟩ := exec_class_ends (fetchAt_ok hi).2 s
      rw [hi] at h
      replace h := hx.symm.trans h
      injection h with h
      exact .inl (h ▸ he.storeEnds)
    | error o =>
      rw [hi] at h
      injection h with h
      exact .inl (.inl (h ▸ rfl))
  | walk =>
    rw [hp] at h
    dsimp only at h
    split at h
    · cases hi : fetchElement s with
      | ok i =>
        rw [hi] at h
        have hm := (elementFrame i s t (fetchAt_ok hi).2 h).1
        exact .inl (.inl (congrArg Memory.store hm))
      | error o =>
        rw [hi] at h
        injection h with h
        exact .inl (.inl (h ▸ rfl))
    · injection h with h
      subst h
      obtain ⟨v, cs, ph, e, -⟩ := leaveView_eq s
      exact .inl (.inl (by rw [e]))
  | tail =>
    rw [hp] at h
    injection h with h
    subst h
    exact .inl (classTail_part defaultParams s).isOver.storeEnds

theorem StoreEnds.canonical {s : State} {st : Store} (h : StoreEnds s st)
    (hs : Store.canonical s.mem.store) : Store.canonical st := by
  rcases h with rfl | ⟨-, data, rfl⟩
  · exact hs
  · exact addFragment_canonical hs ..

/-- Settles O50: a submission and `ClearAll` keep the canonical form, and a step does nothing else to the
store (`step_store`). -/
theorem storeCanonicalKept : Obligations.StoreCanonicalKept := by
  unfold Obligations.StoreCanonicalKept
  intro s t hs h
  rw [wf_iff] at hs ⊢
  rcases step_store h with he | hc
  · exact he.canonical hs
  · rw [hc]
    exact clearAll_canonical _

end Sys2Proof.Machine
end

section
/-! The encoding (`30_encoding.md`): encoder and decoder are inverse to each other on the well-formed
instructions of each opcode space, and the rows of the two decode tables by mask and match. -/

namespace Sys2Proof.Machine

open Sys2Proof.Laws

/-! ## Decoding what the encoder writes -/

/-- The per-instruction laws of `DecodeEncode` put together. -/
theorem decode_encode : ∀ i : Instr, DecodeEncode.Statement i
  | .pkt p e => DecodeEncode.pkt p e
  | .rsvd p e => DecodeEncode.rsvd p e
  | .iso p e => DecodeEncode.iso p e
  | .timing e => DecodeEncode.timing e
  | .mgmt e => DecodeEncode.mgmt e
  | .rqst e => DecodeEncode.rqst e
  | .frag e => DecodeEncode.frag e
  | .qdr e => DecodeEncode.qdr e
  | .concat e => DecodeEncode.concat e
  | .unknown p e => DecodeEncode.unknown p e
  | .ehNull n => DecodeEncode.ehNull n
  | .ehRequest n => DecodeEncode.ehRequest n
  | .ehAckReq n => DecodeEncode.ehAckReq n
  | .ehUpPrivacy n => DecodeEncode.ehUpPrivacy n
  | .ehDownPrivacy n => DecodeEncode.ehDownPrivacy n
  | .ehSfPhs5 n => DecodeEncode.ehSfPhs5 n
  | .ehSfPhs6 n => DecodeEncode.ehSfPhs6 n
  | .ehUpPrivacy2 n => DecodeEncode.ehUpPrivacy2 n
  | .ehDownService n => DecodeEncode.ehDownService n
  | .ehPathVerify n => DecodeEncode.ehPathVerify n
  | .ehRsvd10 n => DecodeEncode.ehRsvd10 n
  | .ehRsvd11 n => DecodeEncode.ehRsvd11 n
  | .ehRsvd12 n => DecodeEncode.ehRsvd12 n
  | .ehRsvd13 n => DecodeEncode.ehRsvd13 n
  | .ehRsvd14 n => DecodeEncode.ehRsvd14 n
  | .ehExtended n => DecodeEncode.ehExtended n

/-- Settles O1, one law for each constructor (`decode_encode`). -/
theorem decodeEncodeAgree : Obligations.DecodeEncodeAgree := by
  unfold Obligations.DecodeEncodeAgree
  exact fun i rest hw => decode_encode i hw rest

/-- Two well-formed instructions of one space with the same encoding are the same, for the decoder
gives back both. -/
theorem encode_inj {i j : Instr} (hi : i.wellFormed = true) (hj : j.wellFormed = true)
    (hs : i.space = j.space) (h : encode i = encode j) : i = j := by
  have hdi := decode_encode i hi []
  rw [hs, h, decode_encode j hj []] at hdi
  injection hdi with hdi
  exact (congrArg Prod.fst hdi).symm

/-! ## Encoding what the decoder reads -/

/-- The FC byte is its three fields and no more (R91). -/
theorem fcByte_of_fields (b : Byte) : fcByte (fcType b) (fcParm b) (fcEhdron b) = b := by
  refine BitVec.eq_of_getLsbD_eq fun k hk => ?_
  simp only [fcByte, fcType, fcParm, fcEhdron, BitVec.getLsbD_append, BitVec.getLsbD_extractLsb',
    BitVec.getLsbD_ofBool]
  interval_cases k <;> simp

/-- The head byte is its two fields and no more (R102). -/
theorem headByte_of_fields (b : Byte) : headByte (headType b) (headLen b) = b := by
  refine BitVec.eq_of_getLsbD_eq fun k hk => ?_
  simp only [headByte, headType, headLen, BitVec.getLsbD_append, BitVec.getLsbD_extractLsb']
  interval_cases k <;> simp

/-- The class codes of R94 are all there are. -/
theorem fcType_eq_macspc {t : BitVec 2} (hp : t ≠ Config.fctypePacket) (hi : t ≠ Config.fctypeIsolat)
    (hr : t ≠ Config.fctypeReserved) : t = Config.fctypeMacspc := by
  revert t; decide

theorem opcode_decodeMacspc (p : BitVec 5) (e : Bool) :
    opcode (decodeMacspc p e) = fcByte Config.fctypeMacspc p e := by
  rw [decodeMacspc]
  split_ifs <;> simp only [opcode, *]

theorem decodeMacspc_wellFormed (p : BitVec 5) (e : Bool) : (decodeMacspc p e).wellFormed = true := by
  rw [decodeMacspc]
  split_ifs
  case neg => simp_all [Instr.wellFormed]
  all_goals rfl

theorem opcode_decodeFcFields (t : BitVec 2) (p : BitVec 5) (e : Bool) :
    opcode (decodeFcFields t p e) = fcByte t p e := by
  rw [decodeFcFields]
  split_ifs with hp hi hr
  · rw [hp]; rfl
  · rw [hi]; rfl
  · rw [hr]; rfl
  · rw [opcode_decodeMacspc, fcType_eq_macspc hp hi hr]

theorem decodeFcFields_wellFormed (t : BitVec 2) (p : BitVec 5) (e : Bool) :
    (decodeFcFields t p e).wellFormed = true := by
  rw [decodeFcFields]
  split_ifs
  case neg => exact decodeMacspc_wellFormed p e
  all_goals rfl

theorem opcode_decodeHeadFields (type len : BitVec 4) :
    opcode (decodeHeadFields type len) = headByte type len := by
  obtain ⟨k⟩ := type
  fin_cases k <;> rfl

theorem decodeHeadFields_wellFormed (type len : BitVec 4) :
    (decodeHeadFields type len).wellFormed = true := by
  rw [decodeHeadFields]
  split <;> rfl

/-- Every byte decodes, in each space, to a well-formed instruction of that space that is encoded by
that byte (R100, R114). -/
theorem decode_cons (sp : Space) (op : Byte) (rest : List Byte) :
    ∃ i, decode sp (op :: rest) = .ok (i, rest) ∧ i.space = sp ∧ i.wellFormed = true ∧
      encode i = [op] := by
  cases sp with
  | frame =>
    refine ⟨decodeFc op, rfl, decodeFcFields_space .., decodeFcFields_wellFormed .., ?_⟩
    rw [encode, decodeFc, opcode_decodeFcFields, fcByte_of_fields]
  | element =>
    refine ⟨decodeHead op, rfl, decodeHeadFields_space .., decodeHeadFields_wellFormed .., ?_⟩
    rw [encode, decodeHead, opcode_decodeHeadFields, headByte_of_fields]

/-- Settles O2: the decoder answers such an instruction (`decode_cons`), and the encoder is injective on
the well-formed ones of a space (`encode_inj`). -/
theorem everyByteIsOneInstruction : Obligations.EveryByteIsOneInstruction := by
  unfold Obligations.EveryByteIsOneInstruction
  intro sp op rest
  obtain ⟨i, hd, hs, hw, he⟩ := decode_cons sp op rest
  exact ⟨i, hd, hs, hw, he, fun j hjs hjw hje => encode_inj hjw hw (hjs.trans hs.symm) (hje.trans he.symm)⟩

/-! ## The tables by mask and match -/

theorem fcParm_eq_ofNat (b : Byte) : fcParm b = BitVec.ofNat 5 (b.toNat / 2) := by
  simp [fcParm, BitVec.extractLsb', Nat.shiftRight_eq_div_pow]

theorem fcEhdron_eq_decide (b : Byte) : fcEhdron b = decide (b.toNat % 2 = 1) := by
  simp [fcEhdron, BitVec.getLsbD, Nat.testBit_zero]

theorem headLen_eq_ofNat (b : Byte) : headLen b = BitVec.ofNat 4 b.toNat := by
  simp [headLen, BitVec.extractLsb']

theorem fcType_and (a b : Byte) : fcType (a &&& b) = fcType a &&& fcType b := BitVec.extractLsb'_and

theorem fcParm_and (a b : Byte) : fcParm (a &&& b) = fcParm a &&& fcParm b := BitVec.extractLsb'_and

theorem headType_and (a b : Byte) : headType (a &&& b) = headType a &&& headType b :=
  BitVec.extractLsb'_and

/-- A mask that keeps the whole class field (`C0` and `FE`) matches no other class. -/
theorem fcType_of_mask {b m : Byte} {t : BitVec 2} {p : BitVec 5} (hm : fcType m = BitVec.allOnes 2)
    (h : b &&& m = fcByte t p false) : fcType b = t := by
  have ht := (DecodeEncode.fcByte_fields t p false).1
  rwa [← h, fcType_and, hm, BitVec.and_allOnes] at ht

/-- A mask that keeps the whole sub-type field (`FE`) matches no other sub-type. -/
theorem fcParm_of_mask {b m : Byte} {t : BitVec 2} {p : BitVec 5} (hm : fcParm m = BitVec.allOnes 5)
    (h : b &&& m = fcByte t p false) : fcParm b = p := by
  have hp := (DecodeEncode.fcByte_fields t p false).2.1
  rwa [← h, fcParm_and, hm, BitVec.and_allOnes] at hp

/-- The mask `F0` keeps the type field. -/
theorem headType_of_mask {b : Byte} {t : BitVec 4} (h : b &&& 0xF0 = headByte t 0) : headType b = t := by
  have ht := (DecodeEncode.headByte_fields t 0).1
  rwa [← h, headType_and, show headType 0xF0 = BitVec.allOnes 4 from rfl, BitVec.and_allOnes] at ht

/-- The rows of the frame table under the mask `C0`, by class. -/
theorem decode_of_classMask (t : BitVec 2) {b : Byte} (rest : List Byte)
    (h : b &&& 0xC0 = fcByte t 0 false) :
    decode .frame (b :: rest) =
      .ok (decodeFcFields t (BitVec.ofNat 5 (b.toNat / 2)) (decide (b.toNat % 2 = 1)), rest) := by
  rw [← fcParm_eq_ofNat, ← fcEhdron_eq_decide, ← fcType_of_mask rfl h]
  rfl

/-- The rows of the frame table under the mask `FE`, by sub-type. -/
theorem decode_of_subtypeMask (p : BitVec 5) {b : Byte} (rest : List Byte)
    (h : b &&& 0xFE = fcByte Config.fctypeMacspc p false) :
    decode .frame (b :: rest) = .ok (decodeMacspc p (decide (b.toNat % 2 = 1)), rest) := by
  rw [decode, decodeFc, fcType_of_mask rfl h, fcParm_of_mask rfl h, fcEhdron_eq_decide]
  rfl

/-- The rows of the element table, by type. -/
theorem decode_of_typeMask (type : BitVec 4) {b : Byte} (rest : List Byte)
    (h : b &&& 0xF0 = headByte type 0) :
    decode .element (b :: rest) = .ok (decodeHeadFields type (BitVec.ofNat 4 b.toNat), rest) := by
  rw [← headLen_eq_ofNat, ← headType_of_mask h]
  rfl

theorem decodeMacspc_unknown {p : BitVec 5} (hp : p ∉ Config.knownFcparms) (e : Bool) :
    decodeMacspc p e = .unknown p e := by
  simp_all [decodeMacspc]

/-- Settles O3: each row is its mask's lemma at the row's code (`decode_of_classMask`,
`decode_of_subtypeMask`, `decode_of_typeMask`). -/
theorem decodeTables : Obligations.DecodeTables := by
  unfold Obligations.DecodeTables
  refine ⟨fun b rest => ⟨?pkt, ?rsvd, ?iso, ?timing, ?mgmt, ?rqst, ?frag, ?qdr, ?concat, ?unknown⟩, ?elements⟩
  case pkt => exact decode_of_classMask Config.fctypePacket rest
  case rsvd => exact decode_of_classMask Config.fctypeReserved rest
  case iso => exact decode_of_classMask Config.fctypeIsolat rest
  case timing => exact decode_of_subtypeMask Config.fcparmTiming rest
  case mgmt => exact decode_of_subtypeMask Config.fcparmMgmt rest
  case rqst => exact decode_of_subtypeMask Config.fcparmRqst rest
  case frag => exact decode_of_subtypeMask Config.fcparmFrag rest
  case qdr => exact decode_of_subtypeMask Config.fcparmQdr rest
  case concat => exact decode_of_subtypeMask Config.fcparmConcat rest
  case unknown =>
    intro h hp
    rw [decode_of_classMask Config.fctypeMacspc rest h, ← decodeMacspc_unknown hp]
    rfl
  case elements =>
    exact fun b rest =>
      ⟨decode_of_typeMask 0 rest, decode_of_typeMask 1 rest, decode_of_typeMask 2 rest,
        decode_of_typeMask 3 rest, decode_of_typeMask 4 rest, decode_of_typeMask 5 rest,
        decode_of_typeMask 6 rest, decode_of_typeMask 7 rest, decode_of_typeMask 8 rest,
        decode_of_typeMask 9 rest, decode_of_typeMask 10 rest, decode_of_typeMask 11 rest,
        decode_of_typeMask 12 rest, decode_of_typeMask 13 rest, decode_of_typeMask 14 rest,
        decode_of_typeMask 15 rest⟩

/-- Settles O4: each of the bytes is what the encoder writes for its instruction, so `decodeEncodeAgree`
reads it back. -/
theorem sampleWords : Obligations.SampleWords := by
  unfold Obligations.SampleWords
  exact ⟨decodeEncodeAgree (.rqst false) [0x05] rfl, decodeEncodeAgree (.qdr false) [] rfl,
    decodeEncodeAgree (.concat true) [] rfl, decodeEncodeAgree (.frag true) [] rfl,
    decodeEncodeAgree (.pkt 4 false) [] rfl, decodeEncodeAgree (.unknown 5 false) [] rfl,
    decodeEncodeAgree (.ehUpPrivacy 5) [0x01] rfl, decodeEncodeAgree (.ehDownService 5) [] rfl,
    decodeEncodeAgree (.ehExtended 7) [] rfl⟩

end Sys2Proof.Machine
end

section
/-! The beginning of a step: the idle block begins the host's next operation, and where a frame is in
progress the opcode byte at the cursor is fetched and decoded. -/

namespace Sys2Proof.Machine

/-! ## The opcode byte -/

theorem fetchAt_of_decode {sp : Space} {s : State} {o : Nat} {i : Instr} {rest : List Byte}
    (h : decode sp (s.mem.frame.drop o) = .ok (i, rest)) : fetchAt sp s o = .ok i := by
  rw [fetchAt, h]

theorem fetchAt_missing {sp : Space} {s : State} {o : Nat} (h : s.caplen ≤ o) :
    fetchAt sp s o = .error o := by
  rw [fetchAt, List.drop_eq_nil_of_le h]
  rfl

/-! ## What a phase does with it -/

theorem step_class {s : State} {i : Instr} (hp : s.phase = .fetch) (hi : fetchFrame s = .ok i) :
    step s = exec i s := by
  simp only [step, hp, hi]

theorem step_class_missing {s : State} {o : Nat} (hp : s.phase = .fetch)
    (hi : fetchFrame s = .error o) : step s = .next (s.faulted o) := by
  simp only [step, hp, hi, takeFault_eq]

theorem walking_iff (s : State) : s.walking = true ↔ s.view.pos < s.view.viewEnd := decide_eq_true_iff

theorem step_element {s : State} {i : Instr} (hp : s.phase = .walk) (hw : s.view.pos < s.view.viewEnd)
    (hi : fetchElement s = .ok i) : step s = exec i s := by
  simp only [step, hp, (walking_iff s).2 hw, if_true, hi]

theorem step_element_missing {s : State} {o : Nat} (hp : s.phase = .walk)
    (hw : s.view.pos < s.view.viewEnd) (hi : fetchElement s = .error o) :
    step s = .next (s.faulted o) := by
  simp only [step, hp, (walking_iff s).2 hw, if_true, hi, takeFault_eq]

theorem step_viewOver {s : State} (hp : s.phase = .walk) (hw : ¬ s.view.pos < s.view.viewEnd) :
    step s = .next s.leaveView := by
  simp only [step, hp, walking_iff, if_neg hw]

/-- Settles O5: the fetch answers what the bytes at the cursor decode to, and the step runs it. -/
theorem stepRunsInstruction : Obligations.StepRunsInstruction := by
  unfold Obligations.StepRunsInstruction
  exact fun s i rest =>
    ⟨fun hp hd => step_class hp (fetchAt_of_decode hd),
      fun hp hw hd => step_element hp hw (fetchAt_of_decode hd)⟩

/-- Settles O6: the fetch answers the offset of the missing byte, and the step faults there. -/
theorem missingOpcodeFaults : Obligations.MissingOpcodeFaults := by
  unfold Obligations.MissingOpcodeFaults
  refine fun s => ⟨fun hp he => ?_, fun hp hw hc => ?_⟩
  · exact step_class_missing hp (fetchAt_missing (by rw [State.caplen, he]; exact Nat.le_refl 0))
  · exact step_element_missing hp hw (fetchAt_missing hc)

/-! ## The idle block -/

theorem step_idle {s : State} (hp : s.phase = .idle) : step s = .next s.hostStep := by
  simp only [step, hp]

theorem hostStep_begins {s : State} {op : HostOp} {ops : List HostOp} (h : s.pending = op :: ops) :
    s.hostStep = ({ s with pending := ops } : State).hostOp op := by
  rw [State.hostStep, h]

theorem hostStep_holds {s : State} (h : s.pending = []) : s.hostStep = s := by
  rw [State.hostStep, h]

/-- Settles O9: the operation begun is `beginFrame`, and with none issued the block holds. -/
theorem hostFrameIn : Obligations.HostFrameIn := by
  unfold Obligations.HostFrameIn
  refine ⟨fun s f ops hp h => ?_, fun s hp h => ?_⟩
  · rw [step_idle hp, hostStep_begins h]
    rfl
  · rw [step_idle hp, hostStep_holds h]

end Sys2Proof.Machine
end

section
/-! The frame classes in closed form. A class is its prologue and then one of the shared procedures of
`40_frame_classes.md`: with the ext bit of a class that walks the walk begins, without it the part from
`HcsCheck` on runs at once (`finish`), as it does behind a walk. -/

namespace Sys2Proof.Machine

/-! ## The header and its length -/

theorem fieldsCaptured_iff (s : State) (p : BitVec 5) : s.fieldsCaptured p ↔ 4 + formatB p ≤ s.caplen := by
  rw [State.fieldsCaptured, formatB_eq]
  split <;> rfl

theorem fieldsCaptured_formatA {s : State} {p : BitVec 5} (hp : p ≠ 4) (h : 4 ≤ s.caplen) :
    s.fieldsCaptured p := by
  rwa [State.fieldsCaptured, if_neg hp]

theorem plainLength_eq (p : BitVec 5) : (if p = 4 then 7 else 6) = 6 + formatB p := by
  rw [formatB_eq]
  split <;> rfl

/-- The fixed part of the header and its growth (R132, R133). -/
theorem prologueDone_hdrlen (s : State) (t : BitVec 2) (p : BitVec 5) (e : Bool) :
    (s.prologueDone t p e).hdrlen = 6 + formatB p + (if e then s.valueAt 1 (1 + formatB p) else 0) := rfl

theorem prologueDone_two_le (s : State) (t : BitVec 2) (p : BitVec 5) (e : Bool) :
    2 ≤ (s.prologueDone t p e).hdrlen := by
  rw [prologueDone_hdrlen]
  omega

theorem headerShown_two_le (s : State) (t : BitVec 2) (p : BitVec 5) (e : Bool) :
    2 ≤ (s.prologueDone t p e).headerShown.hdrlen := prologueDone_two_le s t p e

/-- The header registers hold the two fields as read: neither is cut (R132). -/
theorem prologueDone_fields (s : State) (t : BitVec 2) (p : BitVec 5) (e : Bool) :
    (s.prologueDone t p e).macParm.toNat = s.valueAt 1 (1 + formatB p) ∧
      (s.prologueDone t p e).lenSid.toNat = s.valueAt (2 + formatB p) 2 :=
  ⟨Nat.mod_eq_of_lt (macParm_bound s p).1, Nat.mod_eq_of_lt (valueAt_two_lt s _)⟩

/-! ## The ends of the parts from `HcsCheck` on -/

section
variable {P : Config.Params} {s : State}

theorem finish_ok {m : Act Unit} {u : State} (h : m.run s = .ok () u) : finish m s = u.frameOver := by
  rw [finish, act_bind_ok h]
  rfl

theorem finish_ethernetTail (h2 : 2 ≤ s.hdrlen) (h : s.hdrlen ≤ s.caplen) :
    finish (ethernetTail P) s = s.ethernetDone P := finish_ok (ethernetTail_ok h2 h)

theorem finish_rawTail (h2 : 2 ≤ s.hdrlen) (h : s.hdrlen ≤ s.caplen) :
    finish (tailRsvd P) s = s.rawDone P := finish_ok (rawTail_ok h2 h)

theorem finish_managementTail (h2 : 2 ≤ s.hdrlen) (h : s.hdrlen ≤ s.caplen) :
    finish (managementTail P) s = s.managementDone P := finish_ok (managementTail_ok h2 h)

end

/-! ## The beginning of a walk -/

/-- The activation that begins at the top of the header is the closed form of `Safety.lean`. -/
theorem startView_top (s : State) :
    s.startView 0 (BitVec.ofNat 8 (s.valueAt 1 1)) [] = s.walkBegun := by
  have hv : (BitVec.ofNat 8 (s.valueAt 1 1)).toNat = s.valueAt 1 1 := Nat.mod_eq_of_lt (valueAt_one_lt s 1)
  simp only [State.startView, View.entered, hv, View.dead, State.walkBegun]

theorem withHeader_walkBegun {tail : Act Unit} {s : State} (he : s.ehdron = true) (h : 4 ≤ s.caplen) :
    (withHeader tail).run s = .ok () s.headerShown.walkBegun := by
  rw [withHeader_walk he (Nat.le_trans (by decide) h), ← startView_top]
  rfl

/-! ## A class by the fields of its FC byte -/

section
variable {i : Instr} {t : BitVec 2} {p : BitVec 5} {e : Bool} {s : State} {tail : Act Unit}

/-- With its header fields captured, a class runs its own part on the state the prologue leaves. -/
theorem exec_captured (hi : i.space = .frame) (ho : opcode i = fcByte t p e) (h : s.fieldsCaptured p) :
    exec i s = runAct (afterPrologue defaultParams i) (s.prologueDone t p e) := by
  obtain ⟨ht, hp, he⟩ := Laws.DecodeEncode.fcByte_fields t p e
  rw [exec_class hi, prologueOf, ho, ht, hp, he, runAct, act_bind_ok (prologue_ok h)]
  rfl

/-- Without the ext bit the part from `HcsCheck` on ends the frame behind the header fields (R139). -/
theorem exec_plain (hi : i.space = .frame) (ho : opcode i = fcByte t p false) (h : s.fieldsCaptured p)
    (ha : afterPrologue defaultParams i = withHeader tail) :
    exec i s = .next (finish tail (s.prologueDone t p false).headerShown) := by
  rw [exec_captured hi ho h, ha, runAct, withHeader, act_bind_ok (headerFields_run _)]
  rfl

/-- With the ext bit the walk begins behind the header fields (R139, `41_ehdr_elements.md` R180). -/
theorem exec_walk (hi : i.space = .frame) (ho : opcode i = fcByte t p true) (h : s.fieldsCaptured p)
    (ha : afterPrologue defaultParams i = withHeader tail) :
    exec i s = .next (s.prologueDone t p true).headerShown.walkBegun := by
  have hc : 4 ≤ s.caplen := Nat.le_trans (Nat.le_add_right ..) ((fieldsCaptured_iff s p).1 h)
  rw [exec_captured hi ho h, ha]
  exact runAct_ok (withHeader_walkBegun rfl hc)

/-- A class with two fields of its own, the header captured up to its grown length (R146, R148 to
R150). -/
theorem exec_fixed {id1 id2 : FieldId} (hi : i.space = .frame) (ho : opcode i = fcByte t p e)
    (h : s.fieldsCaptured p) (ha : afterPrologue defaultParams i = fixedHeader defaultParams id1 id2)
    (hc : (s.prologueDone t p e).hdrlen ≤ s.caplen) :
    exec i s = .next (State.frameOver (State.hcsDone (State.withRecords (s.prologueDone t p e)
      [numField id1 1 (1 + formatB p) (s.valueAt 1 (1 + formatB p)),
        numField id2 (2 + formatB p) 2 (s.valueAt (2 + formatB p) 2)]) defaultParams)) := by
  obtain ⟨hm, hl⟩ := prologueDone_fields s t p e
  rw [exec_captured hi ho h, ha, runAct_ok (fixedHeader_ok (prologueDone_two_le ..) hc),
    State.twoFields, hm, hl]
  rfl

end

/-! ## The classes -/

/-- Settles O15, by where the prologue is cut short (`prologue_fault`). -/
theorem headerFieldsMissing : Obligations.HeaderFieldsMissing := by
  unfold Obligations.HeaderFieldsMissing
  intro i s hi h q t
  have hsplit : (s.setFc (fcType (opcode i)) (fcParm (opcode i)) (fcEhdron (opcode i))).withRecords
      (fcRecords (fcType (opcode i)) (fcParm (opcode i)) (fcEhdron (opcode i))) = t := by
    rw [State.setFc, fcByte_of_fields]
    rfl
  have hr := prologue_fault (t := fcType (opcode i)) (e := fcEhdron (opcode i)) h
  rw [hsplit] at hr
  rw [exec_class hi]
  refine ⟨fun hc => ?_, fun hc => ?_⟩
  · exact runAct_error (act_bind_error (hr.trans (if_pos hc)))
  · exact runAct_error (act_bind_error (hr.trans (if_neg (Nat.not_lt_of_le hc))))

/-- Settles O16: each class is `exec_plain` with the end of its part from `HcsCheck` on. -/
theorem plainPayloadClasses : Obligations.PlainPayloadClasses := by
  unfold Obligations.PlainPayloadClasses
  refine fun s => ⟨fun p hc => ?_, fun hc => ?_⟩
  · rw [plainLength_eq] at hc
    have h : s.fieldsCaptured p := (fieldsCaptured_iff s p).2 (by omega)
    exact
      ⟨(exec_plain rfl rfl h rfl).trans (congrArg _ (finish_ethernetTail (headerShown_two_le ..) hc)),
        (exec_plain rfl rfl h rfl).trans (congrArg _ (finish_ethernetTail (headerShown_two_le ..) hc)),
        (exec_plain rfl rfl h rfl).trans (congrArg _ (finish_rawTail (headerShown_two_le ..) hc))⟩
  · have h : 4 ≤ s.caplen := Nat.le_trans (by decide) hc
    exact
      ⟨(exec_plain rfl rfl (fieldsCaptured_formatA (by decide) h) rfl).trans
          (congrArg _ (finish_managementTail (headerShown_two_le ..) hc)),
        (exec_plain rfl rfl (fieldsCaptured_formatA (by decide) h) rfl).trans
          (congrArg _ (finish_managementTail (headerShown_two_le ..) hc))⟩

/-- Settles O17: each class is `exec_fixed` with its own two fields. -/
theorem fixedHeaderClasses : Obligations.FixedHeaderClasses := by
  unfold Obligations.FixedHeaderClasses
  exact fun s e => ⟨fun h hc => exec_fixed rfl rfl h rfl hc, fun h hc => exec_fixed rfl rfl h rfl hc,
    fun h hc => exec_fixed rfl rfl h rfl hc⟩

/-- Settles O18: the own part of `UNKNOWN` is the end of the frame alone. -/
theorem unknownSubtype : Obligations.UnknownSubtype := by
  unfold Obligations.UnknownSubtype
  intro s p e _ h
  rw [exec_captured (t := 3) rfl rfl h]
  exact runAct_ok (endFrame_run _)

/-- Settles O19: five classes are `exec_walk`; `FRAG` enters fragment context before the walk. -/
theorem walkBegins : Obligations.WalkBegins := by
  unfold Obligations.WalkBegins
  refine fun s => ⟨fun p h => ?_, fun hc => ?_⟩
  · exact ⟨exec_walk rfl rfl h rfl, exec_walk rfl rfl h rfl, exec_walk rfl rfl h rfl⟩
  · refine ⟨exec_walk rfl rfl (fieldsCaptured_formatA (by decide) hc) rfl,
      exec_walk rfl rfl (fieldsCaptured_formatA (by decide) hc) rfl, ?_⟩
    rw [exec_captured (t := 3) rfl rfl (fieldsCaptured_formatA (by decide) hc)]
    exact runAct_ok (withHeader_walkBegun (tail := tailFrag defaultParams)
      (s := (s.prologueDone 3 3 true).enterFragment) rfl hc)

/-- The step behind a walk is the end of the class's part from `HcsCheck` on. -/
theorem step_tail {s : State} (hp : s.phase = .tail) :
    step s = .next (finish (classTail defaultParams s.fctype s.fcparm) s) := by
  simp only [step, hp]
  rfl

/-- Settles O20: the class's part (`classTail`) and its end. -/
theorem tailPayloadClasses : Obligations.TailPayloadClasses := by
  unfold Obligations.TailPayloadClasses
  intro s hp h6 hc
  have h2 : 2 ≤ s.hdrlen := Nat.le_trans (by decide) h6
  refine ⟨fun ht => ?_, fun ht => ?_, fun ht hs => ?_⟩
  · rw [step_tail hp, ← finish_ethernetTail h2 hc]
    rcases ht with ht | ht <;> rw [ht]
    · rw [classTail_pkt]
    · rw [classTail_iso]
  · rw [step_tail hp, ht, classTail_rsvd, finish_rawTail h2 hc]
  · rw [step_tail hp, ← finish_managementTail h2 hc, ht]
    rcases hs with hs | hs <;> rw [hs]
    · rw [classTail_timing]
    · rw [classTail_mgmt]

end Sys2Proof.Machine
end

section
/-! Every frame ends. A walk of one view returns to its caller, for each step of it either takes the
cursor on within the view or opens a nested view that begins further into the frame; so the chain of
waiting activations empties, and behind it the rest of the class ends the frame. -/

namespace Sys2Proof.Machine

/-! ## Reaching a state -/

/-- Some number of steps from `s` answers a state with `Q`. -/
def Reaches (s : State) (Q : State → Prop) : Prop := ∃ n t, run n s = .next t ∧ Q t

theorem Reaches.now {s : State} {Q : State → Prop} (h : Q s) : Reaches s Q := ⟨0, s, rfl, h⟩

theorem Reaches.after {s t : State} {Q : State → Prop} (hs : step s = .next t) (h : Reaches t Q) :
    Reaches s Q := by
  obtain ⟨n, u, hr, hq⟩ := h
  exact ⟨n + 1, u, by rw [run, hs]; exact hr, hq⟩

theorem Reaches.trans {s : State} {Q R : State → Prop} (h : Reaches s Q)
    (hq : ∀ t, Q t → Reaches t R) : Reaches s R := by
  obtain ⟨n, t, hr, ht⟩ := h
  induction n generalizing s with
  | zero =>
    injection hr with hr
    exact hr ▸ hq t ht
  | succ n ih =>
    obtain ⟨u, hu, -⟩ := step_next s
    rw [run, hu] at hr
    exact .after hu (ih hr)

/-! ## One step of a walk -/

/-- The frame is over, or the walk of its header. -/
def State.walkOver (s : State) : Prop := s.phase = .idle ∨ s.phase = .tail

/-- The walk of the running view of `s` is over: its caller has stepped over its type-15 element
(`41_ehdr_elements.md` R197), or the whole walk is over, or the frame. -/
inductive Returned (s t : State) : Prop
  | ended : t.walkOver → Returned s t
  | caller (c : View) : s.callers = c :: t.callers → t.phase = .walk →
      t.mem.frame = s.mem.frame → t.view = c.advanced → Returned s t

/-- The walk goes on in the same view, behind the element at the cursor. -/
structure Further (s t : State) : Prop where
  phase : t.phase = .walk
  frame : t.mem.frame = s.mem.frame
  callers : t.callers = s.callers
  base : t.view.b = s.view.b
  viewEnd : t.view.viewEnd = s.view.viewEnd
  pos : s.view.pos < t.view.pos
  within : t.view.pos ≤ s.view.viewEnd

/-- What a step of a walk leaves. -/
inductive WalkStep (s : State) : State → Prop
  | returned (t : State) : Returned s t → WalkStep s t
  | further (t : State) : Further s t → WalkStep s t
  /-- A nested view begins at the element at the cursor, which fits in its own. -/
  | nested (len : BitVec 4) (n : Byte) : s.fits len → s.headAt + 2 ≤ s.caplen →
      WalkStep s ((s.elementShown 15 len []).startView s.headAt n
        ((s.elementShown 15 len []).view :: s.callers))

/-- To leave the activation of a state with the callers of `s` is to return. -/
theorem leaveView_returned {s u : State} (hp : u.phase = .walk) (hf : u.mem.frame = s.mem.frame)
    (hc : u.callers = s.callers) : Returned s u.leaveView := by
  cases h : u.callers with
  | nil => rw [leaveView_top h]; exact .ended (.inr rfl)
  | cons c cs => rw [leaveView_nested h]; exact .caller c (hc ▸ h) hp hf rfl

/-- An element that fits in its view, stepped over, takes the cursor on within the view. -/
theorem advanced_further {s t : State} {type len : BitVec 4} (hp : t.phase = .walk)
    (hf : t.mem.frame = s.mem.frame) (hc : t.callers = s.callers) (hl : s.fits len)
    (hv : t.view = (s.elementShown type len []).view.advanced) : Further s t := by
  have hpos : t.view.pos = s.view.pos + len.toNat + 1 := congrArg View.pos hv
  have hl : s.view.pos + 1 + len.toNat ≤ s.view.viewEnd := hl
  exact ⟨hp, hf, hc, (congrArg View.b hv).trans rfl, (congrArg View.viewEnd hv).trans rfl,
    by omega, by omega⟩

theorem ElementEnds.walkStep {type len : BitVec 4} {enc scr : Bool} {s t : State} (hp : s.phase = .walk)
    (h : ElementEnds s type len enc scr t) : WalkStep s t := by
  cases h with
  | pastEnd hf => exact .returned _ (leaveView_returned hp rfl rfl)
  | advance u hf hk =>
    exact .further _ (advanced_further (hk.phase.trans hp) (congrArg Memory.frame hk.mem) hk.callers hf
      (congrArg View.advanced hk.view))
  | abort u hf hk =>
    exact .returned _ (leaveView_returned (hk.phase.trans hp) (congrArg Memory.frame hk.mem) hk.callers)
  | nested hf ht hc =>
    subst ht
    exact .nested len _ hf hc
  | fault u o => exact .returned _ (.ended (.inl rfl))

theorem walk_step {s : State} (hp : s.phase = .walk) : ∃ t, step s = .next t ∧ WalkStep s t := by
  by_cases hw : s.view.pos < s.view.viewEnd
  · cases hi : fetchElement s with
    | ok i =>
      have hs := (fetchAt_ok hi).2
      obtain ⟨t, hx, ht⟩ := elementBody_ends i s hs
      exact ⟨t, by rw [step_element hp hw hi, exec_element hs, hx], ht.walkStep hp⟩
    | error o => exact ⟨_, step_element_missing hp hw hi, .returned _ (.ended (.inl rfl))⟩
  · exact ⟨_, step_viewOver hp hw, .returned _ (leaveView_returned hp rfl rfl)⟩

/-! ## The walk of one view -/

/-- The nested view of a type-15 element, returned from, is the view of that element stepped over. -/
theorem Returned.after_nested {s t : State} {len : BitVec 4} {n : Byte} (hl : s.fits len)
    (h : Returned ((s.elementShown 15 len []).startView s.headAt n
      ((s.elementShown 15 len []).view :: s.callers)) t) : Returned s t ∨ Further s t := by
  cases h with
  | ended h => exact .inl (.ended h)
  | caller c hc hp hf hv =>
    injection hc with hc hcs
    exact .inr (advanced_further hp hf hcs.symm hl (hv.trans (congrArg View.advanced hc.symm)))

theorem Returned.of_further {s t u : State} (h : Further s t) (h' : Returned t u) : Returned s u := by
  cases h' with
  | ended h' => exact .ended h'
  | caller c hc hp hf hv => exact .caller c (h.callers ▸ hc) hp (hf.trans h.frame) hv

/-- The walk that goes on in the same view has the same bytes of the frame behind its base, and fewer of
the view behind its cursor. -/
theorem Further.shrinks {s t : State} (h : Further s t) :
    t.caplen - t.view.b = s.caplen - s.view.b ∧
      t.view.viewEnd - t.view.pos < s.view.viewEnd - s.view.pos := by
  rw [State.caplen, h.frame, h.base, h.viewEnd]
  exact ⟨rfl, Nat.sub_lt_sub_left (Nat.lt_of_lt_of_le h.pos h.within) h.pos⟩

/-- The walk of a view ends (`41_ehdr_elements.md` R199): by induction on the bytes of the frame behind
the base, and for one base on the bytes of the view behind the cursor. -/
theorem walk_returns (s : State) (hp : s.phase = .walk) (hpos : 0 < s.view.pos) :
    Reaches s (Returned s) := by
  have goOn : ∀ t, Further s t → Reaches t (Returned s) := fun t h => by
    obtain ⟨hb, hv⟩ := h.shrinks
    exact (walk_returns t h.phase (Nat.lt_trans hpos h.pos)).trans fun u hu => .now (.of_further h hu)
  obtain ⟨t, hs, ht⟩ := walk_step hp
  refine .after hs ?_
  cases ht with
  | returned _ ht => exact .now ht
  | further _ ht => exact goOn t ht
  | nested len n hl hc =>
    have hb : s.view.b < s.headAt := Nat.lt_add_of_pos_right hpos
    exact (walk_returns _ rfl (show 0 < 4 by decide)).trans fun u hu =>
      (hu.after_nested hl).elim .now (goOn u)
termination_by (s.caplen - s.view.b, s.view.viewEnd - s.view.pos)
decreasing_by
  · rw [hb]
    exact .right _ hv
  · refine .left _ _ ?_
    show s.caplen - s.headAt < s.caplen - s.view.b
    omega

/-! ## The chain of activations -/

/-- No cursor of a chain of views stands at the base of its view. -/
theorem viewChain_pos {cap : Nat} {v : View} {cs : List View} (h : viewChain cap v cs) :
    0 < v.pos ∧ ∀ c ∈ cs, 0 < c.pos := by
  induction cs generalizing v with
  | nil =>
    obtain ⟨⟨-, hpos, -⟩, -⟩ := h
    exact ⟨by omega, fun _ hc => absurd hc List.not_mem_nil⟩
  | cons c cs ih =>
    obtain ⟨⟨-, hpos, -⟩, -, -, -, hr⟩ := h
    obtain ⟨hc, hcs⟩ := ih hr
    exact ⟨by omega, fun d hd => (List.mem_cons.1 hd).elim (fun e => e ▸ hc) (hcs d)⟩

/-- The whole walk ends, by induction on the activations that wait. -/
theorem walk_ends {s : State} (hp : s.phase = .walk) (hpos : 0 < s.view.pos)
    (hcs : ∀ c ∈ s.callers, 0 < c.pos) : Reaches s State.walkOver := by
  generalize hl : s.callers = l at hcs
  induction l generalizing s with
  | nil =>
    refine (walk_returns s hp hpos).trans fun t ht => ?_
    cases ht with
    | ended h => exact .now h
    | caller c hc => cases hl.symm.trans hc
  | cons d ds ih =>
    refine (walk_returns s hp hpos).trans fun t ht => ?_
    cases ht with
    | ended h => exact .now h
    | caller c hc ht hf hv =>
      injection hl.symm.trans hc with _ hds
      refine ih ht ?_ hds.symm fun c hc => hcs c (List.mem_cons_of_mem d hc)
      rw [hv]
      exact Nat.succ_pos _

/-! ## The whole frame -/

theorem tail_ends {s : State} (hp : s.phase = .tail) : Reaches s (·.phase = .idle) :=
  .after (step_tail hp) (.now (finish_idle ..))

theorem walk_idle {s : State} (hp : s.phase = .walk) (hpos : 0 < s.view.pos)
    (hcs : ∀ c ∈ s.callers, 0 < c.pos) : Reaches s (·.phase = .idle) :=
  (walk_ends hp hpos hcs).trans fun _ ht => ht.elim (fun h => .now h) tail_ends

/-- A class ends the frame, or begins the walk of the top view behind its first four bytes. -/
theorem fetch_ends {s : State} (hp : s.phase = .fetch) : Reaches s (·.phase = .idle) := by
  obtain ⟨t, hs, ht⟩ := step_next s
  refine .after hs ?_
  cases ht with
  | host _ h | goesOn _ _ _ h => cases hp.symm.trans h
  | begins i => exact walk_idle rfl (show 0 < 4 by decide) fun _ hc => absurd hc List.not_mem_nil
  | ends u _ _ _ hf => exact .now hf.idle

/-- Settles O58, phase by phase: a class leads to its walk, the walk to the rest of the class
(`walk_ends`), and that to the end of the frame. -/
theorem everyFrameEnds : Obligations.EveryFrameEnds := by
  unfold Obligations.EveryFrameEnds
  rintro s ⟨hw, -⟩
  cases hp : s.phase with
  | idle => exact Reaches.now hp
  | fetch => exact fetch_ends hp
  | walk =>
    obtain ⟨hpos, hcs⟩ := viewChain_pos (hw hp)
    exact walk_idle hp hpos hcs
  | tail => exact tail_ends hp

end Sys2Proof.Machine
end

section
/-! The elements of an extended header, one obligation for each family of types: the loop body shows the
head fields of an element and runs its own part, whose reads either fit in the captured bytes or fault
one by one. -/

namespace Sys2Proof.Machine

/-! ## The state in which an own part has shown its records -/

theorem elementShown_withRecords_nil (s : State) (type len : BitVec 4) (rs : List Record) :
    (s.elementShown type len []).withRecords rs = s.elementShown type len rs :=
  elementShown_withRecords s type len [] rs

theorem elementShown_setEncrypted (s : State) (type len : BitVec 4) (rs : List Record) (f : Bool) :
    ((s.elementShown type len []).setEncrypted f).withRecords rs =
      { s.elementShown type len rs with isEncrypted := f } :=
  congrArg (State.setEncrypted · f) (elementShown_withRecords_nil s type len rs)

/-- A bit field as a word of its own width. -/
theorem ofNat_bits {n hi lo : Nat} (h : hi + 1 - lo = n) (v : Nat) :
    BitVec.ofNat n (bits v hi lo) = BitVec.ofNat n (v / 2 ^ lo) := by
  apply BitVec.eq_of_toNat_eq
  simp [bits, h]

theorem loadFragInfo_eq (s : State) (w f : Nat) :
    s.loadFragInfo w f =
      { s with fragFlags := BitVec.ofNat 2 (f / 16), fragSeq := BitVec.ofNat 4 f
               fragSid := BitVec.ofNat 14 w, fragValid := true } := by
  simp only [State.loadFragInfo, privacyId, ofNat_bits, Nat.reducePow, Nat.div_one]

/-- The registers of an activation whose byte count has been read: the end of its view is four more
(R180). -/
theorem startView_valueAt (s : State) (b o : Nat) (cs : List View) :
    s.startView b (BitVec.ofNat 8 (s.valueAt o 1)) cs =
      { s with
        view := { b := b, ehdrlen := BitVec.ofNat 8 (s.valueAt o 1), viewEnd := s.valueAt o 1 + 4, pos := 4,
                  h := 0, type := 0, len := 0 }
        callers := cs
        phase := .walk } := by
  have hn : (BitVec.ofNat 8 (s.valueAt o 1)).toNat = s.valueAt o 1 := Nat.mod_eq_of_lt (valueAt_one_lt s o)
  simp only [State.startView, View.entered, hn, View.dead]

/-! ## How an element ends, by how its own part ends -/

section
variable {i : Instr} {type len : BitVec 4} {s t : State} {o : Nat} {rs : List Record}

theorem exec_headFields (hi : i.space = .element) (ho : opcode i = type ++ len) (s : State) :
    exec i s = runAct (element type len (ownPart i)) s := by
  obtain ⟨ht, hl⟩ := Laws.DecodeEncode.headByte_fields type len
  rw [headByte, ← ho] at ht hl
  rw [exec_element hi, elementBody, ht, hl]

theorem exec_pastEnd (hi : i.space = .element) (ho : opcode i = type ++ len) (hf : ¬ s.fits len) :
    exec i s =
      .next ((s.setView (s.view.setHead type len)).addRecord (.event .ehPastEnd s.headAt)).leaveView := by
  rw [exec_headFields hi ho]
  exact runAct_ok (element_pastEnd hf)

theorem exec_advances (hi : i.space = .element) (ho : opcode i = type ++ len) (hf : s.fits len)
    (ha : (ownPart i s.headAt).run (s.elementShown type len []) = .ok .advance t) :
    exec i s = .next t.steppedOver := by
  rw [exec_headFields hi ho]
  exact runAct_ok (element_advance hf ha)

theorem exec_shows (hi : i.space = .element) (ho : opcode i = type ++ len) (hf : s.fits len)
    (ha : (ownPart i s.headAt).run (s.elementShown type len []) =
      .ok .advance ((s.elementShown type len []).withRecords rs)) :
    exec i s = .next (s.elementShown type len rs).steppedOver := by
  rw [exec_advances hi ho hf ha, elementShown_withRecords_nil]

theorem exec_shows_encrypted {f : Bool} (hi : i.space = .element) (ho : opcode i = type ++ len)
    (hf : s.fits len)
    (ha : (ownPart i s.headAt).run (s.elementShown type len []) =
      .ok .advance (((s.elementShown type len []).setEncrypted f).withRecords rs)) :
    exec i s = .next { (s.elementShown type len rs).steppedOver with isEncrypted := f } := by
  rw [exec_advances hi ho hf ha, elementShown_setEncrypted]
  rfl

theorem exec_nested (hi : i.space = .element) (ho : opcode i = type ++ len) (hf : s.fits len)
    (ha : (ownPart i s.headAt).run (s.elementShown type len []) = .ok .nested t) :
    exec i s = .next t := by
  rw [exec_headFields hi ho]
  refine runAct_ok ((element_fits hf).trans ?_)
  rw [ha]
  rfl

theorem exec_faults (hi : i.space = .element) (ho : opcode i = type ++ len) (hf : s.fits len)
    (ha : (ownPart i s.headAt).run (s.elementShown type len []) = .error o t) :
    exec i s = .next (t.faulted o) := by
  rw [exec_headFields hi ho, ← takeFault_eq]
  exact runAct_error (element_fault hf ha)

theorem exec_shows_faults (hi : i.space = .element) (ho : opcode i = type ++ len) (hf : s.fits len)
    (ha : (ownPart i s.headAt).run (s.elementShown type len []) =
      .error o ((s.elementShown type len []).withRecords rs)) :
    exec i s = .next ((s.elementShown type len rs).faulted o) := by
  rw [exec_faults hi ho hf ha, elementShown_withRecords_nil]

theorem exec_shows_encrypted_faults {f : Bool} (hi : i.space = .element) (ho : opcode i = type ++ len)
    (hf : s.fits len)
    (ha : (ownPart i s.headAt).run (s.elementShown type len []) =
      .error o (((s.elementShown type len []).setEncrypted f).withRecords rs)) :
    exec i s = .next (State.faulted { s.elementShown type len rs with isEncrypted := f } o) := by
  rw [exec_faults hi ho hf ha, elementShown_setEncrypted]

/-- A wrong length under either policy (R187). -/
theorem exec_mismatch (hi : i.space = .element) (ho : opcode i = type ++ len) (hf : s.fits len)
    (ha : ∀ p u, (ownPart i p).run u = .ok .mismatch u) :
    exec i s = .next
      (if s.cfg.abortViewOnElementError = true then
        (s.elementShown type len [.event .ehLenMismatch s.headAt]).leaveView
      else (s.elementShown type len [.event .ehLenMismatch s.headAt]).steppedOver) := by
  rw [exec_headFields hi ho, runAct_ok (element_mismatch hf (ha ..)), elementShown_addRecord]
  rfl

end

/-! ## Operand forms, captured and not -/

/-- The fields of the key-sequence/version byte at `p + 1`. -/
def State.keyseqRecords (s : State) (p : Nat) : List Record :=
  [numField .ehKeyseq (p + 1) 1 (s.valueAt (p + 1) 1 / 16),
    numField .ehVer (p + 1) 1 (s.valueAt (p + 1) 1 % 16)]

/-- The traffic priority of a Downstream-Service element (`30_encoding.md` R110). -/
def State.trafpriField (s : State) (p : Nat) : Record :=
  numField .ehTrafpri (p + 1) 1 (s.valueAt (p + 1) 1 / 32)

/-- The sequence-change bit of a Downstream-Service element (R110). -/
def State.seqchgField (s : State) (p : Nat) : Record :=
  numField .ehSeqchg (p + 1) 1 (s.valueAt (p + 1) 1 / 16 % 2)

/-- The DSID of a Downstream-Service element (R110). -/
def State.dsidField (s : State) (p : Nat) : Record :=
  numField .ehDsid (p + 1) 3 (s.valueAt (p + 1) 3 % 1048576)

section
variable {α : Type} {p : Nat} {s : State}

theorem readField_bind_ok {id : FieldId} {o n : Nat} (f : Unit → Act α) (h : o + n ≤ s.caplen) :
    (readField id o n >>= f).run s = (f ()).run (s.withRecords [s.wholeField id o n]) :=
  act_bind_ok (readField_ok h)

theorem readField_bind_fault {id : FieldId} {o n : Nat} (f : Unit → Act α) (h : s.caplen < o + n) :
    (readField id o n >>= f).run s = .error o s :=
  act_bind_error (memRead_bind_fault _ h)

theorem trafpri_bits (s : State) (o : Nat) : bits (s.valueAt o 1) 7 5 = s.valueAt o 1 / 32 := by
  have hb := valueAt_one_lt s o
  simp only [bits]
  omega

theorem dsid_bind_ok (f : Unit → Act α) (h : p + 4 ≤ s.caplen) :
    (dsid p >>= f).run s = (f ()).run (s.withRecords [s.dsidField p]) :=
  act_bind_ok ((dsid_run p s).trans (if_pos h))

theorem dsid_bind_fault (f : Unit → Act α) (h : s.caplen < p + 4) :
    (dsid p >>= f).run s = .error (p + 1) s :=
  act_bind_error (memRead_bind_fault _ h)

theorem keyseqVersion_bind_ok (f : Unit → Act α) (h : p + 2 ≤ s.caplen) :
    (keyseqVersion p >>= f).run s = (f ()).run (s.withRecords (s.keyseqRecords p)) :=
  act_bind_ok ((keyseqVersion_run p s).trans (if_pos h))

/-- The fields that types 3, 4 and 7 begin with, where they are captured. -/
theorem privacyFields_bind_ok {id : FieldId} (k : Nat → Act α) (h : p + 4 ≤ s.caplen) :
    (keyseqVersion p >>= fun _ => privacyWord id p >>= k).run s =
      (k (s.valueAt (p + 2) 2)).run
        ((s.setEncrypted (s.enableAt p)).withRecords (s.privacyRecords id p)) := by
  have hw := (privacyWord_run id p (s.withRecords (s.keyseqRecords p))).trans (if_pos h)
  rw [keyseqVersion_bind_ok _ (by omega), act_bind_ok hw]
  exact congrArg (k _).run (withRecords_withRecords (s.setEncrypted _) _ _)

theorem privacyFields_bind_fault_keyseq {id : FieldId} (k : Nat → Act α) (h : s.caplen < p + 2) :
    (keyseqVersion p >>= fun _ => privacyWord id p >>= k).run s = .error (p + 1) s :=
  act_bind_error (memRead_bind_fault _ h)

theorem privacyFields_bind_fault_word {id : FieldId} (k : Nat → Act α) (h : p + 2 ≤ s.caplen)
    (h' : s.caplen < p + 4) :
    (keyseqVersion p >>= fun _ => privacyWord id p >>= k).run s =
      .error (p + 2) (s.withRecords (s.keyseqRecords p)) :=
  (keyseqVersion_bind_ok _ h).trans (act_bind_error (memRead_bind_fault _ h'))

end

/-! ## Type 3 in and outside fragment context -/

section
variable {p : Nat} {s : State}

theorem armUpPrivacy_plain (hf : s.fragmented = false) (h : p + 5 ≤ s.caplen) :
    (armUpPrivacy p).run s = .ok .advance ((s.setEncrypted (s.enableAt p)).withRecords
      (s.privacyRecords .ehSid14 p ++ [s.wholeField .ehMinislots (p + 4) 1])) := by
  rw [armUpPrivacy_ok (by simpa [hf] using h)]
  simp only [hf, Bool.false_eq_true, if_false, List.append_nil]

theorem armUpPrivacy_inFragment (hf : s.fragmented = true) (h : p + 6 ≤ s.caplen) :
    (armUpPrivacy p).run s = .ok .advance (((s.setEncrypted (s.enableAt p)).withRecords
      (s.privacyRecords .ehSid14 p ++ [s.wholeField .ehMinislots (p + 4) 1] ++
        s.fragmentRecords p)).loadFragInfo (s.valueAt (p + 2) 2) (s.valueAt (p + 5) 1)) := by
  rw [armUpPrivacy_ok (by simpa [hf] using h)]
  simp only [hf, if_true]

end

/-! ## The own parts where their bytes run out -/

section
variable {p : Nat} {s : State} {len : BitVec 4}

theorem armRequest_fault_minislots (h : s.caplen < p + 2) :
    (armRequest 3 p).run s = .error (p + 1) s := readField_bind_fault _ h

theorem armRequest_fault_sid (h : p + 2 ≤ s.caplen) (h' : s.caplen < p + 4) :
    (armRequest 3 p).run s =
      .error (p + 2) (s.withRecords [s.wholeField .ehRqMinislots (p + 1) 1]) :=
  (readField_bind_ok (n := 1) _ h).trans (readField_bind_fault _ h')

theorem armAckReq_fault (h : s.caplen < p + 3) : (armAckReq 2 p).run s = .error (p + 1) s :=
  readField_bind_fault _ h

theorem armDownPrivacy_fault_rsvd (h : p + 4 ≤ s.caplen) (h' : s.caplen < p + 5) :
    (armDownPrivacy p).run s =
      .error (p + 4) ((s.setEncrypted (s.enableAt p)).withRecords (s.privacyRecords .ehSaid p)) :=
  (privacyFields_bind_ok _ h).trans (readField_bind_fault _ h')

theorem armUpPrivacy_fault_minislots (h : p + 4 ≤ s.caplen) (h' : s.caplen < p + 5) :
    (armUpPrivacy p).run s =
      .error (p + 4) ((s.setEncrypted (s.enableAt p)).withRecords (s.privacyRecords .ehSid14 p)) :=
  (privacyFields_bind_ok _ h).trans (readField_bind_fault _ h')

theorem armUpPrivacy_fault_fragment (hf : s.fragmented = true) (h : p + 5 ≤ s.caplen)
    (h' : s.caplen < p + 6) :
    (armUpPrivacy p).run s = .error (p + 5) ((s.setEncrypted (s.enableAt p)).withRecords
      (s.privacyRecords .ehSid14 p ++ [s.wholeField .ehMinislots (p + 4) 1])) := by
  rw [← withRecords_withRecords]
  refine (privacyFields_bind_ok _ (Nat.le_of_succ_le h)).trans ((readField_bind_ok _ ?_).trans ?_)
  · exact h
  · rw [act_get_bind]
    dsimp only
    rw [if_pos]
    · exact act_bind_error (memRead_bind_fault _ h')
    · exact hf

theorem armSfPhs5_fault_phsi (h : s.caplen < p + 2) : (armSfPhs5 len p).run s = .error (p + 1) s :=
  act_bind_error (readField_bind_fault _ h)

theorem armSfPhs5_fault_grants (h : p + 2 ≤ s.caplen) (h' : s.caplen < p + 3) :
    (armSfPhs5 2 p).run s = .error (p + 2) (s.withRecords [s.wholeField .ehPhsi (p + 1) 1]) :=
  act_bind_error ((readField_bind_ok (n := 1) _ h).trans (memRead_bind_fault _ h'))

/-- Type 6 is type 5 behind the relabel note (R193, R186). -/
theorem armSfPhs6_run :
    (armSfPhs6 len p).run s =
      (armSfPhs5 len p).run (s.withRecords (if len = 2 then [.note .ehUgsLabel p] else [])) := by
  rw [armSfPhs6]
  by_cases hl : len = 2
  · rw [if_pos hl, if_pos hl]
    rfl
  · rw [if_neg hl, if_neg hl, withRecords_nil]
    rfl

theorem armDownService_fault_trafpri (h : s.caplen < p + 2) :
    (armDownService len p).run s = .error (p + 1) s := memRead_bind_fault _ h

theorem armDownService3_run (h : p + 2 ≤ s.caplen) :
    (armDownService 3 p).run s = (dsid p >>= fun _ => pure .advance : Act ArmEnd).run
      (s.withRecords [s.trafpriField p]) := by
  rw [armDownService, memRead_bind_ok (n := 1) _ h, emitField_bind, trafpri_bits]
  rfl

theorem armDownService5_run (h : p + 2 ≤ s.caplen) :
    (armDownService 5 p).run s =
      (dsid p >>= fun _ => readField .ehDspsn (p + 4) 2 >>= fun _ => pure .advance : Act ArmEnd).run
        (s.withRecords [s.trafpriField p, s.seqchgField p]) := by
  rw [armDownService, memRead_bind_ok (n := 1) _ h, emitField_bind, trafpri_bits, ← addRecord_addRecord]
  rfl

theorem armDownService3_fault_dsid (h : p + 2 ≤ s.caplen) (h' : s.caplen < p + 4) :
    (armDownService 3 p).run s = .error (p + 1) (s.withRecords [s.trafpriField p]) :=
  (armDownService3_run h).trans (dsid_bind_fault _ h')

theorem armDownService5_fault_dsid (h : p + 2 ≤ s.caplen) (h' : s.caplen < p + 4) :
    (armDownService 5 p).run s =
      .error (p + 1) (s.withRecords [s.trafpriField p, s.seqchgField p]) :=
  (armDownService5_run h).trans (dsid_bind_fault _ h')

theorem armDownService5_fault_dspsn (h : p + 4 ≤ s.caplen) (h' : s.caplen < p + 6) :
    (armDownService 5 p).run s =
      .error (p + 4) (s.withRecords [s.trafpriField p, s.seqchgField p, s.dsidField p]) := by
  refine (armDownService5_run (by omega)).trans ((dsid_bind_ok _ ?_).trans ?_)
  · exact h
  · rw [withRecords_withRecords]
    exact readField_bind_fault _ h'

theorem armPathVerify_fault_startref (h : s.caplen < p + 2) :
    (armPathVerify 5 p).run s = .error (p + 1) s := readField_bind_fault _ h

theorem armPathVerify_fault_ts (h : p + 2 ≤ s.caplen) (h' : s.caplen < p + 6) :
    (armPathVerify 5 p).run s =
      .error (p + 2) (s.withRecords [s.wholeField .ehPvStartref (p + 1) 1]) :=
  (readField_bind_ok (n := 1) _ h).trans (readField_bind_fault _ h')

theorem armDefault_fault (hl : len ≠ 0) (h : s.caplen < p + 1 + len.toNat) :
    (armDefault len p).run s = .error (p + 1) s := by
  rw [armDefault, act_bind_error]
  rw [opaqueValue_run, if_neg hl, if_neg (Nat.not_le_of_lt h)]

theorem armExtended_ok (h : p + 2 ≤ s.caplen) :
    (armExtended p).run s = .ok .nested
      (s.startView p (BitVec.ofNat 8 (s.valueAt (p + 1) 1)) (s.view :: s.callers)) :=
  (armExtended_run p s).trans (if_pos h)

theorem armExtended_fault (h : s.caplen < p + 2) : (armExtended p).run s = .error (p + 1) s :=
  (armExtended_run p s).trans (if_neg (Nat.not_le_of_lt h))

end

/-! ## The types that share an own part -/

section
variable {type len : BitVec 4} {i : Instr}

/-- Types 1 and 2 with a length that is not the required one (R187). -/
theorem wrongLength_ownPart
    (h : (type = 1 ∧ len ≠ 3 ∧ i = .ehRequest len) ∨ (type = 2 ∧ len ≠ 2 ∧ i = .ehAckReq len)) :
    i.space = .element ∧ opcode i = type ++ len ∧ ∀ p u, (ownPart i p).run u = .ok .mismatch u := by
  rcases h with ⟨rfl, hl, rfl⟩ | ⟨rfl, hl, rfl⟩
  · exact ⟨rfl, rfl, fun _ _ => armRequest_mismatch hl⟩
  · exact ⟨rfl, rfl, fun _ _ => armAckReq_mismatch hl⟩

/-- Types 0 and 10 to 14 (R198). -/
theorem defaultType_ownPart
    (h : (type, i) ∈ [((0 : BitVec 4), Instr.ehNull len), (10, .ehRsvd10 len), (11, .ehRsvd11 len),
      (12, .ehRsvd12 len), (13, .ehRsvd13 len), (14, .ehRsvd14 len)]) :
    i.space = .element ∧ opcode i = type ++ len ∧ ownPart i = armDefault len := by
  simp only [List.mem_cons, List.not_mem_nil, or_false, Prod.mk.injEq] at h
  obtain ⟨rfl, rfl⟩ | ⟨rfl, rfl⟩ | ⟨rfl, rfl⟩ | ⟨rfl, rfl⟩ | ⟨rfl, rfl⟩ | ⟨rfl, rfl⟩ := h <;>
    exact ⟨rfl, rfl, rfl⟩

/-- Types 3, 4 and 7 begin with the same fields (R190, R191, R194), and 3 and 4 read one more byte. -/
theorem privacyType_ownPart {id : FieldId}
    (h : (type, id, i) ∈ [((3 : BitVec 4), FieldId.ehSid14, Instr.ehUpPrivacy len),
      (4, .ehSaid, .ehDownPrivacy len), (7, .ehSid14, .ehUpPrivacy2 len)]) :
    i.space = .element ∧ opcode i = type ++ len ∧ ∀ p,
      (∃ k, ownPart i p = (keyseqVersion p >>= fun _ => privacyWord id p >>= k)) ∧
      ∀ u : State, type ≠ 7 → p + 4 ≤ u.caplen → u.caplen < p + 5 → (ownPart i p).run u =
        .error (p + 4) ((u.setEncrypted (u.enableAt p)).withRecords (u.privacyRecords id p)) := by
  simp only [List.mem_cons, List.not_mem_nil, or_false, Prod.mk.injEq] at h
  obtain ⟨rfl, rfl, rfl⟩ | ⟨rfl, rfl, rfl⟩ | ⟨rfl, rfl, rfl⟩ := h
  · exact ⟨rfl, rfl, fun _ => ⟨⟨_, rfl⟩, fun _ _ => armUpPrivacy_fault_minislots⟩⟩
  · exact ⟨rfl, rfl, fun _ => ⟨⟨_, rfl⟩, fun _ _ => armDownPrivacy_fault_rsvd⟩⟩
  · exact ⟨rfl, rfl, fun _ => ⟨⟨_, rfl⟩, fun _ h7 => absurd rfl h7⟩⟩

/-- Types 5 and 6 have one own part, behind the relabel note of type 6 (R192, R193, R186). -/
theorem serviceType_ownPart {p : Nat} {note : List Record}
    (h : (type, i, note) ∈ [((5 : BitVec 4), Instr.ehSfPhs5 len, ([] : List Record)),
      (6, .ehSfPhs6 len, if len = 2 then [.note .ehUgsLabel p] else [])]) :
    i.space = .element ∧ opcode i = type ++ len ∧
      ∀ u, (ownPart i p).run u = (armSfPhs5 len p).run (u.withRecords note) := by
  simp only [List.mem_cons, List.not_mem_nil, or_false, Prod.mk.injEq] at h
  obtain ⟨rfl, rfl, rfl⟩ | ⟨rfl, rfl, rfl⟩ := h
  · exact ⟨rfl, rfl, fun u => by rw [withRecords_nil]; rfl⟩
  · exact ⟨rfl, rfl, fun _ => armSfPhs6_run⟩

end

/-! ## The obligations -/

/-- Settles O7: the walk of a view that is over leaves its activation (`step_viewOver`). -/
theorem activationReturns : Obligations.ActivationReturns := by
  unfold Obligations.ActivationReturns
  intro s hp hw
  have hs := step_viewOver hp (Nat.not_lt_of_le hw)
  exact ⟨fun hc => by rw [hs, leaveView_top hc],
    fun c cs hc => by rw [hs, leaveView_nested hc, View.advanced]⟩

/-- Settles O25, by the bytes captured and, for a wrong length, by the policy (`exec_mismatch`). -/
theorem elementRequestAck : Obligations.ElementRequestAck := by
  unfold Obligations.ElementRequestAck
  refine fun s => ⟨fun hf hc => exec_shows rfl rfl hf (armRequest_ok hc),
    fun hf hc => exec_shows rfl rfl hf (armAckReq_ok hc),
    fun hf hc => exec_faults rfl rfl hf (armRequest_fault_minislots hc),
    fun hf hc hc' => exec_shows_faults rfl rfl hf (armRequest_fault_sid hc hc'),
    fun hf hc => exec_faults rfl rfl hf (armAckReq_fault hc), fun type len i h hf => ?_⟩
  obtain ⟨hi, ho, ha⟩ := wrongLength_ownPart h
  have hx := exec_mismatch hi ho hf ha
  refine ⟨fun hb => ?_, fun hb hc => ?_, fun c cs hb hc => ?_⟩
  · rw [hx, if_neg (by simp [hb])]
  · rw [hx, if_pos hb]
    exact congrArg Host.Outcome.next (leaveView_top hc)
  · rw [hx, if_pos hb]
    exact congrArg Host.Outcome.next (leaveView_nested hc)

/-- Settles O26: in either context the own part shows its fields and takes the enable bit; in fragment
context it also loads the scratch registers (`loadFragInfo_eq`). -/
theorem elementUpPrivacy : Obligations.ElementUpPrivacy := by
  unfold Obligations.ElementUpPrivacy
  refine fun s len hf => ⟨fun hg hc => ?_, fun hg hc => ?_⟩
  · exact exec_shows_encrypted rfl rfl hf (armUpPrivacy_plain hg hc)
  · rw [exec_advances (i := .ehUpPrivacy len) rfl rfl hf (armUpPrivacy_inFragment hg hc),
      elementShown_setEncrypted, loadFragInfo_eq]
    rfl

/-- Settles O27: the captured privacy fields of either type, which write `is_encrypted` alone. -/
theorem elementOtherPrivacy : Obligations.ElementOtherPrivacy := by
  unfold Obligations.ElementOtherPrivacy
  exact fun s len hf => ⟨fun hc => exec_shows_encrypted rfl rfl hf (armDownPrivacy_ok hc),
    fun hc => exec_shows_encrypted rfl rfl hf (armUpPrivacy2_ok hc)⟩

/-- Settles O28: type 6 shows the records of type 5 behind its note. -/
theorem elementServiceFlow : Obligations.ElementServiceFlow := by
  unfold Obligations.ElementServiceFlow
  exact fun s len hf hc => ⟨exec_shows rfl rfl hf (armSfPhs5_ok hc),
    exec_shows rfl rfl hf (armSfPhs6_ok hc)⟩

/-- Settles O29, by the length. -/
theorem elementServicePath : Obligations.ElementServicePath := by
  unfold Obligations.ElementServicePath
  refine fun s len hf => ⟨fun hc => exec_shows rfl rfl hf (armDownService_ok hc), fun hl => ?_, ?_⟩
  · exact exec_advances rfl rfl hf (armPathVerify_other hl)
  · rintro rfl hc
    exact exec_shows rfl rfl hf (armPathVerify_ok hc)

/-- Settles O30: the six types have one own part (`defaultType_ownPart`). -/
theorem elementDefault : Obligations.ElementDefault := by
  unfold Obligations.ElementDefault
  intro s len hf type i h
  obtain ⟨hi, ho, ha⟩ := defaultType_ownPart h
  refine ⟨fun hl => ?_, fun hl hc => ?_, fun hl hc => ?_⟩
  · have hr := armDefault_ok (p := s.headAt) (s := s.elementShown type len []) fun h => absurd hl h
    rw [if_pos hl] at hr
    exact exec_shows hi ho hf (ha ▸ hr)
  · have hr := armDefault_ok (p := s.headAt) (s := s.elementShown type len []) fun _ => hc
    rw [if_neg hl] at hr
    exact exec_shows hi ho hf (ha ▸ hr)
  · exact exec_faults hi ho hf (ha ▸ armDefault_fault hl hc)

/-- Settles O31: the nested activation is entered at the head byte, and the end of its view is four
beyond the byte count it reads. -/
theorem elementExtended : Obligations.ElementExtended := by
  unfold Obligations.ElementExtended
  intro s len hf hc
  rw [exec_nested (i := .ehExtended len) rfl rfl hf (armExtended_ok hc), startView_valueAt]
  rfl

/-- Settles O32: the past-end event and the return of the activation (`exec_pastEnd`). -/
theorem pastEndLeavesView : Obligations.PastEndLeavesView := by
  unfold Obligations.PastEndLeavesView
  refine fun s type len i hi ho hf => ⟨fun hc => ?_, fun c cs hc => ?_⟩
  · rw [exec_pastEnd hi ho hf]
    exact congrArg Host.Outcome.next (leaveView_top hc)
  · rw [exec_pastEnd hi ho hf]
    exact congrArg Host.Outcome.next (leaveView_nested hc)

/-- Settles O33, read by read: each read of an own part faults at its offset on the records before it. -/
theorem elementReadFaults : Obligations.ElementReadFaults := by
  unfold Obligations.ElementReadFaults
  intro s len hf
  dsimp only
  refine ⟨fun type id i h => ?_, fun hg hc hc' => ?_, fun type i note h => ?_, fun hc => ?_, ?_, ?_, ?_,
    ?_, ?_, fun hc => ?_⟩
  · obtain ⟨hi, ho, ha⟩ := privacyType_ownPart h
    obtain ⟨⟨k, hk⟩, hm⟩ := ha s.headAt
    exact ⟨fun hc => exec_faults hi ho hf (hk ▸ privacyFields_bind_fault_keyseq k hc),
      fun hc hc' => exec_shows_faults hi ho hf (hk ▸ privacyFields_bind_fault_word k hc hc'),
      fun h7 hc hc' => exec_shows_encrypted_faults hi ho hf (hm _ h7 hc hc')⟩
  · exact exec_shows_encrypted_faults rfl rfl hf (armUpPrivacy_fault_fragment hg hc hc')
  · obtain ⟨hi, ho, ha⟩ := serviceType_ownPart h
    refine ⟨fun hc => exec_shows_faults hi ho hf ((ha _).trans (armSfPhs5_fault_phsi hc)), ?_⟩
    rintro rfl hc hc'
    refine exec_shows_faults hi ho hf ((ha _).trans ?_)
    rw [← withRecords_withRecords]
    exact armSfPhs5_fault_grants (s := State.withRecords _ _) hc hc'
  · exact exec_faults rfl rfl hf (armDownService_fault_trafpri hc)
  · rintro rfl hc hc'
    exact exec_shows_faults rfl rfl hf (armDownService3_fault_dsid hc hc')
  · rintro rfl hc hc'
    exact exec_shows_faults rfl rfl hf (armDownService5_fault_dsid hc hc')
  · rintro rfl hc hc'
    exact exec_shows_faults rfl rfl hf (armDownService5_fault_dspsn hc hc')
  · rintro rfl hc
    exact exec_faults rfl rfl hf (armPathVerify_fault_startref hc)
  · rintro rfl hc hc'
    exact exec_shows_faults rfl rfl hf (armPathVerify_fault_ts hc hc')
  · exact exec_faults rfl rfl hf (armExtended_fault hc)

end Sys2Proof.Machine
end

section
/-! The two checks (`42_checksums.md`): the verdict of the header check case by case (R231), the part it
plays in every class that walks a header (R232), and the fragment check (R234). -/

namespace Sys2Proof.Machine

/-! ## The header check by its verdict -/

section
variable {P : Config.Params} {s : State}

theorem hcsVerdict_unverified (hv : s.cfg.validateHcs = false) : s.hcsVerdict P = .unverified := if_pos hv

theorem hcsVerdict_validated (hv : s.cfg.validateHcs = true) : s.hcsVerdict P =
    if (P.crc16Field (slice s.mem.frame 0 (s.hdrlen - 2))).toNat = s.valueAt (s.hdrlen - 2) 2 then .good
    else .bad := by
  rw [State.hcsVerdict, if_neg (by rw [hv]; decide)]

/-- The record the header check emits in every case (R231). -/
def State.hcsField (s : State) (c : CheckStatus) : Record :=
  .field .hcs (s.hdrlen - 2) 2 (.num (s.valueAt (s.hdrlen - 2) 2)) (some c)

theorem hcsDone_of_bad (h : s.hcsVerdict P = .bad) : s.hcsDone P =
    { s with proceed := false, out := s.out ++ [s.hcsField .bad, .event .badHcs (s.hdrlen - 2)] } := by
  simp [State.hcsDone, h, State.hcsField]

theorem hcsDone_of_ne_bad {c : CheckStatus} (h : s.hcsVerdict P = c) (hc : c ≠ .bad) : s.hcsDone P =
    { s with proceed := true, out := s.out ++ [s.hcsField c] } := by
  subst h
  simp [State.hcsDone, hc, State.hcsField]

end

/-- Settles O22, by the verdict in each case (`hcsVerdict_unverified`, `hcsVerdict_validated`). -/
theorem headerCheck : Obligations.HeaderCheck := by
  unfold Obligations.HeaderCheck
  intro P s h2 val comp shown
  refine ⟨fun hc => ⟨fun hv => ?_, fun hv hg => ?_, fun hv hb => ?_⟩, hcsCheck_fault h2⟩
  · rw [hcsCheck_ok h2 hc, hcsDone_of_ne_bad (hcsVerdict_unverified hv) (by decide)]
    rfl
  · rw [hcsCheck_ok h2 hc, hcsDone_of_ne_bad ((hcsVerdict_validated hv).trans (if_pos hg)) (by decide)]
    rfl
  · rw [hcsCheck_ok h2 hc, hcsDone_of_bad ((hcsVerdict_validated hv).trans (if_neg hb))]
    rfl

/-! ## The header check in the classes that walk a header -/

/-- A part that begins with the header check and does nothing behind a bad one but end the frame
(R232). -/
def Gated (P : Config.Params) (m : Act Unit) : Prop :=
  ∃ k : Unit → Act Unit, m = (hcsCheck P >>= k) ∧
    ∀ u : State, u.proceed = false → finish (k ()) u = u.frameOver

section
variable {P : Config.Params} {s : State} {m : Act Unit}

/-- A hand-off guarded by `proceed` and perhaps more. -/
theorem gated_guarded (P : Config.Params) (c : State → Prop) [DecidablePred c] (handOff : State → Act Unit)
    (hc : ∀ u, c u → u.proceed = true) :
    Gated P (hcsCheck P >>= fun _ => get >>= fun u => if c u then handOff u else pure ()) :=
  ⟨_, rfl, fun u hu => finish_ok (by
    rw [act_get_bind, if_neg (fun h => by simp [hc u h] at hu), act_pure])⟩

theorem gated_ethernetTail (P : Config.Params) : Gated P (ethernetTail P) :=
  gated_guarded P (fun u => u.proceed ∧ 0 < u.pdulen) (fun _ => framePayload .ethNofcs) fun _ h => h.1

theorem gated_managementTail (P : Config.Params) : Gated P (managementTail P) :=
  gated_guarded P (fun u => u.proceed) (fun _ => framePayload .macMgmt) fun _ h => h

theorem gated_tailRsvd (P : Config.Params) : Gated P (tailRsvd P) :=
  gated_guarded P (fun u => u.proceed ∧ 0 < u.pdulen)
    (fun u => emit (.handoff .rawData .frame u.hdrlen u.payloadLength)) fun _ h => h.1

/-- Behind a bad check `FRAG` restores `fragmented`, which the end of the frame clears. -/
theorem gated_tailFrag (P : Config.Params) : Gated P (tailFrag P) :=
  ⟨_, rfl, fun u hu => by
    rw [finish_ok (u := u.restoreFragmented)]
    · rfl
    · rw [act_get_bind, if_neg (by simp [hu])]
      exact act_modify ..⟩

/-- The classes that walk a header (R139, R149, R151) have their part behind the header check. -/
theorem gated_classTail (P : Config.Params) {t : BitVec 2} {p : BitVec 5}
    (h : t ≠ 3 ∨ p = 0 ∨ p = 1 ∨ p = 3) : Gated P (classTail P t p) := by
  have ht : t = 0 ∨ t = 1 ∨ t = 2 ∨ t = 3 := by clear h; revert t; decide
  rcases ht with rfl | rfl | rfl | rfl
  · exact gated_ethernetTail P
  · exact gated_tailRsvd P
  · exact gated_ethernetTail P
  · rcases h with h | rfl | rfl | rfl
    · exact absurd rfl h
    · exact gated_managementTail P
    · exact gated_managementTail P
    · exact gated_tailFrag P

theorem finish_error {t : State} {o : Nat} (h : m.run s = .error o t) : finish m s = t.faulted o := by
  rw [finish, act_bind_error h]
  rfl

theorem Gated.finish_bad (hm : Gated P m) (h2 : 2 ≤ s.hdrlen) (hc : s.hdrlen ≤ s.caplen)
    (hb : s.hcsVerdict P = .bad) : finish m s = (s.hcsDone P).frameOver := by
  obtain ⟨k, rfl, hk⟩ := hm
  rw [← hk (s.hcsDone P) (by rw [hcsDone_of_bad hb]), finish, bind_assoc, act_bind_ok (hcsCheck_ok h2 hc)]
  rfl

theorem Gated.finish_missing (hm : Gated P m) (h2 : 2 ≤ s.hdrlen) (hc : s.caplen < s.hdrlen) :
    finish m s = s.faulted (s.hdrlen - 2) := by
  obtain ⟨k, rfl, -⟩ := hm
  exact finish_error (act_bind_error (hcsCheck_fault h2 hc))

end

/-- Settles O23: the part behind the walk is `Gated`. -/
theorem badHcsEndsFrame : Obligations.BadHcsEndsFrame := by
  unfold Obligations.BadHcsEndsFrame
  intro s hp h6 hc hw hb
  rw [step_tail hp, (gated_classTail defaultParams hw).finish_bad (by omega) hc hb, hcsDone_of_bad hb]
  rfl

/-! ## A header that is not captured whole -/

section
variable {i : Instr} {t : BitVec 2} {p : BitVec 5} {e : Bool} {s : State} {tail : Act Unit}

theorem prologueDone_plain_hdrlen (s : State) (t : BitVec 2) (p : BitVec 5) :
    (s.prologueDone t p false).headerShown.hdrlen = if p = 4 then 7 else 6 := (plainLength_eq p).symm

/-- Without the ext bit, a class that has its header check behind the header fields. -/
theorem exec_plain_missing (hi : i.space = .frame) (ho : opcode i = fcByte t p false)
    (h : s.fieldsCaptured p) (ha : afterPrologue defaultParams i = withHeader tail)
    (hm : Gated defaultParams tail) (hc : s.caplen < if p = 4 then 7 else 6) :
    exec i s = .next ((s.prologueDone t p false).headerShown.faulted (if p = 4 then 5 else 4)) := by
  have hd := prologueDone_plain_hdrlen s t p
  rw [exec_plain hi ho h ha, hm.finish_missing (headerShown_two_le ..) (by rw [hd]; exact hc), hd]
  split <;> rfl

/-- A class with two fields of its own: the fields stand, then the header check faults. -/
theorem exec_fixed_missing {id1 id2 : FieldId} (hi : i.space = .frame) (ho : opcode i = fcByte t p e)
    (h : s.fieldsCaptured p) (ha : afterPrologue defaultParams i = fixedHeader defaultParams id1 id2)
    (hc : s.caplen < (s.prologueDone t p e).hdrlen) :
    exec i s = .next (State.faulted ((s.prologueDone t p e).withRecords
      [numField id1 1 (1 + formatB p) (s.valueAt 1 (1 + formatB p)),
        numField id2 (2 + formatB p) 2 (s.valueAt (2 + formatB p) 2)])
      ((s.prologueDone t p e).hdrlen - 2)) := by
  obtain ⟨hm, hl⟩ := prologueDone_fields s t p e
  have hf : (fixedHeader defaultParams id1 id2).run (s.prologueDone t p e) =
      .error ((s.prologueDone t p e).hdrlen - 2) ((s.prologueDone t p e).twoFields id1 id2) := by
    rw [fixedHeader, act_get_bind, emitField_bind, emitField_bind, addRecord_addRecord]
    exact act_bind_error (hcsCheck_fault (prologueDone_two_le s t p e) hc)
  rw [exec_captured hi ho h, ha, runAct_error hf, State.twoFields, hm, hl]
  rfl

end

/-- `FRAG` without the ext bit is in fragment context where its header check faults
(`43_reassembly.md` R262). -/
theorem exec_frag_missing {s : State} (h : s.fieldsCaptured 3) (hc : s.caplen < 6) :
    exec (.frag false) s = .next (State.faulted { (s.prologueDone 3 3 false).headerShown with
      savedFragmented := s.fragmented, fragmented := true } 4) := by
  have hf := withHeader_plain_fault (tail := tailFrag defaultParams)
    (s := (s.prologueDone 3 3 false).enterFragment) rfl
    (act_bind_error (hcsCheck_fault (prologueDone_two_le s 3 3 false) hc))
  rw [exec_captured (t := 3) rfl rfl h]
  exact runAct_error hf

/-- Settles O21: behind a walk and without one the part from `HcsCheck` on is `Gated`; the fixed-header
classes are `exec_fixed_missing`. -/
theorem truncatedHeaderFaults : Obligations.TruncatedHeaderFaults := by
  unfold Obligations.TruncatedHeaderFaults
  refine ⟨fun s hp h6 hc hw => ?_, fun s p h hc => ?_, fun s h4 hc => ?_, ?_⟩
  · rw [step_tail hp, (gated_classTail defaultParams hw).finish_missing (by omega) hc]
  · exact ⟨exec_plain_missing rfl rfl h rfl (gated_ethernetTail _) hc,
      exec_plain_missing rfl rfl h rfl (gated_ethernetTail _) hc,
      exec_plain_missing rfl rfl h rfl (gated_tailRsvd _) hc⟩
  · have h : ∀ p : BitVec 5, p ≠ 4 → s.fieldsCaptured p := fun p hp => fieldsCaptured_formatA hp h4
    exact ⟨exec_plain_missing rfl rfl (h 0 (by decide)) rfl (gated_managementTail _) hc,
      exec_plain_missing rfl rfl (h 1 (by decide)) rfl (gated_managementTail _) hc,
      exec_frag_missing (h 3 (by decide)) hc⟩
  · intro s e p id1 id2 i hi h hc
    simp only [List.mem_cons, Prod.mk.injEq, List.not_mem_nil, or_false] at hi
    rcases hi with ⟨rfl, rfl, rfl, rfl⟩ | ⟨rfl, rfl, rfl, rfl⟩ | ⟨rfl, rfl, rfl, rfl⟩ <;>
      exact exec_fixed_missing rfl rfl h rfl hc

/-! ## The fragment check -/

/-- Settles O46, by what the comparison does (`fragFcs_run`). -/
theorem fragmentCheck : Obligations.FragmentCheck := by
  unfold Obligations.FragmentCheck
  intro P s o
  rw [fragFcs_run]
  exact ⟨fun h => ⟨_, beq_iff_eq, if_pos h⟩, fun h => if_neg (Nat.not_le_of_lt h)⟩

/-! ## Round trip -/

theorem slice_append_left (a b : List Byte) : slice (a ++ b) 0 a.length = a := by simp [slice]

theorem slice_append_middle (a b c : List Byte) : slice (a ++ b ++ c) a.length b.length = b := by
  simp [slice]

theorem beNat_word16 (v : Word16) : beNat [v.extractLsb' 8 8, v.extractLsb' 0 8] = v.toNat := by
  have := v.isLt
  simp only [beNat, List.foldl, BitVec.extractLsb'_toNat, Nat.shiftRight_eq_div_pow]
  omega

theorem beNat_word32 (v : Word32) :
    beNat [v.extractLsb' 24 8, v.extractLsb' 16 8, v.extractLsb' 8 8, v.extractLsb' 0 8] = v.toNat := by
  have := v.isLt
  simp only [beNat, List.foldl, BitVec.extractLsb'_toNat, Nat.shiftRight_eq_div_pow]
  omega

/-- Settles O47: the bytes before the check are those it covers, and the value read is its CRC. -/
theorem checksumRoundTrip : Obligations.ChecksumRoundTrip := by
  unfold Obligations.ChecksumRoundTrip
  refine fun P s hdr rest => ⟨fun hf hh hv => ?_, fun hf => ?_⟩
  · have ho : s.hdrlen - 2 = hdr.length := by omega
    have hc : s.hdrlen ≤ s.caplen := by
      rw [State.caplen, hf]
      simp
      omega
    have hval : s.valueAt hdr.length 2 = (P.crc16Field hdr).toNat := by
      rw [State.valueAt, hf, ← beNat_word16]
      exact congrArg beNat (slice_append_middle ..)
    have hcov : slice s.mem.frame 0 hdr.length = hdr := by
      rw [hf, List.append_assoc]
      exact slice_append_left ..
    have hg : s.hcsVerdict P = .good := by
      rw [hcsVerdict_validated hv, ho, hval, hcov, if_pos rfl]
    refine ⟨_, hcsCheck_ok (by omega) hc, ?_⟩
    rw [hcsDone_of_ne_bad hg (by decide), State.hcsField, ho, hval]
    exact ⟨rfl, rfl⟩
  · have hc : s.caplen = hdr.length + 4 := by rw [State.caplen, hf]; simp
    have hval : s.valueAt hdr.length 4 = (P.crc32Field hdr).toNat := by
      rw [State.valueAt, hf, ← beNat_word32, ← List.append_nil (hdr ++ _)]
      exact congrArg beNat (slice_append_middle ..)
    have hcov : slice s.mem.frame 0 (s.caplen - 4) = hdr := by
      rw [hc, Nat.add_sub_cancel, hf]
      exact slice_append_left ..
    rw [fragFcs_run, if_pos (by omega), hval, hcov, beq_self_eq_true]

end Sys2Proof.Machine
end

section
/-! The default CRC functions (R233, R236; log 7). With a polynomial whose top bit is set every step of a
reflected CRC is a bijection of the register, so two strings that differ in one byte keep different
checks; a flipped bit is such a difference (R238). -/

namespace Sys2Proof.Machine

/-- Settles O48: each of the four values evaluates. -/
theorem crcCheckValues : Obligations.CrcCheckValues := by
  unfold Obligations.CrcCheckValues
  exact ⟨by decide +kernel, by decide +kernel, by decide +kernel, by decide +kernel⟩

/-! ## Each step of a reflected CRC is injective -/

section
variable {w : Nat} {poly : BitVec w}

/-- The bit shifted out shows in the top bit of what a step leaves. -/
theorem crcBit_msb (hp : poly.msb = true) (c : BitVec w) : (crcBit poly c).msb = c.getLsbD 0 := by
  rw [crcBit]
  split <;> simp_all [BitVec.msb_xor, BitVec.msb_ushiftRight]

/-- The bit shifted out and the bits that stay are the whole register. -/
theorem eq_of_low_of_ushiftRight {c d : BitVec w} (h0 : c.getLsbD 0 = d.getLsbD 0) (h : c >>> 1 = d >>> 1) :
    c = d := by
  refine BitVec.eq_of_getLsbD_eq fun j _ => ?_
  cases j with
  | zero => exact h0
  | succ j =>
    have hj := congrArg (fun v : BitVec w => v.getLsbD j) h
    simpa [BitVec.getLsbD_ushiftRight, Nat.add_comm] using hj

theorem crcBit_injective (hp : poly.msb = true) : Function.Injective (crcBit poly) := by
  intro c d h
  have h0 : c.getLsbD 0 = d.getLsbD 0 := by rw [← crcBit_msb hp, ← crcBit_msb hp, h]
  refine eq_of_low_of_ushiftRight h0 ?_
  rw [crcBit, crcBit, h0] at h
  split at h
  · exact BitVec.xor_left_inj _ |>.1 h
  · exact h

theorem iterate_injective {α : Type} {f : α → α} (hf : Function.Injective f) (n : Nat) :
    Function.Injective (iterate f n) := by
  induction n with
  | zero => exact Function.injective_id
  | succ n ih => exact ih.comp hf

/-- In the register, for every byte. -/
theorem crcByte_injective (hp : poly.msb = true) (x : Byte) : Function.Injective (crcByte poly · x) :=
  fun _ _ h => (BitVec.xor_left_inj _).1 (iterate_injective (crcBit_injective hp) 8 h)

/-- In the byte, for every register at least a byte wide. -/
theorem crcByte_byte_injective (hp : poly.msb = true) (hw : 8 ≤ w) (c : BitVec w) :
    Function.Injective (crcByte poly c) := by
  intro x y h
  have hx := (BitVec.xor_right_inj _).1 (iterate_injective (crcBit_injective hp) 8 h)
  have hy := congrArg (BitVec.setWidth 8) hx
  simpa [BitVec.setWidth_setWidth_of_le _ hw] using hy

theorem crcFold_injective (hp : poly.msb = true) (l : List Byte) :
    Function.Injective (l.foldl (crcByte poly)) := by
  induction l with
  | nil => exact Function.injective_id
  | cons x l ih => exact ih.comp (crcByte_injective hp x)

/-- A reflected CRC detects every error within one byte. -/
theorem crcReflected_ne (hp : poly.msb = true) (hw : 8 ≤ w) (pre post : List Byte) {x y : Byte}
    (h : x ≠ y) : crcReflected poly (pre ++ [x] ++ post) ≠ crcReflected poly (pre ++ [y] ++ post) := by
  intro he
  rw [crcReflected, crcReflected, BitVec.xor_left_inj] at he
  simp only [List.foldl_append, List.foldl_cons, List.foldl_nil] at he
  exact h (crcByte_byte_injective hp hw _ (crcFold_injective hp post he))

end

/-! ## The byte order of the checks -/

theorem swap16_swap16 (v : Word16) : swap16 (swap16 v) = v := by
  have hlo : (swap16 v).extractLsb' 0 8 = v.extractLsb' 8 8 := BitVec.extractLsb'_append_eq_right
  have hhi : (swap16 v).extractLsb' 8 8 = v.extractLsb' 0 8 := BitVec.extractLsb'_append_eq_left
  rw [swap16, hlo, hhi]
  simp only [BitVec.extractLsb'_append_extractLsb'_eq_extractLsb', BitVec.extractLsb'_eq_self]

theorem swap32_swap32 (v : Word32) : swap32 (swap32 v) = v := by
  have h0 : (swap32 v).extractLsb' 0 8 = v.extractLsb' 24 8 := BitVec.extractLsb'_append_eq_right
  have h1 : (swap32 v).extractLsb' 8 8 = v.extractLsb' 16 8 := by
    rw [swap32, BitVec.extractLsb'_append_eq_of_le (by decide)]
    exact BitVec.extractLsb'_append_eq_right
  have h2 : (swap32 v).extractLsb' 16 8 = v.extractLsb' 8 8 := by
    rw [swap32, BitVec.extractLsb'_append_eq_of_le (by decide), BitVec.extractLsb'_append_eq_of_le (by decide)]
    exact BitVec.extractLsb'_append_eq_right
  have h3 : (swap32 v).extractLsb' 24 8 = v.extractLsb' 0 8 := by
    rw [swap32, BitVec.extractLsb'_append_eq_of_le (by decide), BitVec.extractLsb'_append_eq_of_le (by decide)]
    exact BitVec.extractLsb'_append_eq_left
  rw [swap32, h0, h1, h2, h3]
  simp only [BitVec.extractLsb'_append_extractLsb'_eq_extractLsb', BitVec.extractLsb'_eq_self]

/-- Flipping a bit changes that bit. -/
theorem flip_ne (x : Byte) {k : Nat} (hk : k < 8) : x ^^^ (1#8 <<< k) ≠ x := by
  intro h
  have hb := congrArg (·.getLsbD k) h
  simp [hk] at hb

/-- Settles O49, by `crcReflected_ne`: the byte order is no matter, as `swap16` and `swap32` are their own
inverses. -/
theorem singleBitDetected : Obligations.SingleBitDetected := by
  unfold Obligations.SingleBitDetected
  intro pre post x k hk
  have h := flip_ne x hk
  exact ⟨fun he => crcReflected_ne (by decide) (by decide) pre post h
      (Function.LeftInverse.injective swap16_swap16 he),
    fun he => crcReflected_ne (by decide) (by decide) pre post h
      (Function.LeftInverse.injective swap32_swap32 he)⟩

end Sys2Proof.Machine
end

section
/-! The reassembly engine (`43_reassembly.md` R250 to R261). A LAST arrival gathers the group, and the
bit it computes is the closed form of R258; a message fills one run of slots, which is what its LAST
fragment gathers; and arrivals that are not LAST commute, for each changes its own slot alone. -/

namespace Sys2Proof.Machine

/-! ## The contiguous bit -/

theorem presentSlots_eq_gathered (st : Store) (sid : Sid) (seq : Seq4) :
    presentSlots st sid seq = Store.gathered st sid seq := by
  rw [presentSlots, cyclicOrder, List.filterMap_map]
  rfl

theorem runOf_length {n : Nat} (seq : Seq4) (hn : n ≤ 16) : (runOf seq n).length = n := by
  simp only [runOf, cyclicOrder, Config.numSlots, List.length_drop, List.length_map, List.length_range]
  omega

/-- The last `n` numbers of the cyclic order count up to `seq` (R258 `run`). -/
theorem runOf_getElem {n i : Nat} (seq : Seq4) (hn : n ≤ 16) (hi : i < (runOf seq n).length) :
    (runOf seq n)[i] = seq - BitVec.ofNat 4 (n - 1 - i) := by
  rw [runOf_length seq hn] at hi
  simp only [runOf, cyclicOrder, Config.numSlots, List.getElem_drop, List.getElem_map, List.getElem_range]
  apply BitVec.eq_of_toNat_eq
  simp only [BitVec.ofNat_eq_ofNat, BitVec.toNat_add, BitVec.toNat_sub, BitVec.toNat_ofNat]
  omega

theorem map_fst_eq_runOf_iff {present : List (Seq4 × Fragment)} (seq : Seq4) (hn : present.length ≤ 16) :
    present.map Prod.fst = runOf seq present.length ↔
      ∀ i (h : i < present.length), present[i].1 = seq - BitVec.ofNat 4 (present.length - 1 - i) := by
  constructor
  · intro he i hi
    have hg := List.getElem_of_eq he (i := i) (by simpa using hi)
    rwa [List.getElem_map, runOf_getElem seq hn] at hg
  · intro hr
    refine List.ext_getElem (by rw [List.length_map, runOf_length seq hn]) fun i h1 h2 => ?_
    have hi : i < present.length := by simpa using h1
    rw [List.getElem_map, runOf_getElem seq hn, hr i hi]

theorem firstFlagsOk_iff {present : List (Seq4 × Fragment)} (hne : present ≠ []) :
    firstFlagsOk present = true ↔
      ∀ i (h : i < present.length), present[i].2.first = decide (i = 0) := by
  cases present with
  | nil => exact absurd rfl hne
  | cons e rest =>
    rw [firstFlagsOk, Bool.and_eq_true, List.all_eq_true]
    constructor
    · rintro ⟨he, hr⟩ (_ | i) hi
      · exact he
      · simpa using hr _ (List.getElem_mem (Nat.lt_of_succ_lt_succ hi))
    · intro hf
      refine ⟨hf 0 (Nat.succ_pos _), fun x hx => ?_⟩
      obtain ⟨i, hi, rfl⟩ := List.getElem_of_mem hx
      simpa using hf (i + 1) (Nat.succ_lt_succ hi)

/-- The bit is R258's: one run that ends at `seq`, the first flag on its earliest fragment alone. -/
theorem contiguousBit_iff {present : List (Seq4 × Fragment)} (seq : Seq4) (h1 : 1 ≤ present.length)
    (hn : present.length ≤ 16) : contiguousBit present seq = true ↔ contiguousRun present seq := by
  rw [contiguousBit, Bool.and_eq_true, beq_iff_eq, map_fst_eq_runOf_iff seq hn,
    firstFlagsOk_iff (List.length_pos_iff.1 h1)]
  exact forall₂_and.symm

/-! ## The result of a LAST arrival -/

/-- COMPLETE, in terms of what the group gathers (R254, R256, R258). -/
theorem addFragment_complete {st : Store} {sid : Sid} {seq : Seq4} {data : List Byte}
    (h : Store.slot st sid seq = none) {present : List (Seq4 × Fragment)}
    (hp : Store.gathered (Store.write st sid seq data false) sid seq = present) :
    addFragment st sid seq 0b01 data =
      (.complete (present.flatMap (·.2.data)) present.length (contiguousBit present seq),
        Store.release (Store.write st sid seq data false) sid) := by
  rw [addFragment_last h, completeStep, presentSlots_eq_gathered, hp]
  rfl

theorem gathered_length {st : Store} {sid : Sid} {seq : Seq4} {data : List Byte}
    (h : Store.slot st sid seq = none) :
    1 ≤ (Store.gathered (Store.write st sid seq data false) sid seq).length ∧
      (Store.gathered (Store.write st sid seq data false) sid seq).length ≤ 16 :=
  complete_length (congrArg Prod.fst (addFragment_complete h rfl))

/-- Settles O43, one equation of `add_fragment` for each result. -/
theorem addFragmentResults : Obligations.AddFragmentResults := by
  unfold Obligations.AddFragmentResults
  intro st sid seq flags data
  refine ⟨addFragment_duplicate, addFragment_buffered, ?_⟩
  rintro he rfl present
  obtain ⟨h1, h16⟩ := gathered_length (data := data) he
  exact ⟨_, contiguousBit_iff seq h1 h16, h1, h16, addFragment_complete he rfl⟩

/-! ## Release -/

theorem release_insert (st : Store) {sid : Sid} {a : Nat} (f : Fragment)
    (ha : a / Config.numSlots = sid.toNat) :
    Store.release (Store.insert st a f) sid = Store.release st sid := by
  induction st with
  | nil => simp [Store.release, Store.insert, ha]
  | cons e rest ih =>
    simp only [Store.release] at ih
    rw [Store.insert]
    split
    · simp [Store.release, ha]
    · split
      · rename_i he
        simp [Store.release, ← he, ha]
      · simp only [Store.release, List.filter_cons, ih]

/-- What was written to a group is gone when the group is released. -/
theorem release_write (st : Store) (sid : Sid) (seq : Seq4) (data : List Byte) (first : Bool) :
    Store.release (Store.write st sid seq data first) sid = Store.release st sid :=
  release_insert st _ (slotAddr_div sid seq)

/-- To release an empty group changes nothing. -/
theorem release_of_groupEmpty {st : Store} {sid : Sid} (h : Store.groupEmpty st sid) :
    Store.release st sid = st := by
  rw [Store.release, List.filter_eq_self]
  intro e he
  rw [bne_iff_ne]
  intro hs
  have hslot := h (BitVec.ofNat 4 (e.1 % 16))
  have haddr : slotAddr sid (BitVec.ofNat 4 (e.1 % 16)) = e.1 := by
    simp only [slotAddr, ← hs, Config.numSlots, BitVec.toNat_ofNat]
    omega
  rw [Store.slot, haddr, Store.at, Option.map_eq_none_iff, List.find?_eq_none] at hslot
  exact hslot e he (beq_self_eq_true _)

/-! ## A run of slots -/

/-- A group holds the fragments `frs` from the number `q` on, and nothing else. -/
def Store.holdsRun (st : Store) (sid : Sid) (q : Seq4) (frs : List Fragment) : Prop :=
  ∀ j < 16, Store.slot st sid (q + BitVec.ofNat 4 j) = frs[j]?

section
variable {st : Store} {sid : Sid} {q : Seq4} {frs : List Fragment}

theorem holdsRun_nil (h : Store.groupEmpty st sid) : st.holdsRun sid q [] := fun _ _ => h _

/-- The number after a run is free as long as the run is not the whole group. -/
theorem holdsRun_next (h : st.holdsRun sid q frs) (hl : frs.length < 16) :
    Store.slot st sid (q + BitVec.ofNat 4 frs.length) = none := by
  rw [h _ hl, List.getElem?_eq_none (Nat.le_refl _)]

theorem add_ofNat_inj {i j : Nat} (hi : i < 16) (hj : j < 16)
    (h : q + BitVec.ofNat 4 i = q + BitVec.ofNat 4 j) : i = j := by
  have hn := congrArg BitVec.toNat ((BitVec.add_right_inj q).1 h)
  simp only [BitVec.toNat_ofNat] at hn
  omega

theorem add_ofNat_succ (q : Seq4) (n : Nat) :
    q + BitVec.ofNat 4 n + 1 = q + BitVec.ofNat 4 (n + 1) := by
  rw [BitVec.add_assoc, BitVec.ofNat_add]
  rfl

/-- A fragment written behind a run makes it longer by one. -/
theorem holdsRun_write (h : st.holdsRun sid q frs) (hl : frs.length < 16) (data : List Byte) (first : Bool) :
    (Store.write st sid (q + BitVec.ofNat 4 frs.length) data first).holdsRun sid q
      (frs ++ [⟨data, first⟩]) := by
  intro j hj
  rw [slot_write]
  by_cases he : j = frs.length
  · subst he
    rw [if_pos ⟨rfl, rfl⟩, List.getElem?_concat_length]
  · rw [if_neg fun hh => he (add_ofNat_inj hj hl hh.2), h j hj]
    rcases Nat.lt_or_gt_of_ne he with hlt | hgt
    · rw [List.getElem?_append_left hlt]
    · rw [List.getElem?_eq_none (Nat.le_of_lt hgt), List.getElem?_eq_none (by simp; omega)]

theorem filterMap_range_getElem? {α β : Type} (g : Nat → α → β) (l : List α) :
    (List.range l.length).filterMap (fun j => l[j]?.map (g j)) = l.mapIdx g := by
  induction l generalizing g with
  | nil => rfl
  | cons x l ih =>
    rw [List.length_cons, List.range_succ_eq_map, List.filterMap_cons, List.filterMap_map, List.mapIdx_cons,
      ← ih]
    rfl

/-- The fragments of a run with their numbers. -/
def numbered (q : Seq4) (frs : List Fragment) : List (Seq4 × Fragment) :=
  frs.mapIdx fun j f => (q + BitVec.ofNat 4 j, f)

/-- From the number after a run's last one round to it, the free slots come first and then the run. -/
theorem gathered_of_holdsRun (h : st.holdsRun sid q frs) {n : Nat} (hn : frs.length = n + 1)
    (hl : n < 16) : Store.gathered st sid (q + BitVec.ofNat 4 n) = numbered q frs := by
  have hseq : ∀ k, q + BitVec.ofNat 4 n + 1 + BitVec.ofNat 4 k = q + BitVec.ofNat 4 (n + 1 + k) := by
    intro k
    apply BitVec.eq_of_toNat_eq
    simp only [BitVec.ofNat_eq_ofNat, BitVec.toNat_add, BitVec.toNat_ofNat]
    omega
  have hwrap : ∀ j, q + BitVec.ofNat 4 (n + 1 + (15 - n + j)) = q + BitVec.ofNat 4 j := by
    intro j
    apply BitVec.eq_of_toNat_eq
    simp only [BitVec.toNat_add, BitVec.toNat_ofNat]
    omega
  have hfree : (List.range (15 - n)).filterMap (fun k =>
      (Store.slot st sid (q + BitVec.ofNat 4 (n + 1 + k))).map fun f =>
        (q + BitVec.ofNat 4 (n + 1 + k), f)) = [] := by
    rw [List.filterMap_eq_nil_iff]
    intro k hk
    have := List.mem_range.1 hk
    rw [h _ (by omega), List.getElem?_eq_none (by omega)]
    rfl
  have hrun : (List.range (n + 1)).filterMap (fun j =>
      (Store.slot st sid (q + BitVec.ofNat 4 j)).map fun f => (q + BitVec.ofNat 4 j, f)) =
      numbered q frs := by
    rw [numbered, ← filterMap_range_getElem?, hn]
    refine List.filterMap_congr fun j hj => ?_
    have := List.mem_range.1 hj
    rw [h j (by omega)]
  have hsplit : List.range 16 = List.range (15 - n) ++ (List.range (n + 1)).map (15 - n + ·) := by
    rw [← List.range_add]
    congr 1
    omega
  simp only [Store.gathered, hseq]
  rw [hsplit, List.filterMap_append, hfree, List.nil_append, List.filterMap_map]
  simpa only [Function.comp_def, hwrap] using hrun

end

/-! ## A message -/

/-- The fragments of a message as the store holds them: the first flag on the first alone. -/
def messageFragments (d : List Byte) (ds : List (List Byte)) : List Fragment :=
  ⟨d, true⟩ :: ds.map (⟨·, false⟩)

theorem messageFragments_length (d : List Byte) (ds : List (List Byte)) :
    (messageFragments d ds).length = ds.length + 1 := by simp [messageFragments]

theorem messageFragments_concat (d : List Byte) (ds : List (List Byte)) (e : List Byte) :
    messageFragments d (ds ++ [e]) = messageFragments d ds ++ [⟨e, false⟩] := by simp [messageFragments]

theorem messageFragments_data (d : List Byte) (ds : List (List Byte)) :
    (messageFragments d ds).flatMap (·.data) = d ++ ds.flatten := by
  rw [messageFragments, List.flatMap_cons, List.flatMap_map, List.flatMap_id']

theorem messageFragments_first (d : List Byte) (ds : List (List Byte)) {i : Nat}
    (h : i < (messageFragments d ds).length) : (messageFragments d ds)[i].first = decide (i = 0) := by
  cases i <;> simp [messageFragments]

theorem numbered_length (q : Seq4) (frs : List Fragment) : (numbered q frs).length = frs.length :=
  List.length_mapIdx

theorem numbered_snd (q : Seq4) (frs : List Fragment) : (numbered q frs).map Prod.snd = frs :=
  List.ext_getElem (by rw [List.length_map, numbered_length]) fun i h1 h2 => by
    simp only [numbered, List.getElem_map, List.getElem_mapIdx]

theorem numbered_data (q : Seq4) (frs : List Fragment) :
    (numbered q frs).flatMap (·.2.data) = frs.flatMap (·.data) := by
  conv_rhs => rw [← numbered_snd q frs, List.flatMap_map]

/-- The fragments of a message are contiguous (R258). -/
theorem contiguousRun_message (q : Seq4) (d : List Byte) (ds : List (List Byte)) :
    contiguousRun (numbered q (messageFragments d ds)) (q + BitVec.ofNat 4 ds.length) := by
  intro i hi
  rw [numbered_length] at hi ⊢
  simp only [numbered, List.getElem_mapIdx]
  refine ⟨?_, messageFragments_first d ds hi⟩
  rw [messageFragments_length] at hi ⊢
  apply BitVec.eq_of_toNat_eq
  simp only [BitVec.toNat_add, BitVec.toNat_sub, BitVec.toNat_ofNat]
  omega

section
variable {st : Store} {sid : Sid} {q : Seq4} {d : List Byte}

/-- The number after the fragments of a message that are there is free, and the next fragment written to it
goes on with the message. -/
theorem holdsRun_message_next {ds : List (List Byte)} (h : st.holdsRun sid q (messageFragments d ds))
    (hl : ds.length < 15) (e : List Byte) :
    Store.slot st sid (q + BitVec.ofNat 4 (ds.length + 1)) = none ∧
      (Store.write st sid (q + BitVec.ofNat 4 (ds.length + 1)) e false).holdsRun sid q
        (messageFragments d (ds ++ [e])) := by
  have hlen := messageFragments_length d ds
  rw [messageFragments_concat, ← hlen]
  exact ⟨holdsRun_next h (by omega), holdsRun_write h (by omega) e false⟩

/-- The LAST fragment of a message whose others are there. -/
theorem addFragment_message_last {ds : List (List Byte)} (h : st.holdsRun sid q (messageFragments d ds))
    (hl : ds.length < 15) (e : List Byte) :
    addFragment st sid (q + BitVec.ofNat 4 (ds.length + 1)) 0b01 e =
      (.complete (d ++ (ds ++ [e]).flatten) (ds.length + 2) true, Store.release st sid) := by
  obtain ⟨hfree, hw⟩ := holdsRun_message_next h hl e
  have hmsg := messageFragments_length d (ds ++ [e])
  rw [List.length_append, List.length_singleton] at hmsg
  have hg := gathered_of_holdsRun hw hmsg (by omega)
  have hrun := contiguousRun_message q d (ds ++ [e])
  rw [List.length_append, List.length_singleton] at hrun
  have hbit : contiguousBit (numbered q (messageFragments d (ds ++ [e])))
      (q + BitVec.ofNat 4 (ds.length + 1)) = true :=
    (contiguousBit_iff _ (by rw [numbered_length]; omega) (by rw [numbered_length]; omega)).2 hrun
  rw [addFragment_complete hfree hg, hbit, numbered_data, messageFragments_data, numbered_length, hmsg,
    release_write]

/-- The fragments of a message that are still to come. -/
theorem submitAll_later {todo sent : List (List Byte)} (ht : todo ≠ [])
    (hl : sent.length + todo.length ≤ 15) (h : st.holdsRun sid q (messageFragments d sent)) :
    submitAll sid st (laterFragments (q + BitVec.ofNat 4 (sent.length + 1)) todo) =
      (List.replicate (todo.length - 1) .buffered ++
        [.complete (d ++ (sent ++ todo).flatten) (sent.length + todo.length + 1) true],
        Store.release st sid) := by
  induction todo generalizing st sent with
  | nil => exact absurd rfl ht
  | cons e todo ih =>
    cases todo with
    | nil =>
      rw [laterFragments, submitAll, addFragment_message_last h (by simpa using hl)]
      rfl
    | cons e' todo =>
      simp only [List.length_cons] at hl ih
      obtain ⟨hfree, hw⟩ := holdsRun_message_next h (by omega) e
      have hmore := ih (List.cons_ne_nil e' todo) (by simp; omega) hw
      rw [List.length_append, List.length_singleton, ← add_ofNat_succ q (sent.length + 1)] at hmore
      have hadd := addFragment_buffered (data := e) hfree (show (0b00 : BitVec 2) ≠ 0b01 by decide)
      rw [laterFragments, submitAll, hadd, show (0b00 : BitVec 2).getLsbD 1 = false from rfl, hmore,
        release_write]
      simp [List.replicate_succ]
      omega

end

/-- Settles O44: behind the first fragment the message is a run of one, and `submitAll_later` says what
becomes of the others; the group was empty, so its release leaves the store as it was. -/
theorem messageReassembles : Obligations.MessageReassembles := by
  unfold Obligations.MessageReassembles
  intro st sid q d ds he h1 h15
  have hadd := addFragment_buffered (data := d) (he q) (show (0b10 : BitVec 2) ≠ 0b01 by decide)
  have hw : (Store.write st sid q d true).holdsRun sid q (messageFragments d []) := by
    have hw := holdsRun_write (q := q) (holdsRun_nil he) (by decide) d true
    rwa [List.length_nil, BitVec.add_zero] at hw
  have hmore := submitAll_later (List.length_pos_iff.1 h1) (by simpa using h15) hw
  rw [submitAll, hadd, show (0b10 : BitVec 2).getLsbD 1 = true from rfl]
  rw [show q + BitVec.ofNat 4 (([] : List (List Byte)).length + 1) = q + 1 from rfl, release_write,
    release_of_groupEmpty he] at hmore
  rw [hmore]
  obtain ⟨n, hn⟩ := Nat.exists_eq_add_of_le' h1
  simp [hn, List.replicate_succ]

/-! ## Order of arrival -/

/-- Everything an arrival that is not LAST does to the slots: its own holds what it held or, where it was
empty, the fragment. -/
theorem slot_addFragment_notLast {flags : BitVec 2} (hl : flags ≠ 0b01) (st : Store) (sid sid' : Sid)
    (seq seq' : Seq4) (data : List Byte) :
    Store.slot (addFragment st sid seq flags data).2 sid' seq' =
      if sid' = sid ∧ seq' = seq then some ((Store.slot st sid seq).getD ⟨data, flags.getLsbD 1⟩)
      else Store.slot st sid' seq' := by
  cases he : Store.slot st sid seq with
  | none => rw [addFragment_buffered he hl, slot_write, Option.getD_none]
  | some f =>
    rw [addFragment_duplicate (by simp [he])]
    split
    · rename_i h
      rw [h.1, h.2, he, Option.getD_some]
    · rfl

/-- Two arrivals with different numbers, neither of them LAST, commute. -/
theorem addFragment_comm {st : Store} (hs : Store.canonical st) (sid : Sid) {f g : Submission}
    (hne : f.seq ≠ g.seq) (hf : f.flags ≠ 0b01) (hg : g.flags ≠ 0b01) :
    (addFragment (addFragment st sid f.seq f.flags f.data).2 sid g.seq g.flags g.data).2 =
      (addFragment (addFragment st sid g.seq g.flags g.data).2 sid f.seq f.flags f.data).2 := by
  refine ext_of_slots (addFragment_canonical (addFragment_canonical hs ..) ..)
    (addFragment_canonical (addFragment_canonical hs ..) ..) fun sid' seq' => ?_
  simp only [slot_addFragment_notLast hf, slot_addFragment_notLast hg, hne, hne.symm, and_false, if_false]
  by_cases h1 : sid' = sid ∧ seq' = f.seq
  · have h2 : ¬ (sid' = sid ∧ seq' = g.seq) := fun h2 => hne (h1.2.symm.trans h2.2)
    simp only [if_pos h1, if_neg h2]
  · simp only [if_neg h1]

/-- The store left by arrivals with distinct numbers, none of them LAST, in any two orders. -/
theorem submitAll_store_perm {l l' : List Submission} (sid : Sid) (h : l.Perm l') {st : Store}
    (hs : Store.canonical st) (hd : (l.map Submission.seq).Nodup) (hf : ∀ f ∈ l, f.flags ≠ 0b01) :
    (submitAll sid st l).2 = (submitAll sid st l').2 := by
  induction h generalizing st with
  | nil => rfl
  | cons f _ ih =>
    exact ih (addFragment_canonical hs ..) (List.nodup_cons.1 hd).2 fun g hg => hf g (.tail _ hg)
  | swap f g l =>
    have hne : g.seq ≠ f.seq := fun h => (List.nodup_cons.1 hd).1 (by simp [h])
    exact congrArg (fun st => (submitAll sid st l).2)
      (addFragment_comm hs sid hne (hf g (by simp)) (hf f (by simp)))
  | trans h _ ih ih' =>
    exact (ih hs hd hf).trans
      (ih' hs ((h.map _).nodup_iff.1 hd) fun f hm => hf f (h.mem_iff.2 hm))

/-- Settles O45, by `submitAll_store_perm`; the arrival that follows meets equal stores. -/
theorem orderIndependence : Obligations.OrderIndependence := by
  unfold Obligations.OrderIndependence
  intro m sid l l' last hm h hd hf
  have he := submitAll_store_perm sid h ((wf_iff m).1 hm) hd hf
  exact ⟨he, by rw [he]⟩

end Sys2Proof.Machine
end

section
/-! The Fragmentation-Header frame (`43_reassembly.md` R262 to R271). Its part behind the header fields is
the same with a walk and without one: a chain of gates, each of which ends the frame with its own records,
and behind the last of them the submission of the fragment to the store. -/

namespace Sys2Proof.Machine

/-! ## The gates -/

/-- `FragBody` runs: the header is captured whole and its check does not fail (R263). -/
def State.bodyRuns (s : State) (P : Config.Params) : Prop :=
  2 ≤ s.hdrlen ∧ s.hdrlen ≤ s.caplen ∧ s.hcsVerdict P ≠ .bad

/-- The records of a submission, by its result (R268, R269, R271). -/
def State.resultRecords (s : State) : AddResult → List Record
  | .complete buf n c => .reasm s.fragSid n c buf.length buf ::
      s.payloadRecords (targetCont s.cfg.reasmTarget) .reasm 0 buf.length buf
  | .duplicate => [.event .fragDuplicate s.hdrlen, .note .fragN s.fragSeq.toNat]
  | .buffered => [.note .fragN s.fragSeq.toNat]

section
variable {P : Config.Params} {s : State}

/-- The end of the frame clears `fragmented`, whatever the frame restored it to (R130, R270). -/
theorem finish_tailFrag_ok {u : State} (h : s.bodyRuns P) (hr : (fragBody P).run (s.hcsDone P) = .ok () u) :
    finish (tailFrag P) s = u.frameOver := by
  obtain ⟨h2, hc, hb⟩ := h
  rw [finish_ok (u := u.restoreFragmented)]
  · rfl
  · rw [tailFrag_proceed h2 hc hb, hr]

theorem finish_tailFrag_error {u : State} {o : Nat} (h : s.bodyRuns P)
    (hr : (fragBody P).run (s.hcsDone P) = .error o u) : finish (tailFrag P) s = u.faulted o := by
  obtain ⟨h2, hc, hb⟩ := h
  exact finish_error (by rw [tailFrag_proceed h2 hc hb, hr])

/-- The minimum-size gate (R264). -/
theorem finish_fragShort (h : s.bodyRuns P) (hs : s.pdulen < 4 ∨ s.payloadLength < 4) :
    finish (tailFrag P) s = ((s.hcsDone P).withRecords [.event .fragTooShort s.hdrlen]).frameOver :=
  finish_tailFrag_ok h (fragBody_short (s := s.hcsDone P) hs)

/-- The check field is not captured whole (R265). -/
theorem finish_fcsMissing (h : s.bodyRuns P) (hd : 4 ≤ s.pdulen) (hl : 4 ≤ s.payloadLength)
    (hc : s.caplen < s.hdrlen + s.pdulen.toNat) :
    finish (tailFrag P) s = (s.hcsDone P).faulted s.fcsAt :=
  finish_tailFrag_error h (fragBody_fault (s := s.hcsDone P) hd hl hc)

/-- The check fails (R265). -/
theorem finish_fcsBad (h : s.bodyRuns P) (hc : s.fcsCaptured) (hg : ¬ s.fcsGood P) :
    finish (tailFrag P) s =
      ((s.hcsDone P).withRecords [s.fcsRecord .bad, .event .badFragFcs s.fcsAt]).frameOver :=
  finish_tailFrag_ok h (fragBody_bad (s := s.hcsDone P) hc hg)

/-- No fragment information (R266). -/
theorem finish_fragNoInfo (h : s.bodyRuns P) (hc : s.fcsCaptured) (hg : s.fcsGood P)
    (hv : s.fragValid = false) :
    finish (tailFrag P) s =
      ((s.hcsDone P).withRecords [s.fcsRecord .good, .event .fragNoInfo s.hdrlen]).frameOver := by
  refine finish_tailFrag_ok h ?_
  rw [fragBody_good (s := s.hcsDone P) hc hg, submitFragment_noInfo (s := (s.hcsDone P).addRecord _) hv,
    addRecord_addRecord]
  rfl

theorem afterAdd_over (r : AddResult) (s : State) :
    ∃ u, (afterAdd r).run s = .ok () u ∧ u.frameOver = (s.withRecords (s.resultRecords r)).frameOver :=
  ⟨_, afterAdd_run r s, by cases r <;> rfl⟩

/-- Behind the last gate the fragment's bytes are submitted (R266, R267). -/
theorem fragBody_submit (hc : s.fcsCaptured) (hg : s.fcsGood P) (hv : s.fragValid = true)
    (hd : s.hdrlen + (s.payloadLength - 4) ≤ s.caplen) {r : AddResult} {st : Store}
    (ha : addFragment s.mem.store s.fragSid s.fragSeq s.fragFlags s.fragmentData = (r, st)) :
    (fragBody P).run s = (afterAdd r).run ((s.addRecord (s.fcsRecord .good)).setStore st) := by
  rw [fragBody_good hc hg, submitFragment_ok (s := s.addRecord _) hv hd,
    show addFragment (s.addRecord _).mem.store (s.addRecord _).fragSid (s.addRecord _).fragSeq
      (s.addRecord _).fragFlags (s.addRecord _).fragmentData = (r, st) from ha]

/-- The end of a submitted fragment's frame: the store `add_fragment` leaves, and the records of its
result (R267 to R271). -/
theorem finish_fragSubmit (h : s.bodyRuns P) (hp : s.payloadLength = s.caplen - s.hdrlen)
    (hc : s.fcsCaptured) (hg : s.fcsGood P) (hv : s.fragValid = true) {r : AddResult} {st : Store}
    (ha : addFragment s.mem.store s.fragSid s.fragSeq s.fragFlags s.fragmentData = (r, st)) :
    finish (tailFrag P) s = State.frameOver (State.setStore
      ((s.hcsDone P).withRecords (s.fcsRecord .good :: s.resultRecords r)) st) := by
  have hd : s.hdrlen + (s.payloadLength - 4) ≤ s.caplen := by
    have := hc.2.1
    omega
  obtain ⟨u, hu, ho⟩ := afterAdd_over r (((s.hcsDone P).addRecord (s.fcsRecord .good)).setStore st)
  have hb := fragBody_submit (s := s.hcsDone P) hc hg hv hd ha
  have hr := withRecords_withRecords (s.hcsDone P) [s.fcsRecord .good] (s.resultRecords r)
  rw [finish_tailFrag_ok h (hb.trans hu), ho]
  exact congrArg (fun v => (v.setStore st).frameOver) hr

end

/-! ## The frame without a walk -/

/-- `FRAG` without the ext bit, its header fields shown and in fragment context (R262). -/
def State.plainFragment (s : State) : State :=
  { (s.prologueDone 3 3 false).headerShown with savedFragmented := s.fragmented, fragmented := true }

theorem exec_plainFragment {s : State} (h : s.fieldsCaptured 3) :
    exec (.frag false) s = .next (finish (tailFrag defaultParams) s.plainFragment) := by
  rw [exec_captured (t := 3) (p := 3) (e := false) rfl rfl h, afterPrologue, runAct, act_modify_bind,
    withHeader, act_bind_ok (headerFields_run _)]
  rfl

/-- Settles O35: the part behind the header fields, gate by gate. -/
theorem fragWithoutWalk : Obligations.FragWithoutWalk := by
  unfold Obligations.FragWithoutWalk
  intro s h6 hv t
  have hx := exec_plainFragment (s := s) (fieldsCaptured_formatA (by decide) (by omega))
  have h2 : 2 ≤ t.hdrlen := prologueDone_two_le s 3 3 false
  have hc : t.hdrlen ≤ t.caplen := h6
  rw [hx]
  refine ⟨fun hb => ?_, fun hb hs => ?_, fun hb hd hl hm => ?_, fun hb hf hg => ?_, fun hb hf hg => ?_⟩
  · exact congrArg _ ((gated_tailFrag _).finish_bad h2 hc hb)
  · exact congrArg _ (finish_fragShort ⟨h2, hc, hb⟩ hs)
  · exact congrArg _ (finish_fcsMissing ⟨h2, hc, hb⟩ hd hl hm)
  · exact congrArg _ (finish_fcsBad ⟨h2, hc, hb⟩ hf hg)
  · exact congrArg _ (finish_fragNoInfo ⟨h2, hc, hb⟩ hf hg hv)

/-! ## The frame behind a walk -/

section
variable {s : State}

theorem fragReady_bodyRuns (h : s.fragReady defaultParams) : s.bodyRuns defaultParams := by
  obtain ⟨-, -, -, h6, hc, -, hb⟩ := h
  exact ⟨Nat.le_trans (by decide) h6, hc, hb⟩

theorem fragReady_payloadLength (h : s.fragReady defaultParams) :
    s.payloadLength = s.caplen - s.hdrlen := by
  obtain ⟨-, -, -, -, -, hp, -⟩ := h
  exact hp

theorem step_fragReady (h : s.fragReady defaultParams) :
    step s = .next (finish (tailFrag defaultParams) s) := by
  obtain ⟨hp, ht, hs, -⟩ := h
  rw [step_tail hp, ht, hs, classTail_frag]

/-- The step that submits a fragment. -/
theorem step_fragSubmit (h : s.fragReady defaultParams) (hc : s.fcsCaptured)
    (hg : s.fcsGood defaultParams) (hv : s.fragValid = true) {r : AddResult} {st : Store}
    (ha : addFragment s.mem.store s.fragSid s.fragSeq s.fragFlags s.fragmentData = (r, st)) :
    step s = .next (State.frameOver (State.setStore
      ((s.hcsDone defaultParams).withRecords (s.fcsRecord .good :: s.resultRecords r)) st)) := by
  rw [step_fragReady h,
    finish_fragSubmit (fragReady_bodyRuns h) (fragReady_payloadLength h) hc hg hv ha]

end

/-- Settles O36: the first two gates. -/
theorem fragTooShort : Obligations.FragTooShort := by
  unfold Obligations.FragTooShort
  intro s h
  rw [step_fragReady h]
  exact ⟨fun hs => congrArg _ (finish_fragShort (fragReady_bodyRuns h) hs),
    fun hd hl hm => congrArg _ (finish_fcsMissing (fragReady_bodyRuns h) hd hl hm)⟩

/-- Settles O37: the two gates behind the captured check. -/
theorem fragNotSubmitted : Obligations.FragNotSubmitted := by
  unfold Obligations.FragNotSubmitted
  intro s h hc
  rw [step_fragReady h]
  exact ⟨fun hg => congrArg _ (finish_fcsBad (fragReady_bodyRuns h) hc hg),
    fun hg hv => congrArg _ (finish_fragNoInfo (fragReady_bodyRuns h) hc hg hv)⟩

/-- Settles O38: the submission is BUFFERED. -/
theorem fragBuffered : Obligations.FragBuffered := by
  unfold Obligations.FragBuffered
  intro s h hc hg hv hl he
  exact step_fragSubmit h hc hg hv (addFragment_buffered he hl)

/-- Settles O39: the submission is DUPLICATE and leaves the store. -/
theorem fragDuplicate : Obligations.FragDuplicate := by
  unfold Obligations.FragDuplicate
  intro s h hc hg hv hf
  exact step_fragSubmit h hc hg hv (addFragment_duplicate hf)

/-- Settles O40: the submission is COMPLETE with what the group gathers (`addFragment_complete`). -/
theorem fragComplete : Obligations.FragComplete := by
  unfold Obligations.FragComplete
  intro s h hc hg hv hl he st present buf cont
  obtain ⟨h1, h16⟩ := gathered_length (data := s.fragmentData) he
  have ha := addFragment_complete (data := s.fragmentData) he rfl
  rw [← hl] at ha
  refine ⟨_, contiguousBit_iff s.fragSeq h1 h16, ?_⟩
  exact step_fragSubmit h hc hg hv ha

/-! ## The store after the end of a frame -/

/-- In a fragment frame only a fragment whose check matches comes to the store (`fragBody_ends`). -/
theorem tailFrag_store {P : Config.Params} {s : State} (hg : ¬ s.fcsGood P) :
    (leaves ((tailFrag P).run s)).mem.store = s.mem.store := by
  by_cases hc : s.hdrlen - 2 + 2 ≤ s.caplen
  · rw [tailFrag, hcs_bind _ hc, act_get_bind]
    by_cases hp : (s.hcsDone P).proceed = true
    · obtain ⟨rs, fr, st, hl, -, hst⟩ := fragBody_ends P (s.hcsDone P)
      have hb : (leaves ((fragBody P).run (s.hcsDone P))).mem.store = s.mem.store := by
        rw [hl]
        exact hst.resolve_right fun h => hg h.1
      rw [if_pos hp, act_bind]
      cases hr : (fragBody P).run (s.hcsDone P) <;> rw [hr] at hb <;> exact hb
    · rw [if_neg hp]
      rfl
  · rw [tailFrag, hcs_bind_fault _ (by omega)]
    rfl

/-- Settles O41, by `tailFrag_store`. -/
theorem badFragmentNeverStored : Obligations.BadFragmentNeverStored := by
  unfold Obligations.BadFragmentNeverStored
  intro P s hg
  have h := tailFrag_store hg
  cases hr : (tailFrag P).run s <;> rw [hr] at h <;> exact h

/-- Settles O42: the store of a fragment frame is as it was or has had one submission (`classTail_part`),
and that of any other frame is as it was. -/
theorem fragStoreFrame : Obligations.FragStoreFrame := by
  unfold Obligations.FragStoreFrame
  intro s t hp hs
  rw [step_tail hp] at hs
  injection hs with hs
  subst hs
  obtain ⟨rs, pr, fr, st, hv, -, hst⟩ := (classTail_part defaultParams s).isOver
  have hm : (finish (classTail defaultParams s.fctype s.fcparm) s).mem.store = st :=
    congrArg Memory.store hv.mem
  rw [hm]
  rcases hst with rfl | ⟨hi, hst⟩
  · exact ⟨fun _ _ _ => rfl, fun _ _ _ => rfl, fun _ => rfl, fun _ => rfl⟩
  refine ⟨fun sid seq hn => storeEnds_slot hst hn seq, fun hl seq hn => ?_, fun hf => ?_,
    fun hn => absurd hi hn⟩
  · rcases hst with rfl | ⟨-, data, rfl⟩
    · rfl
    · rw [slot_addFragment_notLast hl, if_neg fun h => hn h.2]
  · rcases hst with rfl | ⟨-, data, rfl⟩
    · rfl
    · rw [addFragment_duplicate hf]

end Sys2Proof.Machine
end

section
/-! The host operations (`44_host_operations.md`): `CFG_WRITE` and `CFG_READ` field by field (R291, R50),
and `SESSION_RESET`, behind which nothing of the state before it is left but the configuration (R293). -/

namespace Sys2Proof.Machine

/-! ## The configuration registers -/

theorem writeBit_eq (old : Bool) (v : Nat) : writeBit old v = if v ≤ 1 then decide (v = 1) else old := by
  match v with
  | 0 | 1 => rfl
  | n + 2 => simp [writeBit]

theorem cfg_write_eq (c : Cfg) (i v : Nat) : c.write i v =
    { validateHcs := if i = 0 ∧ v ≤ 1 then decide (v = 1) else c.validateHcs
      dissectEncrypted := if i = 1 ∧ v ≤ 1 then decide (v = 1) else c.dissectEncrypted
      abortViewOnElementError := if i = 2 ∧ v ≤ 1 then decide (v = 1) else c.abortViewOnElementError
      reasmTarget :=
        if i = 3 ∧ v = 0 then .ethNofcs else if i = 3 ∧ v = 1 then .macMgmt
        else if i = 3 ∧ v = 2 then .rawData else c.reasmTarget } := by
  match i with
  | 0 | 1 | 2 => simp [Cfg.write, writeBit_eq]
  | 3 => simp [Cfg.write, writeTarget]
  | n + 4 => simp [Cfg.write]

theorem step_cfgWrite {s : State} {i v : Nat} {ops : List HostOp} (hp : s.phase = .idle)
    (h : s.pending = .cfgWrite i v :: ops) :
    step s = .next { s with pending := ops, cfg := s.cfg.write i v } := by
  rw [step_idle hp, hostStep_begins h]
  rfl

theorem step_cfgRead {s : State} {i : Nat} {ops : List HostOp} (hp : s.phase = .idle)
    (h : s.pending = .cfgRead i :: ops) :
    step s = .next { s with pending := ops, cfgReadValue := some (s.cfg.read i) } := by
  rw [step_idle hp, hostStep_begins h]
  rfl

/-- Settles O12: a write is `cfg_write_eq`, and a read is `Cfg.read` index by index. -/
theorem hostConfigAccess : Obligations.HostConfigAccess := by
  unfold Obligations.HostConfigAccess
  refine fun s i v ops hp => ⟨fun h => ?_, fun h => ?_⟩
  · rw [step_cfgWrite hp h, cfg_write_eq]
  · rw [step_cfgRead hp h]
    match i with
    | 0 | 1 | 2 | 3 | n + 4 => rfl

/-! ## `SESSION_RESET` -/

theorem step_sessionReset {s : State} {ops : List HostOp} (hp : s.phase = .idle)
    (h : s.pending = .sessionReset :: ops) :
    step s = .next { State.reset with cfg := s.cfg, pending := ops } := by
  rw [step_idle hp, hostStep_begins h]
  rfl

theorem run_total (n : Nat) (s : State) : ∃ t, run n s = .next t := by
  obtain ⟨t, -, h, -⟩ := run_alike n (rfl : s.live = s.live)
  exact ⟨t, h⟩

/-- Settles O60: `SESSION_RESET` takes both blocks to one and the same state (`step_sessionReset`), so
all that follows is one and the same run. -/
theorem redissectionIdempotent : Obligations.RedissectionIdempotent := by
  unfold Obligations.RedissectionIdempotent
  intro s t frames n hs ht hcfg hps hpt
  obtain ⟨u, hu⟩ := run_total n { State.reset with cfg := t.cfg, pending := frames.map .frameIn }
  have hrs : run (n + 1) s = .next u := by rw [run, step_sessionReset hs hps, hcfg]; exact hu
  have hrt : run (n + 1) t = .next u := by rw [run, step_sessionReset ht hpt]; exact hu
  exact ⟨u, u, hrs, hrt, rfl, rfl, rfl⟩

end Sys2Proof.Machine
end

section
/-! The whole machine (`60_exceptions.md`): no state and no instruction stops it, and a step inside a frame
reaches nothing of the host's and no group but that of `frag_sid`. -/

namespace Sys2Proof.Machine

/-! ## Nothing stops -/

theorem exec_total (i : Instr) (s : State) : ∃ t, exec i s = .next t := by
  cases hi : i.space with
  | frame =>
    obtain ⟨t, ht, -⟩ := exec_class_ends hi s
    exact ⟨t, ht⟩
  | element =>
    obtain ⟨t, ht, -⟩ := elementBody_ends i s hi
    exact ⟨t, (exec_element hi s).trans ht⟩

/-- Settles O8: each step is one of the ways of `step_next`, and each instruction is a class or an element
(`exec_total`). -/
theorem nothingStops : Obligations.NothingStops := by
  unfold Obligations.NothingStops
  refine ⟨fun s => ?_, exec_total⟩
  obtain ⟨t, ht, -⟩ := step_next s
  exact ⟨t, ht⟩

/-! ## A step inside a frame -/

/-- What a step takes while a frame is in progress: an instruction, the fault of a missing opcode byte, the
return of an activation, or the class from `HcsCheck` on. -/
theorem step_inFrame {s t : State} (hp : s.phase ≠ .idle) (h : step s = .next t) :
    (∃ i, exec i s = .next t) ∨ (∃ o, t = s.faulted o) ∨ t = s.leaveView ∨
      t = finish (classTail defaultParams s.fctype s.fcparm) s := by
  cases hph : s.phase with
  | idle => exact absurd hph hp
  | fetch =>
    cases hi : fetchFrame s with
    | ok i => exact .inl ⟨i, (step_class hph hi).symm.trans h⟩
    | error o =>
      rw [step_class_missing hph hi] at h
      injection h with h
      exact .inr (.inl ⟨o, h.symm⟩)
  | walk =>
    by_cases hw : s.view.pos < s.view.viewEnd
    · cases hi : fetchElement s with
      | ok i => exact .inl ⟨i, (step_element hph hw hi).symm.trans h⟩
      | error o =>
        rw [step_element_missing hph hw hi] at h
        injection h with h
        exact .inr (.inl ⟨o, h.symm⟩)
    · rw [step_viewOver hph hw] at h
      injection h with h
      exact .inr (.inr (.inl h.symm))
  | tail =>
    rw [step_tail hph] at h
    injection h with h
    exact .inr (.inr (.inr h.symm))

/-- What a frame keeps of the block (`60_exceptions.md` R330, `70_reset_and_hazards.md` R352). -/
structure FrameKeeps (s t : State) : Prop where
  cfg : t.cfg = s.cfg
  pending : t.pending = s.pending
  cfgReadValue : t.cfgReadValue = s.cfgReadValue
  frame : t.mem.frame = s.mem.frame
  out : ∃ rs, t.out = s.out ++ rs
  slots : ∀ sid seq, sid ≠ s.fragSid → Store.slot t.mem.store sid seq = Store.slot s.mem.store sid seq

theorem exec_frameKeeps {i : Instr} {s t : State} (h : exec i s = .next t) : FrameKeeps s t := by
  cases hi : i.space with
  | frame =>
    obtain ⟨hcfg, hpending, hread, hframe, -, -, -, -, -, -, hout, -, hslots⟩ := classFrame i s t hi h
    exact ⟨hcfg, hpending, hread, hframe, hout, hslots⟩
  | element =>
    obtain ⟨hmem, hcfg, -, -, -, -, -, -, -, -, -, -, -, hread, hpending, hout, -⟩ :=
      elementFrame i s t hi h
    exact ⟨hcfg, hpending, hread, congrArg Memory.frame hmem, hout, fun _ _ _ => by rw [hmem]⟩

theorem faulted_frameKeeps (s : State) (o : Nat) : FrameKeeps s (s.faulted o) :=
  ⟨rfl, rfl, rfl, rfl, ⟨_, rfl⟩, fun _ _ _ => rfl⟩

theorem leaveView_frameKeeps (s : State) : FrameKeeps s s.leaveView := by
  obtain ⟨v, cs, ph, e, -⟩ := leaveView_eq s
  rw [e]
  exact ⟨rfl, rfl, rfl, rfl, ⟨[], (List.append_nil _).symm⟩, fun _ _ _ => rfl⟩

/-- The end of a frame appends its records and at most one fault report, and a part submits at most one
fragment, to the group of `frag_sid`. -/
theorem Over.frameKeeps {s v : State} {c : Prop} (h : Over s c v) : FrameKeeps s v := by
  obtain ⟨rs, pr, fr, st, hv, -, hst⟩ := h
  have hslots : ∀ sid seq, sid ≠ s.fragSid → Store.slot st sid seq = Store.slot s.mem.store sid seq :=
    fun _ seq hn => storeEnds_slot (hst.elim .inl And.right) hn seq
  obtain ⟨rs', ho⟩ := hv.out
  have hout : v.out = s.out ++ (rs ++ rs') := ho.trans (List.append_assoc ..)
  rcases hv with rfl | ⟨o, rfl⟩ <;> exact ⟨rfl, rfl, rfl, rfl, ⟨rs ++ rs', hout⟩, hslots⟩

theorem step_frameKeeps {s t : State} (hp : s.phase ≠ .idle) (h : step s = .next t) : FrameKeeps s t := by
  rcases step_inFrame hp h with ⟨i, hi⟩ | ⟨o, rfl⟩ | rfl | rfl
  · exact exec_frameKeeps hi
  · exact faulted_frameKeeps s o
  · exact leaveView_frameKeeps s
  · exact (classTail_part defaultParams s).isOver.frameKeeps

/-- Settles O57: each of the four things a step inside a frame can be (`step_inFrame`) keeps what
`FrameKeeps` names. -/
theorem frameChangesLittle : Obligations.FrameChangesLittle := by
  unfold Obligations.FrameChangesLittle
  intro s t hp h
  obtain ⟨hcfg, hpending, hread, hframe, hout, hslots⟩ := step_frameKeeps hp h
  exact ⟨hcfg, hpending, hread, hframe, hout, hslots⟩

end Sys2Proof.Machine
end

section
/-! Reset and hazards (`70_reset_and_hazards.md`): the two resets of the host (R350, R351), and the bounds
and the nesting of the decoder's views (R366). An element changes the running view within its bounds, opens
a view at its own head byte, or returns to the caller, whose type-15 element fitted in the caller's view. -/

namespace Sys2Proof.Machine

/-! ## The resets -/

theorem step_reset {s : State} {ops : List HostOp} (hp : s.phase = .idle) (h : s.pending = .reset :: ops) :
    step s = .next { State.reset with pending := ops } := by
  rw [step_idle hp, hostStep_begins h]
  rfl

/-- Settles O10: both resets lead to the state after reset, `SESSION_RESET` with the configuration kept,
and `resetState` says what that state holds. -/
theorem hostResets : Obligations.HostResets := by
  unfold Obligations.HostResets
  obtain ⟨hcfg, hslots, hflags, hseq, hsid, hvalid, henc, hfrag, hout, hstatus, hphase⟩ := resetState
  refine fun s ops hp => ⟨fun h => ?_, fun h => ?_⟩
  · exact ⟨_, step_reset hp h, rfl, hphase, hcfg, hslots, hflags, hseq, hsid, hvalid, henc, hfrag, hout,
      hstatus⟩
  · exact ⟨_, step_sessionReset hp h, rfl, hphase, rfl, hslots, hflags, hseq, hsid, hvalid, henc, hfrag,
      hout, hstatus⟩

/-! ## The chain of views -/

section
variable {cap : Nat} {v v' c : View} {cs : List View}

theorem entered_inBounds {b : Nat} (n : Byte) (h : b + 2 ≤ cap) : (View.entered b n).inBounds cap :=
  ⟨rfl, Nat.le_refl 4, Nat.le_add_left .., h⟩

/-- An element that fits in its view, stepped over, leaves the cursor within the view (R183, R185). -/
theorem advanced_inBounds (h : v.inBounds cap) (hf : v.pos + 1 + v.len.toNat ≤ v.viewEnd) :
    v.advanced.inBounds cap := by
  obtain ⟨hend, hlow, -, hbase⟩ := h
  refine ⟨hend, ?_, ?_, hbase⟩
  · show 4 ≤ v.pos + v.len.toNat + 1
    omega
  · show v.pos + v.len.toNat + 1 ≤ v.viewEnd
    omega

theorem viewChain_inBounds (h : viewChain cap v cs) : v.inBounds cap := by
  cases cs with
  | nil => exact h.1
  | cons => exact h.1

/-- Of the innermost view the nesting sees the base alone. -/
theorem viewChain_of_base_eq (h : viewChain cap v cs) (hb : v'.b = v.b) (hv : v'.inBounds cap) :
    viewChain cap v' cs := by
  cases cs with
  | nil => exact ⟨hv, hb.trans h.2⟩
  | cons => exact ⟨hv, hb.trans h.2.1, h.2.2⟩

theorem viewChain_setHead (h : viewChain cap v cs) (type len : BitVec 4) :
    viewChain cap (v.setHead type len) cs :=
  viewChain_of_base_eq h rfl (show v.inBounds cap from viewChain_inBounds h)

theorem viewChain_advanced (h : viewChain cap v cs) (hf : v.pos + 1 + v.len.toNat ≤ v.viewEnd) :
    viewChain cap v.advanced cs :=
  viewChain_of_base_eq h rfl (advanced_inBounds (viewChain_inBounds h) hf)

/-- The view of a type-15 element nests in the view of that element (`41_ehdr_elements.md` R197). -/
theorem viewChain_entered (h : viewChain cap v cs) (ht : v.type = 15)
    (hf : v.pos + 1 + v.len.toNat ≤ v.viewEnd) (hc : v.headOff + 2 ≤ cap) (n : Byte) :
    viewChain cap (View.entered v.headOff n) (v :: cs) :=
  ⟨entered_inBounds n hc, rfl, ht, hf, h⟩

/-- The caller of a view steps over its type-15 element, which fitted (R197). -/
theorem viewChain_returned (h : viewChain cap v (c :: cs)) : viewChain cap c.advanced cs := by
  obtain ⟨-, -, -, hf, hc⟩ := h
  exact viewChain_advanced hc hf

end

/-! ## States in order -/

theorem walkOk_of_chain {t : State} (hp : t.phase = .walk) (h : viewChain t.caplen t.view t.callers) :
    t.walkOk := ⟨fun _ => h, fun hn => absurd hp hn⟩

theorem walkOk_of_ended {t : State} (hp : t.phase ≠ .walk) (hc : t.callers = []) : t.walkOk :=
  ⟨fun h => absurd h hp, fun _ => hc⟩

theorem faulted_walkOk (s : State) (o : Nat) : (s.faulted o).walkOk :=
  walkOk_of_ended (show Phase.idle ≠ .walk by decide) rfl

/-- To return from an activation of a walk in order is to go on in order, or to end the walk with no
activation left. -/
theorem leaveView_walkOk {s : State} (hp : s.phase = .walk) (h : viewChain s.caplen s.view s.callers) :
    s.leaveView.walkOk := by
  cases hc : s.callers with
  | nil =>
    rw [leaveView_top hc]
    exact walkOk_of_ended (show Phase.tail ≠ .walk by decide) hc
  | cons c cs =>
    rw [leaveView_nested hc]
    rw [hc] at h
    exact walkOk_of_chain hp (viewChain_returned h)

/-- The end of a frame leaves the activations as they were, or abandons them by a `FAULT_BOUNDS`. -/
theorem Over.walkOk {s v : State} {c : Prop} (hc : s.callers = []) (h : Over s c v) : v.walkOk := by
  obtain ⟨rs, pr, fr, st, hv, -⟩ := h
  rcases hv with rfl | ⟨o, rfl⟩
  · exact walkOk_of_ended (show Phase.idle ≠ .walk by decide) hc
  · exact faulted_walkOk _ o

/-! ## A step in each phase -/

theorem hostStep_walkOk {s : State} (hp : s.phase = .idle) (hc : s.callers = []) : s.hostStep.walkOk := by
  cases h : s.pending with
  | nil =>
    rw [hostStep_holds h]
    exact walkOk_of_ended (by rw [hp]; decide) hc
  | cons op ops =>
    rw [hostStep_begins h]
    cases op with
    | reset | sessionReset => exact walkOk_of_ended (show Phase.idle ≠ .walk by decide) rfl
    | cfgWrite | cfgRead => exact walkOk_of_ended (show s.phase ≠ .walk by rw [hp]; decide) hc
    | frameIn => exact walkOk_of_ended (show Phase.fetch ≠ .walk by decide) rfl

/-- A class that walks begins on the top view, whose first four bytes are captured. -/
theorem ClassEnds.walkOk {i : Instr} {s t : State} (hc : s.callers = []) (h : ClassEnds i s t) : t.walkOk := by
  cases h with
  | cut m o => exact faulted_walkOk _ o
  | walk hf =>
    have hcap : 0 + 2 ≤ s.caplen := by
      have := fieldsCaptured_format hf
      omega
    exact walkOk_of_chain rfl ⟨entered_inBounds _ hcap, rfl⟩
  | ends v _ hv => exact hv.walkOk (s := classStart i s) hc

/-- The own part of an element leaves the decoder's registers to the loop around it. -/
theorem ArmKeeps.chain_kept {enc scr : Bool} {type len : BitVec 4} {s u : State}
    (hk : ArmKeeps s.caplen enc scr (s.elementShown type len []) u)
    (h : viewChain s.caplen s.view s.callers) : viewChain u.caplen u.view u.callers := by
  rw [State.caplen, hk.mem, hk.view, hk.callers]
  exact viewChain_setHead h type len

theorem ElementEnds.walkOk {type len : BitVec 4} {enc scr : Bool} {s t : State} (hp : s.phase = .walk)
    (h : viewChain s.caplen s.view s.callers) (ht : ElementEnds s type len enc scr t) : t.walkOk := by
  cases ht with
  | pastEnd => exact leaveView_walkOk hp (viewChain_setHead h type len)
  | advance u hf hk =>
    have hfits : u.view.pos + 1 + u.view.len.toNat ≤ u.view.viewEnd := by
      rw [hk.view]
      exact hf
    exact walkOk_of_chain (hk.phase.trans hp) (viewChain_advanced (hk.chain_kept h) hfits)
  | abort u _ hk => exact leaveView_walkOk (hk.phase.trans hp) (hk.chain_kept h)
  | nested hf htype hcap =>
    exact walkOk_of_chain rfl (viewChain_entered (viewChain_setHead h type len) htype hf hcap _)
  | fault u o => exact faulted_walkOk u o

theorem step_walkOk_of_fetch {s : State} (hp : s.phase = .fetch) (hc : s.callers = []) :
    ∃ t, step s = .next t ∧ t.walkOk := by
  cases hi : fetchFrame s with
  | ok i =>
    obtain ⟨t, hx, ht⟩ := exec_class_ends (fetchAt_ok hi).2 s
    exact ⟨t, (step_class hp hi).trans hx, ht.walkOk hc⟩
  | error o => exact ⟨_, step_class_missing hp hi, faulted_walkOk s o⟩

theorem step_walkOk_of_walk {s : State} (hp : s.phase = .walk) (h : viewChain s.caplen s.view s.callers) :
    ∃ t, step s = .next t ∧ t.walkOk := by
  by_cases hw : s.view.pos < s.view.viewEnd
  · cases hi : fetchElement s with
    | ok i =>
      have hs := (fetchAt_ok hi).2
      obtain ⟨t, hx, ht⟩ := elementBody_ends i s hs
      exact ⟨t, (step_element hp hw hi).trans ((exec_element hs s).trans hx), ht.walkOk hp h⟩
    | error o => exact ⟨_, step_element_missing hp hw hi, faulted_walkOk s o⟩
  · exact ⟨_, step_viewOver hp hw, leaveView_walkOk hp h⟩

theorem step_walkOk {s : State} (h : s.walkOk) : ∃ t, step s = .next t ∧ t.walkOk := by
  obtain ⟨hchain, hcallers⟩ := h
  cases hp : s.phase with
  | idle => exact ⟨_, step_idle hp, hostStep_walkOk hp (hcallers (by rw [hp]; decide))⟩
  | fetch => exact step_walkOk_of_fetch hp (hcallers (by rw [hp]; decide))
  | walk => exact step_walkOk_of_walk hp (hchain hp)
  | tail =>
    exact ⟨_, step_tail hp,
      (classTail_part defaultParams s).isOver.walkOk (hcallers (by rw [hp]; decide))⟩

/-- Settles O51, phase by phase (`step_walkOk`): outside a walk no activation waits and only a class opens
one, on the top view; in a walk an element keeps the chain of views (`ElementEnds.walkOk`), and so does the
return from a view (`viewChain_returned`). -/
theorem walkBoundsKept : Obligations.WalkBoundsKept := by
  unfold Obligations.WalkBoundsKept
  intro s t h ht
  obtain ⟨u, hu, hok⟩ := step_walkOk h
  rw [hu] at ht
  injection ht with ht
  exact ht ▸ hok

end Sys2Proof.Machine
end
